-- ==== Sys2Proof/Word.lean ====
section
/-!
DEFINITION. The word types of the pilight_firmware pulse engine (00_scope.md R11, R12) and the plainest operations on them.
-/

namespace Sys2Proof

/-- A byte: an event word (30 R100), an NV byte (20 R83). -/
abbrev Byte := BitVec 8

/-- The source's `PulseDuration`: an unsigned 16-bit number of ticks (00 R11). -/
abbrev Duration := BitVec 16

/-- A 32-bit counter or tick stamp (10 R36, R43). -/
abbrev Word32 := BitVec 32

/-- One bit as a byte: 0 is false and 1 is true (00 R15). -/
def bitByte (b : Bool) : Byte := if b then 1#8 else 0#8

/-- One bit as a number (00 R15). -/
def bitNat (b : Bool) : Nat := if b then 1 else 0

end Sys2Proof
end

