-- ==== Sys2Proof/Syntax.lean ====
section
/-!
DEFINITION. The instructions: one constructor per row of spec/opcode_table.json (30_encoding.md R101, R107, R110, R114), and the
closed enumeration of filter modes (00_scope.md R9).
-/

namespace Sys2Proof

/-- The five filter modes, the source's closed enumeration (00 R9, 30 R110). -/
inductive FilterMode where
  | nop
  | testSignal
  | legacyDebounce
  | trainBuffer
  | passthrough
deriving DecidableEq, Repr

/-- The four formats of the opcode table (30, the table at its head). -/
inductive Format where
  /-- 8 bits, one input event. -/
  | evt8
  /-- up to 16 bits, one control command. -/
  | cmd16
  /-- 8 bits, a filter index. -/
  | fidx8
  /-- 4 sub-pulses, one signature payload bit. -/
  | sym4
deriving DecidableEq, Repr

/-- The instructions. An event (EVT8) is what a step of the machine runs. A command (CMD16) holds the whole received word `v`,
since the outcomes record it (60 R330) and its bits 15:6 are ignored, not zero (30 R108). A filter (FIDX8) is run through one of
its two entries, `pinChange` being the flag its caller passes (43 R240). A symbol (SYM4) is run one sub-pulse at a time, `k`
being the sub-pulse its caller has reached (42 R210). -/
inductive Instr where
  /-- `TICK`, one tick period whose handler runs (40 R141). -/
  | tick
  /-- `PCINT`, delivery of the pin-change interrupt (41 R171). -/
  | pcint
  /-- `RX b`, the environment drives the receiver pin to `b` (41 R176). -/
  | rx (b : Bool)
  /-- `CTL b`, the environment drives the control pin to `b` (41 R176). -/
  | ctl (b : Bool)
  /-- `MISS`, one tick period whose handler did not run (40 R156). -/
  | miss
  /-- `POR`, power-on reset (70 R374). -/
  | por
  /-- `C_ADV`: advance the filter, keep low-pass (30 R107). -/
  | cAdv (v : BitVec 16)
  /-- `C_ADV_LP`: advance the filter, low-pass from `LPV`. -/
  | cAdvLp (v : BitVec 16)
  /-- `C_SEL_TESTSIG`: filter 1, keep low-pass. -/
  | cSelTestsig (v : BitVec 16)
  /-- `C_SEL_TESTSIG_LP`: filter 1, low-pass from `LPV`. -/
  | cSelTestsigLp (v : BitVec 16)
  /-- `C_SEL_LEGACY`: filter 2, keep low-pass. -/
  | cSelLegacy (v : BitVec 16)
  /-- `C_SEL_LEGACY_LP`: filter 2, low-pass from `LPV`. -/
  | cSelLegacyLp (v : BitVec 16)
  /-- `C_SEL_TRAIN`: filter 3, keep low-pass. -/
  | cSelTrain (v : BitVec 16)
  /-- `C_SEL_TRAIN_LP`: filter 3, low-pass from `LPV`. -/
  | cSelTrainLp (v : BitVec 16)
  /-- `C_SEL_PASS`: filter 4, keep low-pass. -/
  | cSelPass (v : BitVec 16)
  /-- `C_SEL_PASS_LP`: filter 4, low-pass from `LPV`. -/
  | cSelPassLp (v : BitVec 16)
  /-- `C_BAD5`: invalid target 5. -/
  | cBad5 (v : BitVec 16)
  /-- `C_BAD6`: invalid target 6. -/
  | cBad6 (v : BitVec 16)
  /-- `C_BAD7`: invalid target 7. -/
  | cBad7 (v : BitVec 16)
  /-- `C_BAD8_15`: invalid targets 8 to 15. -/
  | cBad8To15 (v : BitVec 16)
  /-- `F_NOP`: the No-Op filter (43 R243). -/
  | fNop (pinChange : Bool)
  /-- `F_TESTSIG`: the Test-Signal Generator (43 R244, R245). -/
  | fTestsig (pinChange : Bool)
  /-- `F_LEGACY`: the Legacy Debounce filter (43 R247, R248). -/
  | fLegacy (pinChange : Bool)
  /-- `F_TRAIN`: the Train-Buffer filter (43 R250, R256). -/
  | fTrain (pinChange : Bool)
  /-- `F_PASS`: the Passthrough filter (43 R260). -/
  | fPass (pinChange : Bool)
  /-- `SYM_1`: payload bit 1, long sub-pulse at k = 1 (30 R114). -/
  | sym1 (k : BitVec 2)
  /-- `SYM_0`: payload bit 0, long sub-pulse at k = 3 (30 R114). -/
  | sym0 (k : BitVec 2)
deriving DecidableEq, Repr

end Sys2Proof
end

