-- ==== Sys2Proof/WellFormed.lean ====
section
/-!
DEFINITION. When an instruction is well formed: its word matches the mask and the match of its row of spec/opcode_table.json.
Events, filters and symbols carry no word, so every one of them is well formed; a command carries its received word.
-/

namespace Sys2Proof

/-- The test of a row of the opcode table: `word AND mask = match` (30 R101). -/
def rowMatches (mask pat v : BitVec 16) : Bool := v &&& mask == pat

/-- The mask and the match of a command's row (30 R107), each as 16 bits. -/
def Instr.commandRow? : Instr → Option (BitVec 16 × BitVec 16 × BitVec 16)
  | .cAdv v => some (0x002F, 0x0000, v)
  | .cAdvLp v => some (0x002F, 0x0020, v)
  | .cSelTestsig v => some (0x002F, 0x0001, v)
  | .cSelTestsigLp v => some (0x002F, 0x0021, v)
  | .cSelLegacy v => some (0x002F, 0x0002, v)
  | .cSelLegacyLp v => some (0x002F, 0x0022, v)
  | .cSelTrain v => some (0x002F, 0x0003, v)
  | .cSelTrainLp v => some (0x002F, 0x0023, v)
  | .cSelPass v => some (0x002F, 0x0004, v)
  | .cSelPassLp v => some (0x002F, 0x0024, v)
  | .cBad5 v => some (0x000F, 0x0005, v)
  | .cBad6 v => some (0x000F, 0x0006, v)
  | .cBad7 v => some (0x000F, 0x0007, v)
  | .cBad8To15 v => some (0x0008, 0x0008, v)
  | .tick => none
  | .pcint => none
  | .rx _ => none
  | .ctl _ => none
  | .miss => none
  | .por => none
  | .fNop _ => none
  | .fTestsig _ => none
  | .fLegacy _ => none
  | .fTrain _ => none
  | .fPass _ => none
  | .sym1 _ => none
  | .sym0 _ => none

/-- A command's word matches its row; every other instruction is well formed as it stands. -/
def Instr.wellFormed (i : Instr) : Bool :=
  match i.commandRow? with
  | some (mask, pat, v) => rowMatches mask pat v
  | none => true

end Sys2Proof
end

