-- ==== Sys2Proof/Decode.lean ====
section
/-!
DEFINITION. Decoding and encoding (30_encoding.md): the four decoders, one per format, total on every word and rejecting by name;
the encoder, written from the same tables; the received form of a command (30 R104); the decoder the host asks about the rows of
spec/opcode_table.json (decodeTableWord).
-/

namespace Sys2Proof

/-- Why a word spells no instruction. Every reason is safe: the word has no meaning in the spec either. -/
inductive DecodeError where
  /-- An event word whose opcode `[7:4]` is 0x0 or 0x7 to 0xF (30 R102). -/
  | unknownOpcode
  /-- An event word with a nonzero bit in `[3:1]` (30 R102). -/
  | reservedBits
  /-- Bit 0 set on `TICK`, `PCINT`, `MISS` or `POR` (30 R102). -/
  | dataBitOnDataless
  /-- A filter index 5..255 (30 R111). -/
  | unknownFilterIndex
  /-- One of the 14 long-masks that are no symbol (30 R115). -/
  | unknownSymbol
  /-- A word with a bit above the width of its format. -/
  | wordTooWide
deriving DecidableEq, Repr

/-! ## EVT8 -/

/-- Why an event word that matches no row of 30 R101 is illegal (30 R102). -/
def eventError (w : Byte) : DecodeError :=
  if w.extractLsb' 4 4 = 0#4 ∨ 7#4 ≤ w.extractLsb' 4 4 then .unknownOpcode
  else if w.extractLsb' 1 3 ≠ 0#3 then .reservedBits
  else .dataBitOnDataless

/-- The event an event word spells: 30 R101 (`word AND mask = match`), its data bit `b = word[0]` (30 R103). -/
def decodeEvent (w : Byte) : Except DecodeError Instr :=
  if w &&& 0xFF#8 = 0x10#8 then .ok .tick
  else if w &&& 0xFF#8 = 0x20#8 then .ok .pcint
  else if w &&& 0xFE#8 = 0x30#8 then .ok (.rx (w.getLsbD 0))
  else if w &&& 0xFE#8 = 0x40#8 then .ok (.ctl (w.getLsbD 0))
  else if w &&& 0xFF#8 = 0x50#8 then .ok .miss
  else if w &&& 0xFF#8 = 0x60#8 then .ok .por
  else .error (eventError w)

/-- One event from a program's bytes: one byte per event (30 R118). -/
def decodeProgram : List Byte → Except DecodeError (List Instr)
  | [] => .ok []
  | w :: rest =>
    match decodeEvent w, decodeProgram rest with
    | .ok i, .ok is => .ok (i :: is)
    | .error e, _ => .error e
    | .ok _, .error e => .error e

/-! ## CMD16 -/

/-- The command a command word spells, row by row of 30 R107. The last row needs no test: every 16-bit word matches exactly
one row. -/
def decodeCommand (v : BitVec 16) : Instr :=
  if rowMatches 0x002F 0x0000 v then .cAdv v
  else if rowMatches 0x002F 0x0020 v then .cAdvLp v
  else if rowMatches 0x002F 0x0001 v then .cSelTestsig v
  else if rowMatches 0x002F 0x0021 v then .cSelTestsigLp v
  else if rowMatches 0x002F 0x0002 v then .cSelLegacy v
  else if rowMatches 0x002F 0x0022 v then .cSelLegacyLp v
  else if rowMatches 0x002F 0x0003 v then .cSelTrain v
  else if rowMatches 0x002F 0x0023 v then .cSelTrainLp v
  else if rowMatches 0x002F 0x0004 v then .cSelPass v
  else if rowMatches 0x002F 0x0024 v then .cSelPassLp v
  else if rowMatches 0x000F 0x0005 v then .cBad5 v
  else if rowMatches 0x000F 0x0006 v then .cBad6 v
  else if rowMatches 0x000F 0x0007 v then .cBad7 v
  else .cBad8To15 v

/-- A command's word from its bits in the order received, most significant first, into an accumulator that starts at 0
(30 R104). -/
def commandOfBits (bits : List Bool) : BitVec 16 :=
  bits.foldl (fun v b => v <<< 1 ||| (bitByte b).setWidth 16) 0#16

/-! ## FIDX8 -/

/-- The number of a filter mode (30 R110), in the 3 bits of `cfg_filter` (10 R33). -/
def FilterMode.index : FilterMode → BitVec 3
  | .nop => 0
  | .testSignal => 1
  | .legacyDebounce => 2
  | .trainBuffer => 3
  | .passthrough => 4

/-- The mode a filter index selects; 5..255 select none (30 R110, R111). -/
def filterOfIndex (f : Byte) : Option FilterMode :=
  if f = 0#8 then some .nop
  else if f = 1#8 then some .testSignal
  else if f = 2#8 then some .legacyDebounce
  else if f = 3#8 then some .trainBuffer
  else if f = 4#8 then some .passthrough
  else none

/-- The filter instruction of a mode, run through the entry `pinChange` (43 R240). -/
def FilterMode.instr (pinChange : Bool) : FilterMode → Instr
  | .nop => .fNop pinChange
  | .testSignal => .fTestsig pinChange
  | .legacyDebounce => .fLegacy pinChange
  | .trainBuffer => .fTrain pinChange
  | .passthrough => .fPass pinChange

/-- The filter a filter index spells, run through the entry `pinChange`. -/
def decodeFilter (pinChange : Bool) (f : Byte) : Except DecodeError Instr :=
  match filterOfIndex f with
  | some m => .ok (m.instr pinChange)
  | none => .error .unknownFilterIndex

/-! ## SYM4 -/

/-- The symbol a long-mask `M[3:0]` spells (30 R114), of which sub-pulse `k` is run. -/
def decodeSymbol (k : BitVec 2) (m : BitVec 4) : Except DecodeError Instr :=
  if m = 0b0010#4 then .ok (.sym1 k)
  else if m = 0b1000#4 then .ok (.sym0 k)
  else .error .unknownSymbol

/-! ## The encoder -/

/-- The format of an instruction's row in the opcode table. -/
def Instr.format : Instr → Format
  | .tick | .pcint | .rx _ | .ctl _ | .miss | .por => .evt8
  | .cAdv _ | .cAdvLp _ | .cSelTestsig _ | .cSelTestsigLp _ | .cSelLegacy _ | .cSelLegacyLp _ | .cSelTrain _
  | .cSelTrainLp _ | .cSelPass _ | .cSelPassLp _ | .cBad5 _ | .cBad6 _ | .cBad7 _ | .cBad8To15 _ => .cmd16
  | .fNop _ | .fTestsig _ | .fLegacy _ | .fTrain _ | .fPass _ => .fidx8
  | .sym1 _ | .sym0 _ => .sym4

/-- The place an instruction is read from: its format, with what the place itself supplies (the entry a filter is called
through, the sub-pulse a symbol has reached). -/
inductive Slot where
  /-- The next event word of the program. -/
  | event
  /-- The finished control command. -/
  | command
  /-- A filter index, its filter called through the given entry. -/
  | filter (pinChange : Bool)
  /-- A payload bit's symbol at sub-pulse `k`. -/
  | symbol (k : BitVec 2)
deriving DecidableEq, Repr

/-- The place an instruction is read from. -/
def Instr.slot : Instr → Slot
  | .tick | .pcint | .rx _ | .ctl _ | .miss | .por => .event
  | .cAdv _ | .cAdvLp _ | .cSelTestsig _ | .cSelTestsigLp _ | .cSelLegacy _ | .cSelLegacyLp _ | .cSelTrain _
  | .cSelTrainLp _ | .cSelPass _ | .cSelPassLp _ | .cBad5 _ | .cBad6 _ | .cBad7 _ | .cBad8To15 _ => .command
  | .fNop pc | .fTestsig pc | .fLegacy pc | .fTrain pc | .fPass pc => .filter pc
  | .sym1 k | .sym0 k => .symbol k

/-- The word of an instruction, zero-extended to 16 bits (30 R101, R107, R110, R114). -/
def encode : Instr → BitVec 16
  | .tick => 0x10
  | .pcint => 0x20
  | .rx b => if b then 0x31 else 0x30
  | .ctl b => if b then 0x41 else 0x40
  | .miss => 0x50
  | .por => 0x60
  | .cAdv v => v
  | .cAdvLp v => v
  | .cSelTestsig v => v
  | .cSelTestsigLp v => v
  | .cSelLegacy v => v
  | .cSelLegacyLp v => v
  | .cSelTrain v => v
  | .cSelTrainLp v => v
  | .cSelPass v => v
  | .cSelPassLp v => v
  | .cBad5 v => v
  | .cBad6 v => v
  | .cBad7 v => v
  | .cBad8To15 v => v
  | .fNop _ => 0
  | .fTestsig _ => 1
  | .fLegacy _ => 2
  | .fTrain _ => 3
  | .fPass _ => 4
  | .sym1 _ => 0b0010
  | .sym0 _ => 0b1000

/-- The byte of an event in a program (30 R118). -/
def encodeEvent (i : Instr) : Byte := (encode i).setWidth 8

/-- The instruction a word spells at a place, the word zero-extended to 16 bits. -/
def decodeAt (place : Slot) (w : BitVec 16) : Except DecodeError Instr :=
  match place with
  | .event => if w ≤ 0xFF#16 then decodeEvent (w.setWidth 8) else .error .wordTooWide
  | .command => .ok (decodeCommand w)
  | .filter pc => if w ≤ 0xFF#16 then decodeFilter pc (w.setWidth 8) else .error .wordTooWide
  | .symbol k => if w ≤ 0x0F#16 then decodeSymbol k (w.setWidth 4) else .error .wordTooWide

/-! ## The rows of spec/opcode_table.json -/

/-- The first decoding that succeeds, of a word tried at several places. -/
def decodeFirst (w : BitVec 16) : List Slot → Option Instr
  | [] => none
  | p :: rest =>
    match decodeAt p w with
    | .ok i => some i
    | .error _ => decodeFirst w rest

/-- The places a table row of `nbits` bits can be meant for. The table's rows carry no format tag, and an 8-bit word is a word
of every format (30 R105: a short command is zero-extended), so the formats are tried in the table's order of widths: an
event, a filter index, a symbol, a command (DESIGN CHOICE, log 8). The machine itself never guesses: each rule decodes in its own
format. -/
def tablePlaces (nbits : Nat) : List Slot :=
  if nbits ≤ 4 then [.symbol 0]
  else if nbits ≤ 8 then [.event, .filter false, .symbol 0, .command]
  else [.command]

/-- The instruction an instruction word of the opcode table spells, its bits numbered as the table numbers them. -/
def decodeTableWord (nbits w : Nat) : Option Instr :=
  if w < 2 ^ nbits ∧ w < 2 ^ 16 then decodeFirst (BitVec.ofNat 16 w) (tablePlaces nbits) else none

end Sys2Proof
end

