-- ==== Sys2Proof/Config.lean ====
section
/-!
DEFINITION. What an implementation fixes: the parameter record of 00_scope.md R10 with its legal sets and the reference set P0
(92_eei_decisions.md D3), and the one free value of the model, the environment's choice of the next event (40 R140).
-/

namespace Sys2Proof

/-- Three pulse durations, the source's `[PulseDuration; 3]` of a signature header or footer (00 R10). -/
structure PulseTriple where
  p0 : Duration
  p1 : Duration
  p2 : Duration
deriving DecidableEq, Repr

/-- Pulse `i` of a header or a footer, `i` = 0, 1, 2. -/
def PulseTriple.pulse (t : PulseTriple) : Nat → Duration
  | 0 => t.p0
  | 1 => t.p1
  | _ => t.p2

/-- The implementation parameters of 00 R10, one field per row of its table. -/
structure Params where
  /-- `LP_DELAY`: debounce window of the Low-Pass Delay Unit, in ticks. -/
  lpDelay : BitVec 8
  /-- `MIN_PULSELEN`: shortest accepted data pulse. -/
  minPulselen : Duration
  /-- `MAX_PULSELEN`: longest accepted data pulse. -/
  maxPulselen : Duration
  /-- `FOOTER_THRESH`: a valid pulse longer than this is a footer. -/
  footerThresh : Duration
  /-- `MIN_TRAIN_LEN`: shortest train released for replay, in pulses. -/
  minTrainLen : BitVec 16
  /-- `RB_CAP`: ring buffer capacity, in entries. -/
  rbCap : Nat
  /-- `IDLE_TICKS`: the "long neutral duration". -/
  idleTicks : Duration
  /-- `SIG_HDR[0..2]`: header pulse durations. -/
  sigHdr : PulseTriple
  /-- `SIG_FTR[0..2]`: footer pulse durations. -/
  sigFtr : PulseTriple
  /-- `SIG_SHORT`: short sub-pulse of a payload bit. -/
  sigShort : Duration
  /-- `SIG_LONG`: long sub-pulse of a payload bit. -/
  sigLong : Duration
  /-- `SIG_REPEATS`: frames per signature. -/
  sigRepeats : BitVec 8
  /-- `SIG_PERIOD`: signature-due period, in ticks. -/
  sigPeriod : Word32
  /-- `SIG_EXPEDITE`: countdown after a configuration change, in ticks. -/
  sigExpedite : Word32
  /-- `SIG_INITIAL`: countdown value at reset (signed). -/
  sigInitial : Word32
  /-- `VERSION_BASE`: base of the protocol-version field. -/
  versionBase : BitVec 16
  /-- `CTL_ACTIVE_LEVEL`: level of the control pin while "active". -/
  ctlActiveLevel : Bool
  /-- `CTL_BIT_BOUNDARY`: an active time at or above this is a 1 bit. -/
  ctlBitBoundary : Word32
  /-- `CTL_BIT_MAX`: an active time below this is a bit. -/
  ctlBitMax : Word32
  /-- `CTL_FINISH_MIN`: lower end of the finish window. -/
  ctlFinishMin : Word32
  /-- `CTL_FINISH_MAX`: upper end of the finish window. -/
  ctlFinishMax : Word32
  /-- `CTL_IDLE_TIMEOUT`: inactive time after which a session is dropped. -/
  ctlIdleTimeout : Word32
  /-- `NV_SUM_KEY`: key of the NV checksum (44 R302). -/
  nvSumKey : Byte
  /-- `NV_SIZE`: bytes of the Non-Volatile Store. -/
  nvSize : Nat
  /-- `WDT_TIMEOUT_TICKS`: missed ticks before the watchdog resets the device. -/
  wdtTimeout : Word32
  /-- `TEST_SEQ`: pulse durations of the test signal, in order. -/
  testSeq : List Duration
  /-- `NV_WRITE_MISSES`: tick periods lost while the NV write of a command masks interrupts; read by no rule of the engine
  (70 R383), only by the notion of a faithful trace (Machine/Trace.lean). -/
  nvWriteMisses : Nat
deriving DecidableEq, Repr

/-- The column "constraint" of 00 R10: what a legal configuration satisfies. The bound 256 on the length of `TEST_SEQ` is not in
that column: it is what 10 R42 needs, an 8-bit index in 0..len−1 (DEDUCED, log 6, safe). -/
abbrev Params.Legal (p : Params) : Prop :=
  1#8 ≤ p.lpDelay ∧
  1#16 ≤ p.minPulselen ∧
  p.footerThresh < p.maxPulselen ∧
  p.minPulselen ≤ p.footerThresh ∧
  (1 ≤ p.minTrainLen.toNat ∧ p.minTrainLen.toNat ≤ p.rbCap - 1) ∧
  (2 ^ Nat.log2 p.rbCap = p.rbCap ∧ 2 ≤ p.rbCap ∧ p.rbCap ≤ 65536) ∧
  1#16 ≤ p.idleTicks ∧
  p.sigLong ≠ p.sigShort ∧
  1#8 ≤ p.sigRepeats ∧
  (1#32 ≤ p.sigPeriod ∧ p.sigPeriod ≤ 0x7FFFFFFF#32) ∧
  p.sigExpedite ≤ 99#32 ∧
  p.versionBase ≤ 655#16 ∧
  p.ctlBitBoundary ≤ p.ctlBitMax ∧
  p.ctlBitMax ≤ p.ctlFinishMin ∧
  p.ctlFinishMin ≤ p.ctlFinishMax ∧
  p.ctlFinishMax < 0x80000000#32 ∧
  (1#32 ≤ p.ctlIdleTimeout ∧ p.ctlIdleTimeout ≤ 0x7FFFFFFF#32) ∧
  p.nvSumKey ≠ 0#8 ∧
  (4 ≤ p.nvSize ∧ p.nvSize ≤ 256) ∧
  1#32 ≤ p.wdtTimeout ∧
  (p.testSeq ≠ [] ∧ p.testSeq.length ≤ 256 ∧ p.testSeq.all (fun d => decide (1#16 ≤ d)) = true) ∧
  p.nvWriteMisses < p.wdtTimeout.toNat

/-- The reference set P0 (00 R10, 92 D3, D36). `nvWriteMisses` is OPEN in the spec; 0 is the value its vectors use (92 D51,
DESIGN CHOICE, log 11). -/
def Params.p0 : Params where
  lpDelay := 15
  minPulselen := 10
  maxPulselen := 1600
  footerThresh := 510
  minTrainLen := 22
  rbCap := 64
  idleTicks := 1000
  sigHdr := ⟨30, 30, 600⟩
  sigFtr := ⟨30, 30, 1200⟩
  sigShort := 30
  sigLong := 90
  sigRepeats := 3
  sigPeriod := 6000000
  sigExpedite := 50
  sigInitial := 0
  versionBase := 3
  ctlActiveLevel := false
  ctlBitBoundary := 5000
  ctlBitMax := 20000
  ctlFinishMin := 90000
  ctlFinishMax := 210000
  ctlIdleTimeout := 300000
  nvSumKey := 0xA5
  nvSize := 4
  wdtTimeout := 400000
  testSeq := [200, 200, 200, 200, 100, 100, 100, 100, 50, 50, 50, 50, 25, 25, 25, 25, 12, 12, 12, 12, 6, 6, 6, 6, 1000, 1000]
  nvWriteMisses := 0

/-- FREE VALUE (40 R140, 92 D1, D7; log 4): the environment's choice number `n` of the next event, taken where no event word is
placed in the state. Each of its eight values is one of the eight legal event words (30 R101); nothing constrains it. -/
opaque Config.envChoice : Nat → BitVec 3

end Sys2Proof
end

