-- ==== Sys2Proof/Machine/State.lean ====
section
/-!
DEFINITION. The state of the engine (10_state.md): one record of named fields (R30) with every field of R31 to R44, the model's
records (60_exceptions.md R330 to R332, R350), the parameters and the pending event words; the reasons a step can stop; the
state right after reset (10 R49, 70 R370).
-/

namespace Sys2Proof.Machine

/-- A space of cells of `w` bits, as address and value pairs. Canonical form (Memory.wf in Ops.lean): addresses strictly
rising, and no entry equal to what an unlisted address reads as. -/
abbrev Memory (w : Nat) := List (Nat × BitVec w)

/-- The position of the control decoder's state machine (10 R43). -/
inductive CtlState where
  | idle
  | receiving
deriving DecidableEq, Repr

/-- The recorded outcomes with their information (60 R330). They are records of the model: no rule reads one (60 R331). -/
inductive EngineOutcome where
  /-- 1: `WDT_TIMEOUT_TICKS` consecutive `MISS` events. -/
  | watchdogReset
  /-- 2: at boot, `NV[2] > 4` or `NV[1] ≠ nvsum(NV[2])`; records `NV[1]`, `NV[2]`, `NV[3]`. -/
  | configCorrupt (s f l : BitVec 8)
  /-- 3: a receiver edge while a deferral is pending; records `tick_count`. -/
  | spikeCancelled (tick : BitVec 32)
  /-- 4: Train-Buffer filter, duration outside the valid band. -/
  | pulseOutOfRange (d : BitVec 16)
  /-- 5: Train-Buffer filter, valid pulse with a full ring. -/
  | ringFull (d : BitVec 16)
  /-- 6: footer with `train_len < MIN_TRAIN_LEN`; records `train_len` including the footer. -/
  | trainTooShort (n : BitVec 16)
  /-- 7: press more than `CTL_IDLE_TIMEOUT` ticks after the last bit. -/
  | cmdIdleTimeout
  /-- 8: 17th bit pulse. -/
  | cmdTooLong
  /-- 9: active period in the gap or beyond the finish window. -/
  | cmdBadDuration (d : BitVec 32)
  /-- 10: finished command with target 5..15. -/
  | cmdBadTarget (v : BitVec 16)
  /-- 11: finished command equal to the current configuration. -/
  | cmdNoChange (v : BitVec 16)
  /-- 12: finished command that changes the configuration; records the configuration after the change. -/
  | cmdApplied (f : FilterMode) (l : Bool)
deriving DecidableEq, Repr

/-- The numeric code of an outcome (60 R330). -/
def EngineOutcome.code : EngineOutcome → Nat
  | .watchdogReset => 1
  | .configCorrupt _ _ _ => 2
  | .spikeCancelled _ => 3
  | .pulseOutOfRange _ => 4
  | .ringFull _ => 5
  | .trainTooShort _ => 6
  | .cmdIdleTimeout => 7
  | .cmdTooLong => 8
  | .cmdBadDuration _ => 9
  | .cmdBadTarget _ => 10
  | .cmdNoChange _ => 11
  | .cmdApplied _ _ => 12

/-- The reasons the machine stops. -/
inductive Fault where
  /-- An NV access at or above `NV_SIZE` (20 R83), an address that does not exist. Raised by the boot load (`POR`, an expiring
  `MISS`) and by the configuration write (an applied command, `PCINT`), and only where the parameters break `NV_SIZE ≥ 4`
  (00 R10). Safe. -/
  | nvAddress
deriving DecidableEq, Repr

/-- The reasons an instruction has no meaning. -/
inductive Refusal where
  /-- Raised by an arm of exec whose instruction has no meaning in the model yet. Safe. No arm raises it now. -/
  | notModelled (mnemonic : String)
deriving DecidableEq, Repr

/-- The state of the engine. -/
structure State where
  /-- The parameter record (00 R10), fixed for the machine: no step writes it (DESIGN CHOICE, log 1). -/
  par : Params
  /-- `rx_level`: current level of the receiver pin (10 R31). -/
  rxLevel : Bool
  /-- `ctl_level`: current level of the control pin (10 R31). -/
  ctlLevel : Bool
  /-- `out_level`: level driven on the output pin `tx` (10 R31). -/
  outLevel : Bool
  /-- `cfg_filter`: the active filter (10 R33). -/
  cfgFilter : FilterMode
  /-- `cfg_lowpass`: low-pass filtering enabled (10 R33). -/
  cfgLowpass : Bool
  /-- `cfg_nvsum`: derived, `nvsum(cfg_filter)` (10 R33). -/
  cfgNvsum : BitVec 8
  /-- `sig_version`: derived protocol version (10 R34). -/
  sigVersion : BitVec 16
  /-- `sig_checksum`: derived signature checksum (10 R34). -/
  sigChecksum : BitVec 4
  /-- `edge_irq_en`: the edge-interrupt enable (10 R35). -/
  edgeIrqEn : Bool
  /-- `tick_count`: the free-running tick counter (10 R36). -/
  tickCount : BitVec 32
  /-- `sig_countdown`: the signed "next signature due" countdown (10 R36). -/
  sigCountdown : BitVec 32
  /-- `out_remaining`: ticks left of the output pulse being timed (10 R36). -/
  outRemaining : BitVec 16
  /-- `recving_since`: ticks since the previous delivered receiver edge, saturating (10 R36). -/
  recvingSince : BitVec 16
  /-- `wdt_missed`: consecutive tick periods whose handler did not run (10 R37). -/
  wdtMissed : BitVec 32
  /-- `pin_snapshot_rx`: receiver level as last seen by the dispatcher (10 R38). -/
  pinSnapshotRx : Bool
  /-- `pin_snapshot_ctl`: control level as last seen by the dispatcher (10 R38). -/
  pinSnapshotCtl : Bool
  /-- `pc_pending`: a monitored pin changed level since the last dispatch (10 R38). -/
  pcPending : Bool
  /-- `lp_pending`: a deferred edge is pending (10 R38). -/
  lpPending : Bool
  /-- `lp_count`: ticks left before the deferred edge is delivered (10 R38). -/
  lpCount : BitVec 8
  /-- `sig_active`: a signature is being transmitted (10 R39). -/
  sigActive : Bool
  /-- `sig_rep`: frames fully emitted in this signature (10 R39). -/
  sigRep : BitVec 8
  /-- `sig_pos`: index of the next pulse of the frame (10 R39). -/
  sigPos : BitVec 8
  /-- `RB`: the ring buffer's entries (10 R40, 20 R81). -/
  rb : List (Nat × BitVec 16)
  /-- `rb_write`: index of the next entry to write (10 R40). -/
  rbWrite : Nat
  /-- `rb_read`: index of the next entry to replay (10 R40). -/
  rbRead : Nat
  /-- `rb_train_start`: index of the first entry of the train under construction (10 R40). -/
  rbTrainStart : Nat
  /-- `train_len`: pulses pushed since `rb_train_start` (10 R40). -/
  trainLen : BitVec 16
  /-- `ld_shift`: the Legacy-Debounce shift register (10 R41). -/
  ldShift : BitVec 8
  /-- `ts_idx`: index of the next entry of `TEST_SEQ` to emit (10 R42). -/
  tsIdx : BitVec 8
  /-- `ctl_state`: `Idle` or `Receiving` (10 R43). -/
  ctlState : CtlState
  /-- `ctl_active`: an active period of the control pin is being timed (10 R43). -/
  ctlActive : Bool
  /-- `ctl_count`: bits accumulated in this session (10 R43). -/
  ctlCount : BitVec 8
  /-- `ctl_value`: the accumulated command value (10 R43). -/
  ctlValue : BitVec 16
  /-- `ctl_press_tick`: `tick_count` when the current active period began (10 R43). -/
  ctlPressTick : BitVec 32
  /-- `ctl_release_tick`: `tick_count` when the last bit pulse ended (10 R43). -/
  ctlReleaseTick : BitVec 32
  /-- `NV`: the Non-Volatile Store, bytes by address (10 R44, 20 R83). -/
  nv : List Host.Cell
  /-- The outcome log, oldest first (60 R330, R334). -/
  log : List EngineOutcome
  /-- `fault_wdt`: sticky mark of a watchdog expiry (60 R332). -/
  faultWdt : Bool
  /-- `refused`: sticky mark of a refused event word (60 R332, R333). -/
  refused : Bool
  /-- The `(tick_count, out_level)` of every write of `out_level`, oldest first: an observable of a run (60 R350), log 7. -/
  outTrace : List (BitVec 32 × Bool)
  /-- THE MODEL'S OWN: the event words placed for delivery, the next one first (30 R116, R118), log 4. -/
  trace : List (BitVec 8)
  /-- THE MODEL'S OWN: how many of the environment's free choices have been taken, log 4. -/
  envIndex : Nat
deriving DecidableEq, Repr

/-- The state right after reset (10 R49, 70 R370), under P0, with the launch values of the spec's vectors (95: an all-zero NV
store, `rx_level = 0`, `ctl_level = 1`; DESIGN CHOICE, log 2): the zero store fails the checksum, so the configuration is
`Nop` with low-pass off and `ConfigCorrupt(0, 0, 0)` is recorded (70 R372). Ops.launch gives the state after reset for every
other parameter set and launch value. -/
def State.reset : State where
  par := Params.p0
  rxLevel := false
  ctlLevel := true
  outLevel := false
  cfgFilter := .nop
  cfgLowpass := false
  cfgNvsum := 0xA5
  sigVersion := 300
  sigChecksum := 6
  edgeIrqEn := true
  tickCount := 0
  sigCountdown := 0
  outRemaining := 0
  recvingSince := 0
  wdtMissed := 0
  pinSnapshotRx := false
  pinSnapshotCtl := true
  pcPending := false
  lpPending := false
  lpCount := 0
  sigActive := false
  sigRep := 0
  sigPos := 0
  rb := []
  rbWrite := 0
  rbRead := 0
  rbTrainStart := 0
  trainLen := 0
  ldShift := 0
  tsIdx := 0
  ctlState := .idle
  ctlActive := false
  ctlCount := 0
  ctlValue := 0
  ctlPressTick := 0
  ctlReleaseTick := 0
  nv := []
  log := [.configCorrupt 0 0 0]
  faultWdt := false
  refused := false
  outTrace := [(0, false)]
  trace := []
  envIndex := 0

end Sys2Proof.Machine
end

