-- ==== Sys2Proof/Machine/Operands.lean ====
section
/-!
DEFINITION. Every operand form and every value the rules compute from operands, parameters and configuration: the fields of a
command word (30 R106), the valid band (43 R242), the NV checksum (44 R302), the signature's version, checksum, positions and
pulse durations (42 R203 to R210), the sub-pulses of a symbol (30 R114), tick differences (44 R293).
-/

namespace Sys2Proof.Machine

/-! ## The command word (30 R106) -/

/-- `T = v[3:0]`, the target filter. -/
def commandTarget (v : BitVec 16) : BitVec 4 := v.extractLsb' 0 4

/-- `LPV = v[4]`, the new low-pass value. -/
def commandLpv (v : BitVec 16) : Bool := v.getLsbD 4

/-- `LPP = v[5]`: the command sets `cfg_lowpass`. -/
def commandLpp (v : BitVec 16) : Bool := v.getLsbD 5

/-- "Advance to next": `(index + 1) mod 5` (44 R299). -/
def nextFilter : FilterMode → FilterMode
  | .nop => .testSignal
  | .testSignal => .legacyDebounce
  | .legacyDebounce => .trainBuffer
  | .trainBuffer => .passthrough
  | .passthrough => .nop

/-! ## Durations -/

/-- The valid band of a pulse duration, both bounds inclusive (43 R242). -/
def validDuration (p : Params) (d : Duration) : Bool := p.minPulselen ≤ d && d ≤ p.maxPulselen

/-- A footer: strictly longer than the threshold (43 R254). -/
def isFooter (p : Params) (d : Duration) : Bool := p.footerThresh < d

/-- The ticks from a stamp to now, modulo 2^32 (44 R292, R293). -/
def elapsed (now stamp : Word32) : Word32 := now - stamp

/-- `recving_since` one tick later, saturating at 65535 (40 R143, R151). -/
def saturatingTick (d : Duration) : Duration := if d = 65535#16 then d else d + 1

/-- The entry of `TEST_SEQ` at an index. The index is below the length in every state an invariant of the model allows
(10 R42); outside it this is 0, which no run reaches (log 6). -/
def testPulse (p : Params) (i : BitVec 8) : Duration := p.testSeq.getD i.toNat 0

/-- The next index of `TEST_SEQ`: `(ts_idx + 1) mod len(TEST_SEQ)` (43 R244). -/
def nextTestIndex (p : Params) (i : BitVec 8) : BitVec 8 := BitVec.ofNat 8 ((i.toNat + 1) % p.testSeq.length)

/-- The index after `i` in the ring (20 R81). -/
def nextIndex (p : Params) (i : Nat) : Nat := (i + 1) % p.rbCap

/-! ## Configuration values -/

/-- `nvsum(i) = (i XOR NV_SUM_KEY) AND 0xFF` (44 R302). -/
def nvsum (p : Params) (i : Byte) : Byte := i ^^^ p.nvSumKey

/-- The filter index as a byte, as NV byte 2 holds it (20 R84). -/
def filterByte (f : FilterMode) : Byte := f.index.setWidth 8

/-- `version(f, l) = VERSION_BASE · 100 + 10 · l + f` (42 R206). -/
def sigVersionOf (p : Params) (f : FilterMode) (l : Bool) : BitVec 16 :=
  p.versionBase * 100 + 10 * BitVec.ofNat 16 (bitNat l) + f.index.setWidth 16

/-- `(version[3:0] + MIN_PULSELEN[3:0] + MAX_PULSELEN[3:0]) mod 16` (42 R207). -/
def sigChecksumOf (p : Params) (version : BitVec 16) : BitVec 4 :=
  version.setWidth 4 + p.minPulselen.setWidth 4 + p.maxPulselen.setWidth 4

/-! ## The signature frame (30 R112 to R114, 42 R203 to R210) -/

/-- Whether sub-pulse `k` of a payload bit `c` is the long one: `k = (c = 1 ? 1 : 3)` (30 R114). -/
def subPulseLong (c : Bool) (k : BitVec 2) : Bool := k = if c then 1#2 else 3#2

/-- The duration of sub-pulse `k` of a payload bit `c` (30 R114). -/
def subPulse (p : Params) (c : Bool) (k : BitVec 2) : Duration := if subPulseLong c k then p.sigLong else p.sigShort

/-- The encoder's states, the source's `Header(i)` → `Payload(field, bit)` → `Footer(i)` (42 R203); the fourth, `Done`, is
`sig_rep = SIG_REPEATS`. -/
inductive SigPhase where
  | header (i : Nat)
  | payload (field bit : Nat) (k : BitVec 2)
  | footer (i : Nat)
deriving DecidableEq, Repr

/-- `OFF`, the first slot of a payload field (42 R210). -/
def fieldOffset : Nat → Nat
  | 0 => 0
  | 1 => 16
  | 2 => 32
  | _ => 48

/-- The field of a bit slot: the largest `n` with `OFF[n] ≤ slot` (42 R210). -/
def fieldOfSlot (slot : Nat) : Nat :=
  if fieldOffset 3 ≤ slot then 3
  else if fieldOffset 2 ≤ slot then 2
  else if fieldOffset 1 ≤ slot then 1
  else 0

/-- The state of the encoder at position `pos` of a frame (30 R112, 42 R203). -/
def sigPhase (pos : Nat) : SigPhase :=
  if pos ≤ 2 then .header pos
  else if 211 ≤ pos then .footer (pos - 211)
  else
    let slot := (pos - 3) / 4
    .payload (fieldOfSlot slot) (slot - fieldOffset (fieldOfSlot slot)) (BitVec.ofNat 2 ((pos - 3) % 4))

/-- `VAL`, the value of a payload field (42 R205 to R207, R210). -/
def payloadValue (s : State) : Nat → BitVec 16
  | 0 => s.sigVersion
  | 1 => s.par.minPulselen
  | 2 => s.par.maxPulselen
  | _ => s.sigChecksum.setWidth 16

/-- Bit `j` of a payload field, `(VAL[field] >> j) AND 1` (42 R209). -/
def payloadBit (s : State) (field j : Nat) : Bool := (payloadValue s field).getLsbD j

/-- `dur(p)`, the duration of pulse `p` of the frame (42 R210). -/
def frameDuration (s : State) (pos : Nat) : Duration :=
  match sigPhase pos with
  | .header i => s.par.sigHdr.pulse i
  | .footer i => s.par.sigFtr.pulse i
  | .payload field j k => subPulse s.par (payloadBit s field j) k

end Sys2Proof.Machine
end

