-- ==== Sys2Proof/Machine/Flags.lean ====
section
/-!
DEFINITION. The engine has no arithmetic condition codes (10_state.md R45). This file holds the one-bit conditions the rules test:
event admission (40 R140), the tick handler's conditions (40 R144 to R147), the dispatcher's changed pins (41 R171), the ring's
tests (43 R256, R258).
-/

namespace Sys2Proof.Machine

/-- `PCINT` is admitted exactly when `pc_pending = 1` and `edge_irq_en = 1` (41 R170). -/
def pcintAdmitted (s : State) : Bool := s.pcPending && s.edgeIrqEn

/-- An output pulse is being timed (40 R144). -/
def pulseRunning (s : State) : Bool := s.outRemaining != 0

/-- The "next signature due" countdown has gone negative (40 R146): the sign bit of the 32-bit two's complement. -/
def countdownNegative (s : State) : Bool := s.sigCountdown.msb

/-- Step 4's condition: `sig_active = 0 and sig_countdown < 0` (40 R146). -/
def signatureDue (s : State) : Bool := !s.sigActive && countdownNegative s

/-- `ch_rx = rx_level XOR pin_snapshot_rx` (41 R171). -/
def rxChanged (s : State) : Bool := s.rxLevel ^^ s.pinSnapshotRx

/-- `ch_ctl = ctl_level XOR pin_snapshot_ctl` (41 R171). -/
def ctlChanged (s : State) : Bool := s.ctlLevel ^^ s.pinSnapshotCtl

/-- The ring is full: `(rb_write + 1) mod RB_CAP = rb_read` (43 R258). -/
def ringFull (s : State) : Bool := nextIndex s.par s.rbWrite == s.rbRead

/-- Released entries wait for replay: `rb_read ≠ rb_train_start` (43 R256). -/
def replayReady (s : State) : Bool := s.rbRead != s.rbTrainStart

/-- The encoder's state `Done`: `sig_rep = SIG_REPEATS` (42 R202). -/
def signatureDone (s : State) : Bool := s.sigRep == s.par.sigRepeats

/-- The watchdog expires: `wdt_missed ≥ WDT_TIMEOUT_TICKS` (40 R156). -/
def watchdogExpired (s : State) : Bool := s.par.wdtTimeout ≤ s.wdtMissed

end Sys2Proof.Machine
end

