-- ==== Sys2Proof/Machine/Ops.lean ====
section
/-!
DEFINITION. The named operations over memory and registers: the two spaces NV and RB (20_memory.md), the records (60 R330, R332,
R350), the output pin, the configuration register with its derived fields (10 R33, R34), and the engine's one exception-like
transfer, the reset (70 R370) with its boot load (70 R372), which `POR` and a watchdog expiry (40 R157) share. The engine has no
other exception entry and no return from one: handler entry and return save and restore nothing (60 R339, R341).
-/

namespace Sys2Proof.Machine

/-! ## Memory -/

/-- What an unlisted address reads as: 0. For the ring this is its reset value (10 R40); for NV it is the launch value of the
source's boot scenario, which the spec leaves open (10 R44; DESIGN CHOICE, log 3). -/
def Memory.default (w : Nat) : BitVec w := 0#w

/-- The value at an address. -/
def Memory.read {w : Nat} : Memory w → Nat → BitVec w
  | [], _ => Memory.default w
  | (b, v) :: rest, a => if a = b then v else Memory.read rest a

/-- The space with `v` written at `a`. It keeps the canonical form: writing the default removes the entry. -/
def Memory.write {w : Nat} : Memory w → Nat → BitVec w → Memory w
  | [], a, v => if v = Memory.default w then [] else [(a, v)]
  | (b, x) :: rest, a, v =>
    if a < b then (if v = Memory.default w then (b, x) :: rest else (a, v) :: (b, x) :: rest)
    else if a = b then (if v = Memory.default w then rest else (a, v) :: rest)
    else (b, x) :: Memory.write rest a v

/-- The canonical form: addresses strictly rising, no entry equal to the default. -/
def Memory.wf {w : Nat} : Memory w → Bool
  | [] => true
  | (a, v) :: rest => v != Memory.default w && rest.all (fun c => decide (a < c.1)) && Memory.wf rest

/-- `MemRead(a, 1)` (20 R83); an address at or above `NV_SIZE` does not exist. -/
def nvRead (a : Nat) (s : State) : Option Byte := if a < s.par.nvSize then some (Memory.read s.nv a) else none

/-- `MemWrite(a, 1, v)` (20 R83); an address at or above `NV_SIZE` does not exist. -/
def nvWrite (a : Nat) (v : Byte) (s : State) : Option State :=
  if a < s.par.nvSize then some { s with nv := Memory.write s.nv a v } else none

/-- `RBPush(d)` (20 R82). -/
def rbPush (d : Duration) (s : State) : State :=
  { s with rb := Memory.write s.rb s.rbWrite d, rbWrite := nextIndex s.par s.rbWrite }

/-- The entry `RBPop()` returns, `RB[rb_read]` (20 R82). -/
def rbHead (s : State) : Duration := Memory.read s.rb s.rbRead

/-- The index update of `RBPop()` (20 R82). -/
def rbPop (s : State) : State := { s with rbRead := nextIndex s.par s.rbRead }

/-! ## Records -/

/-- `raise Outcome(info)`: append to the outcome log (60 R330). -/
def raiseOutcome (o : EngineOutcome) (s : State) : State := { s with log := s.log ++ [o] }

/-- The refusal of an illegal event word: the mark, and nothing else (60 R333). -/
def markRefused (s : State) : State := { s with refused := true }

/-- The watchdog's sticky mark (40 R157, 60 R332). -/
def markWatchdog (s : State) : State := { s with faultWdt := true }

/-! ## Pins and the output pulse -/

/-- A write of `out_level` (10 R31), recorded with its tick (60 R350). -/
def setOut (level : Bool) (s : State) : State :=
  { s with outLevel := level, outTrace := s.outTrace ++ [(s.tickCount, level)] }

/-- `toggle(tx)` (00 R12). -/
def toggleOut (s : State) : State := setOut (!s.outLevel) s

/-- `out_remaining <- d`: start timing an output pulse (40 R144). -/
def startPulse (d : Duration) (s : State) : State := { s with outRemaining := d }

/-! ## Configuration -/

/-- A write of `cfg_filter` and `cfg_lowpass`; `cfg_nvsum`, `sig_version` and `sig_checksum` follow (10 R33, R34). -/
def setConfig (f : FilterMode) (l : Bool) (s : State) : State :=
  { s with
    cfgFilter := f
    cfgLowpass := l
    cfgNvsum := nvsum s.par (filterByte f)
    sigVersion := sigVersionOf s.par f l
    sigChecksum := sigChecksumOf s.par (sigVersionOf s.par f l) }

/-- `reset_filter_state()` (43 R261). -/
def resetFilterState (s : State) : State :=
  { s with rbWrite := 0, rbRead := 0, rbTrainStart := 0, trainLen := 0, ldShift := 0, tsIdx := 0 }

/-- `session_reset()` (44 R306). -/
def sessionReset (s : State) : State := { s with ctlState := .idle, ctlActive := false, ctlCount := 0, ctlValue := 0 }

/-! ## Reset and boot -/

/-- The configuration a boot load takes from NV bytes 1, 2 and 3 (70 R372). -/
def loadConfig (c f l : Byte) (s : State) : State :=
  match filterOfIndex f with
  | some m =>
    if c = nvsum s.par f then setConfig m (l != 0) s
    else raiseOutcome (.configCorrupt c f l) (setConfig .nop false s)
  | none => raiseOutcome (.configCorrupt c f l) (setConfig .nop false s)

/-- `boot_load()` (70 R372). -/
def bootLoad (s : State) : Host.Outcome State Fault Refusal :=
  match nvRead 1 s, nvRead 2 s, nvRead 3 s with
  | some c, some f, some l => .next (loadConfig c f l s)
  | _, _, _ => .fault .nvAddress

/-- The writes of `reset()` before the boot load (70 R370), in its order; `NV`, the pin levels, the marks and the records are
kept. -/
def clearEngine (s : State) : State :=
  { setOut false s with
    edgeIrqEn := true
    tickCount := 0
    sigCountdown := s.par.sigInitial
    outRemaining := 0
    recvingSince := 0
    wdtMissed := 0
    pinSnapshotRx := s.rxLevel
    pinSnapshotCtl := s.ctlLevel
    pcPending := false
    lpPending := false
    lpCount := 0
    sigActive := false
    sigRep := 0
    sigPos := 0
    rb := []
    rbWrite := 0
    rbRead := 0
    rbTrainStart := 0
    trainLen := 0
    ldShift := 0
    tsIdx := 0
    ctlState := .idle
    ctlActive := false
    ctlCount := 0
    ctlValue := 0
    ctlPressTick := 0
    ctlReleaseTick := 0 }

/-- `reset()` (70 R370). -/
def resetEngine (s : State) : Host.Outcome State Fault Refusal := bootLoad (clearEngine s)

/-- `watchdog_expire()` (40 R157): the outcome, the sticky mark, then the reset. -/
def watchdogExpire (s : State) : Host.Outcome State Fault Refusal :=
  resetEngine (markWatchdog (raiseOutcome .watchdogReset s))

/-- A launch (60 R350): the first power-on of a run with the launch parameters (92 D54), marks and records empty. -/
def launch (p : Params) (nv : List Host.Cell) (rx ctl : Bool) : Host.Outcome State Fault Refusal :=
  resetEngine { State.reset with
    par := p, nv := nv, rxLevel := rx, ctlLevel := ctl, tickCount := 0
    log := [], faultWdt := false, refused := false, outTrace := [] }

/-! ## Delivery of events -/

/-- The event word of a free choice: the eight legal words of 30 R101, one per value. -/
def choiceWord (c : BitVec 3) : Byte :=
  if c = 0#3 then 0x10
  else if c = 1#3 then 0x20
  else if c = 2#3 then 0x30
  else if c = 3#3 then 0x31
  else if c = 4#3 then 0x40
  else if c = 5#3 then 0x41
  else if c = 6#3 then 0x50
  else 0x60

/-- The next event word and the state after its delivery: the first placed word, or, where none is placed, the environment's
free choice (40 R140, 92 D1; log 4). -/
def fetchWord (s : State) : Byte × State :=
  match s.trace with
  | w :: rest => (w, { s with trace := rest })
  | [] => (choiceWord (Config.envChoice s.envIndex), { s with envIndex := s.envIndex + 1 })

end Sys2Proof.Machine
end

