-- ==== Sys2Proof/Machine/Command.lean ====
section
/-!
DEFINITION. Applying a finished control command (44_control.md R299 to R304): the configuration write, the meanings of the 14 CMD16
rows, and `apply_command`, which decodes the word and runs its row.
-/

namespace Sys2Proof.Machine

/-- `nv_write_config()`: bytes 2, 3 and 1, in that order (44 R301). -/
def nvWriteConfig (s : State) : Option State :=
  match nvWrite 2 (filterByte s.cfgFilter) s with
  | some t =>
    match nvWrite 3 (bitByte s.cfgLowpass) t with
    | some u => nvWrite 1 s.cfgNvsum u
    | none => none
  | none => none

/-- The filter state a configuration write starts from: reset exactly when the filter changes (44 R300, R304). -/
def switchFilter (nf : FilterMode) (s : State) : State := if nf = s.cfgFilter then s else resetFilterState s

/-- `write_config(nf, nl)` (44 R300): the expedited countdown (44 R303) and `CmdApplied` come after the NV write. -/
def writeConfig (nf : FilterMode) (nl : Bool) (s : State) : Host.Outcome State Fault Refusal :=
  match nvWriteConfig (setConfig nf nl (switchFilter nf s)) with
  | some t => .next (raiseOutcome (.cmdApplied nf nl) { t with sigCountdown := t.par.sigExpedite })
  | none => .fault .nvAddress

/-- The end of `apply_command(v)` once the target configuration is known (44 R299). -/
def selectConfig (v : BitVec 16) (nf : FilterMode) (nl : Bool) (s : State) : Host.Outcome State Fault Refusal :=
  if nf = s.cfgFilter ∧ nl = s.cfgLowpass then .next (raiseOutcome (.cmdNoChange v) s) else writeConfig nf nl s

/-- A command whose target is 5..15 changes nothing (30 R108, 44 R299). -/
def badTarget (v : BitVec 16) (s : State) : Host.Outcome State Fault Refusal :=
  .next (raiseOutcome (.cmdBadTarget v) s)

/-- C_ADV (30 R107, 44 R299). -/
def execCAdv (v : BitVec 16) (s : State) : Host.Outcome State Fault Refusal :=
  selectConfig v (nextFilter s.cfgFilter) s.cfgLowpass s

/-- C_ADV_LP. -/
def execCAdvLp (v : BitVec 16) (s : State) : Host.Outcome State Fault Refusal :=
  selectConfig v (nextFilter s.cfgFilter) (commandLpv v) s

/-- C_SEL_TESTSIG. -/
def execCSelTestsig (v : BitVec 16) (s : State) : Host.Outcome State Fault Refusal :=
  selectConfig v .testSignal s.cfgLowpass s

/-- C_SEL_TESTSIG_LP. -/
def execCSelTestsigLp (v : BitVec 16) (s : State) : Host.Outcome State Fault Refusal :=
  selectConfig v .testSignal (commandLpv v) s

/-- C_SEL_LEGACY. -/
def execCSelLegacy (v : BitVec 16) (s : State) : Host.Outcome State Fault Refusal :=
  selectConfig v .legacyDebounce s.cfgLowpass s

/-- C_SEL_LEGACY_LP. -/
def execCSelLegacyLp (v : BitVec 16) (s : State) : Host.Outcome State Fault Refusal :=
  selectConfig v .legacyDebounce (commandLpv v) s

/-- C_SEL_TRAIN. -/
def execCSelTrain (v : BitVec 16) (s : State) : Host.Outcome State Fault Refusal :=
  selectConfig v .trainBuffer s.cfgLowpass s

/-- C_SEL_TRAIN_LP. -/
def execCSelTrainLp (v : BitVec 16) (s : State) : Host.Outcome State Fault Refusal :=
  selectConfig v .trainBuffer (commandLpv v) s

/-- C_SEL_PASS. -/
def execCSelPass (v : BitVec 16) (s : State) : Host.Outcome State Fault Refusal :=
  selectConfig v .passthrough s.cfgLowpass s

/-- C_SEL_PASS_LP. -/
def execCSelPassLp (v : BitVec 16) (s : State) : Host.Outcome State Fault Refusal :=
  selectConfig v .passthrough (commandLpv v) s

/-- C_BAD5. -/
def execCBad5 (v : BitVec 16) (s : State) : Host.Outcome State Fault Refusal := badTarget v s

/-- C_BAD6. -/
def execCBad6 (v : BitVec 16) (s : State) : Host.Outcome State Fault Refusal := badTarget v s

/-- C_BAD7. -/
def execCBad7 (v : BitVec 16) (s : State) : Host.Outcome State Fault Refusal := badTarget v s

/-- C_BAD8_15. -/
def execCBad8To15 (v : BitVec 16) (s : State) : Host.Outcome State Fault Refusal := badTarget v s

/-- `apply_command(v)` (44 R299): decode the finished word and run its row. Every word decodes to a command (30 R107), so the
last line, which lists the other formats' instructions, is never reached (Laws.decodeCommand_slot). -/
def applyCommand (v : BitVec 16) (s : State) : Host.Outcome State Fault Refusal :=
  match decodeCommand v with
  | .cAdv v => execCAdv v s
  | .cAdvLp v => execCAdvLp v s
  | .cSelTestsig v => execCSelTestsig v s
  | .cSelTestsigLp v => execCSelTestsigLp v s
  | .cSelLegacy v => execCSelLegacy v s
  | .cSelLegacyLp v => execCSelLegacyLp v s
  | .cSelTrain v => execCSelTrain v s
  | .cSelTrainLp v => execCSelTrainLp v s
  | .cSelPass v => execCSelPass v s
  | .cSelPassLp v => execCSelPassLp v s
  | .cBad5 v => execCBad5 v s
  | .cBad6 v => execCBad6 v s
  | .cBad7 v => execCBad7 v s
  | .cBad8To15 v => execCBad8To15 v s
  | .tick | .pcint | .rx _ | .ctl _ | .miss | .por | .fNop _ | .fTestsig _ | .fLegacy _ | .fTrain _ | .fPass _
  | .sym1 _ | .sym0 _ => .next s

end Sys2Proof.Machine
end

