-- ==== Sys2Proof/Machine/Control.lean ====
section
/-!
DEFINITION. The Firmware Control Decoder's state machine (44_control.md R290 to R298, R306), entered by the edge handler when the
control pin changed; it has no periodic entry (R290).
-/

namespace Sys2Proof.Machine

/-- The idle timeout a press finds: in `Receiving`, more than `CTL_IDLE_TIMEOUT` ticks after the last bit (44 R292, R295). -/
def sessionTimedOut (s : State) : Bool :=
  s.ctlState = .receiving ∧ s.par.ctlIdleTimeout < elapsed s.tickCount s.ctlReleaseTick

/-- `ctl_press()` (44 R292). -/
def ctlPress (s : State) : State :=
  let t := if sessionTimedOut s then raiseOutcome .cmdIdleTimeout (sessionReset s) else s
  { t with ctlState := .receiving, ctlActive := true, ctlPressTick := t.tickCount }

/-- The bit of an active time: 1 at or above the boundary (44 R294). -/
def pulseBit (p : Params) (d : Word32) : Bool := p.ctlBitBoundary ≤ d

/-- The accumulator with one more bit, most significant first (44 R294). -/
def shiftBit (v : BitVec 16) (b : Bool) : BitVec 16 := v <<< 1 ||| (bitByte b).setWidth 16

/-- `bit_pulse(d)` (44 R294): a 17th bit cancels the session. -/
def bitPulse (d : Word32) (s : State) : State :=
  if s.ctlCount = 16#8 then raiseOutcome .cmdTooLong (sessionReset s)
  else
    { s with
      ctlValue := shiftBit s.ctlValue (pulseBit s.par d)
      ctlCount := s.ctlCount + 1
      ctlReleaseTick := s.tickCount }

/-- `finish_pulse()` (44 R296): the session is reset before the command is applied. -/
def finishPulse (s : State) : Host.Outcome State Fault Refusal := applyCommand s.ctlValue (sessionReset s)

/-- The class of an active time `d` (44 R293): a bit, a finish, or neither (44 R298). -/
def classifyPulse (d : Word32) (s : State) : Host.Outcome State Fault Refusal :=
  if d < s.par.ctlBitMax then .next (bitPulse d s)
  else if s.par.ctlFinishMin ≤ d ∧ d ≤ s.par.ctlFinishMax then finishPulse s
  else .next (raiseOutcome (.cmdBadDuration d) (sessionReset s))

/-- `ctl_release()` (44 R293); a release with no press being timed is ignored (44 R297). -/
def ctlRelease (s : State) : Host.Outcome State Fault Refusal :=
  if s.ctlActive then classifyPulse (elapsed s.tickCount s.ctlPressTick) { s with ctlActive := false } else .next s

/-- `control_edge(level)` (44 R291). -/
def controlEdge (level : Bool) (s : State) : Host.Outcome State Fault Refusal :=
  if level = s.par.ctlActiveLevel then .next (ctlPress s) else ctlRelease s

end Sys2Proof.Machine
end

