-- ==== Sys2Proof/Machine/Filters.lean ====
section
/-!
DEFINITION. The filter strategies (43_filters.md): the two entries of each of the five filters, the dispatch on `cfg_filter`, and
the meanings of the five FIDX8 rows. A filter entry is total and O(1) (R241).
-/

namespace Sys2Proof.Machine

/-! ## No-Op (43 R243) -/

/-- `nop_apply(pc): skip`. -/
def nopApply (_pc : Bool) (s : State) : State := s

/-! ## Test-Signal Generator (43 R244, R245) -/

/-- The periodic entry emits the next entry of `TEST_SEQ`; the pin-change entry does nothing. -/
def testsigApply (pc : Bool) (s : State) : State :=
  if pc then s
  else { startPulse (testPulse s.par s.tsIdx) (toggleOut s) with tsIdx := nextTestIndex s.par s.tsIdx }

/-! ## Legacy Debounce (43 R247, R248) -/

/-- The shift register after an edge that ends a pulse of `d` ticks (43 R247). -/
def legacyShift (p : Params) (d : Duration) (sh : Byte) : Byte := sh <<< 1 ||| bitByte (validDuration p d)

/-- The validity of `d = recving_since` shifted in (43 R247). -/
def shiftLegacy (s : State) : State := { s with ldShift := legacyShift s.par s.recvingSince s.ldShift }

/-- The pin-change entry: shift, and toggle when the register is 0xFF (43 R247). -/
def legacyEdge (s : State) : State :=
  if (shiftLegacy s).ldShift = 0xFF#8 then toggleOut (shiftLegacy s) else shiftLegacy s

/-- Both entries of the Legacy filter; the periodic entry does nothing (43 R248). -/
def legacyApply (pc : Bool) (s : State) : State := if pc then legacyEdge s else s

/-! ## Train-Buffer Filter (43 R250 to R258) -/

/-- `discard_train()` (43 R253). -/
def discardTrain (s : State) : State := { s with rbWrite := s.rbTrainStart, trainLen := 0 }

/-- A valid duration that fits: pushed and counted (43 R252). -/
def extendTrain (d : Duration) (s : State) : State := { rbPush d s with trainLen := s.trainLen + 1 }

/-- The end of a train at its footer: released for replay, or discarded when too short (43 R254, R255). -/
def finishTrain (s : State) : State :=
  if s.par.minTrainLen ≤ s.trainLen then { s with rbTrainStart := s.rbWrite, trainLen := 0 }
  else discardTrain (raiseOutcome (.trainTooShort s.trainLen) s)

/-- `train_apply(true)` with the duration `d` (43 R250). -/
def trainEdge (d : Duration) (s : State) : State :=
  if !validDuration s.par d then raiseOutcome (.pulseOutOfRange d) (discardTrain s)
  else if ringFull s then raiseOutcome (.ringFull d) (discardTrain s)
  else if isFooter s.par d then finishTrain (extendTrain d s)
  else extendTrain d s

/-- `train_apply(false)`: replay one released entry, or idle low for `IDLE_TICKS` (43 R256, R257). -/
def trainTick (s : State) : State :=
  if replayReady s then startPulse (rbHead s) (toggleOut (rbPop s))
  else startPulse s.par.idleTicks (setOut false s)

/-- Both entries of the Train-Buffer filter. -/
def trainApply (pc : Bool) (s : State) : State := if pc then trainEdge s.recvingSince s else trainTick s

/-! ## Passthrough (43 R260) -/

/-- `pass_apply(pc): out_level <- rx_level`, both entries. -/
def passApply (_pc : Bool) (s : State) : State := setOut s.rxLevel s

/-! ## The dispatch and the five rows -/

/-- `apply_filter(pc)`: exactly one filter is active, the one `cfg_filter` names (43 R240). -/
def applyFilter (pc : Bool) (s : State) : State :=
  match s.cfgFilter with
  | .nop => nopApply pc s
  | .testSignal => testsigApply pc s
  | .legacyDebounce => legacyApply pc s
  | .trainBuffer => trainApply pc s
  | .passthrough => passApply pc s

/-- F_NOP (43 R243). -/
def execFNop (pc : Bool) (s : State) : Host.Outcome State Fault Refusal := .next (nopApply pc s)

/-- F_TESTSIG (43 R244, R245). -/
def execFTestsig (pc : Bool) (s : State) : Host.Outcome State Fault Refusal := .next (testsigApply pc s)

/-- F_LEGACY (43 R247, R248). -/
def execFLegacy (pc : Bool) (s : State) : Host.Outcome State Fault Refusal := .next (legacyApply pc s)

/-- F_TRAIN (43 R250, R256). -/
def execFTrain (pc : Bool) (s : State) : Host.Outcome State Fault Refusal := .next (trainApply pc s)

/-- F_PASS (43 R260). -/
def execFPass (pc : Bool) (s : State) : Host.Outcome State Fault Refusal := .next (passApply pc s)

end Sys2Proof.Machine
end

