-- ==== Sys2Proof/Machine/Edge.lean ====
section
/-!
DEFINITION. The Edge Dispatcher and the Low-Pass Delay Unit (41_edge_lowpass.md): the delay unit's operations, the receiver edge, and
the meanings of `PCINT`, `RX b` and `CTL b`.
-/

namespace Sys2Proof.Machine

/-! ## Low-Pass Delay Unit -/

/-- A receiver edge delivered to the filter: the filter reads `recving_since` before it is cleared (41 R173, R182). -/
def deliverEdge (s : State) : State := { applyFilter true s with recvingSince := 0 }

/-- `arm()` (41 R180). -/
def lowpassArm (s : State) : State := { s with lpPending := true, lpCount := s.par.lpDelay }

/-- `cancel()` (41 R181). -/
def lowpassCancel (s : State) : State :=
  raiseOutcome (.spikeCancelled s.tickCount) { s with lpPending := false, lpCount := 0 }

/-- `lowpass_step()`, one advance of the delay unit (41 R182). -/
def lowpassStep (s : State) : State :=
  if s.lpPending then
    if s.lpCount - 1 = 0#8 then deliverEdge { s with lpCount := 0, lpPending := false }
    else { s with lpCount := s.lpCount - 1 }
  else s

/-! ## The edge handler -/

/-- `rx_edge()` (41 R173, R174). -/
def rxEdge (s : State) : State :=
  if s.cfgLowpass then (if s.lpPending then lowpassCancel s else lowpassArm s) else deliverEdge s

/-- The latch cleared and both snapshots taken, before any edge is handled (41 R171). -/
def takeSnapshot (s : State) : State :=
  { s with pcPending := false, pinSnapshotRx := s.rxLevel, pinSnapshotCtl := s.ctlLevel }

/-- The receiver's part of a dispatch of the state `s` (41 R171, R172). -/
def dispatchRx (s : State) : State := if rxChanged s then rxEdge (takeSnapshot s) else takeSnapshot s

/-- The edge handler (41 R171): the receiver edge first, then the control edge (41 R172). -/
def dispatchEdges (s : State) : Host.Outcome State Fault Refusal :=
  if ctlChanged s then controlEdge s.ctlLevel (dispatchRx s) else .next (dispatchRx s)

/-- PCINT (41 R170, R171). Where it is not admitted it is not delivered and no state changes (40 R140; log 9). -/
def execPcint (s : State) : Host.Outcome State Fault Refusal := if pcintAdmitted s then dispatchEdges s else .next s

/-! ## Level changes (41 R176) -/

/-- RX b (41 R176). -/
def execRx (b : Bool) (s : State) : Host.Outcome State Fault Refusal :=
  .next (if b = s.rxLevel then s else { s with rxLevel := b, pcPending := true })

/-- CTL b (41 R176). -/
def execCtl (b : Bool) (s : State) : Host.Outcome State Fault Refusal :=
  .next (if b = s.ctlLevel then s else { s with ctlLevel := b, pcPending := true })

end Sys2Proof.Machine
end

