-- ==== Sys2Proof/Machine/Signature.lean ====
section
/-!
DEFINITION. The Signature Encoder (42_signature.md): the start (40 R146), one step (R211, R212), the end (R214), and the meanings
of the two SYM4 rows, one sub-pulse of a payload bit (30 R114).
-/

namespace Sys2Proof.Machine

/-- `start_signature()` (40 R146). -/
def startSignature (s : State) : State :=
  { s with edgeIrqEn := false, lpPending := false, lpCount := 0, sigActive := true, sigRep := 0, sigPos := 0 }

/-- `end_signature()` (42 R214). -/
def endSignature (s : State) : State :=
  { s with sigActive := false, sigRep := 0, sigPos := 0, edgeIrqEn := true, sigCountdown := s.par.sigPeriod }

/-- The position after a pulse: position 0 of the next frame after pulse 213 (42 R211, R212). -/
def advancePos (s : State) : State :=
  if s.sigPos + 1 = 214#8 then { s with sigPos := 0, sigRep := s.sigRep + 1 } else { s with sigPos := s.sigPos + 1 }

/-- One pulse of the frame: every pulse starts with a toggle (42 R211, R213). -/
def emitPulse (d : Duration) (s : State) : State := advancePos (startPulse d (toggleOut s))

/-- Sub-pulse `k` of a payload bit `c` (30 R114, 42 R210). -/
def symbolPulse (c : Bool) (k : BitVec 2) (s : State) : State := emitPulse (subPulse s.par c k) s

/-- The next pulse of the frame, by the encoder's state (42 R203, R211). -/
def framePulse (s : State) : State :=
  match sigPhase s.sigPos.toNat with
  | .header i => emitPulse (s.par.sigHdr.pulse i) s
  | .payload field j k => symbolPulse (payloadBit s field j) k s
  | .footer i => emitPulse (s.par.sigFtr.pulse i) s

/-- `signature_step()` (42 R211). -/
def signatureStep (s : State) : State := if signatureDone s then endSignature s else framePulse s

/-- SYM_1, at sub-pulse `k` (30 R114). -/
def execSym1 (k : BitVec 2) (s : State) : Host.Outcome State Fault Refusal := .next (symbolPulse true k s)

/-- SYM_0, at sub-pulse `k` (30 R114). -/
def execSym0 (k : BitVec 2) (s : State) : Host.Outcome State Fault Refusal := .next (symbolPulse false k s)

end Sys2Proof.Machine
end

