-- ==== Sys2Proof/Machine/Tick.lean ====
section
/-!
DEFINITION. The Tick Scheduler and watchdog reset coordinator (40_tick_scheduler.md), and the power-on reset (70 R374): the meanings
of `TICK`, `MISS` and `POR`.
-/

namespace Sys2Proof.Machine

/-- Step 1 resets the watchdog (40 R142). -/
def tickWatchdog (s : State) : State := { s with wdtMissed := 0 }

/-- Step 2 advances the counters (40 R143). -/
def tickCounters (s : State) : State :=
  { s with
    tickCount := s.tickCount + 1
    sigCountdown := s.sigCountdown - 1
    recvingSince := saturatingTick s.recvingSince }

/-- Step 3's decrement of the output pulse (40 R144). -/
def tickPulse (s : State) : State := { s with outRemaining := if s.outRemaining = 0 then 0 else s.outRemaining - 1 }

/-- Steps 1, 2 and the decrement of step 3, which every path takes. -/
def tickPrologue (s : State) : State := tickPulse (tickCounters (tickWatchdog s))

/-- Steps 3 to 6, in priority order, each of which returns (40 R145 to R148). -/
def tickBody (s : State) : State :=
  if pulseRunning s then lowpassStep s
  else if signatureDue s then startSignature s
  else if s.sigActive then signatureStep s
  else lowpassStep (applyFilter false s)

/-- TICK, the tick handler (40 R141). -/
def execTick (s : State) : Host.Outcome State Fault Refusal := .next (tickBody (tickPrologue s))

/-- One more tick period without its handler (40 R156). -/
def countMiss (s : State) : State := { s with wdtMissed := s.wdtMissed + 1 }

/-- MISS (40 R156, R157). -/
def execMiss (s : State) : Host.Outcome State Fault Refusal :=
  if watchdogExpired (countMiss s) then watchdogExpire (countMiss s) else .next (countMiss s)

/-- POR, power-on reset (70 R374). -/
def execPor (s : State) : Host.Outcome State Fault Refusal := resetEngine s

end Sys2Proof.Machine
end

