-- ==== Sys2Proof/Machine/Dispatch.lean ====
section
/-! DEFINITION. One arm per instruction, each a direct call of its meaning. -/

namespace Sys2Proof.Machine

def exec (i : Instr) (s : State) : Host.Outcome State Fault Refusal :=
  match i with
  | .tick => Sys2Proof.Machine.execTick s
  | .pcint => Sys2Proof.Machine.execPcint s
  | .rx b => Sys2Proof.Machine.execRx b s
  | .ctl b => Sys2Proof.Machine.execCtl b s
  | .miss => Sys2Proof.Machine.execMiss s
  | .por => Sys2Proof.Machine.execPor s
  | .cAdv v => Sys2Proof.Machine.execCAdv v s
  | .cAdvLp v => Sys2Proof.Machine.execCAdvLp v s
  | .cSelTestsig v => Sys2Proof.Machine.execCSelTestsig v s
  | .cSelTestsigLp v => Sys2Proof.Machine.execCSelTestsigLp v s
  | .cSelLegacy v => Sys2Proof.Machine.execCSelLegacy v s
  | .cSelLegacyLp v => Sys2Proof.Machine.execCSelLegacyLp v s
  | .cSelTrain v => Sys2Proof.Machine.execCSelTrain v s
  | .cSelTrainLp v => Sys2Proof.Machine.execCSelTrainLp v s
  | .cSelPass v => Sys2Proof.Machine.execCSelPass v s
  | .cSelPassLp v => Sys2Proof.Machine.execCSelPassLp v s
  | .cBad5 v => Sys2Proof.Machine.execCBad5 v s
  | .cBad6 v => Sys2Proof.Machine.execCBad6 v s
  | .cBad7 v => Sys2Proof.Machine.execCBad7 v s
  | .cBad8To15 v => Sys2Proof.Machine.execCBad8To15 v s
  | .fNop pc => Sys2Proof.Machine.execFNop pc s
  | .fTestsig pc => Sys2Proof.Machine.execFTestsig pc s
  | .fLegacy pc => Sys2Proof.Machine.execFLegacy pc s
  | .fTrain pc => Sys2Proof.Machine.execFTrain pc s
  | .fPass pc => Sys2Proof.Machine.execFPass pc s
  | .sym1 k => Sys2Proof.Machine.execSym1 k s
  | .sym0 k => Sys2Proof.Machine.execSym0 k s

end Sys2Proof.Machine
end

