-- ==== Sys2Proof/Machine/Fetch.lean ====
section
/-!
DEFINITION. Placing an instruction so that the very next step runs it (for the host's State.withFetchWord). The machine's step is one
event (40 R140); a command, a filter and a symbol run inside the handler of an event, so placing one sets the state in which that
handler reaches it, and places that event (log 10).
-/

namespace Sys2Proof.Machine

/-- An event word placed for delivery, before those already placed. -/
def placeEvent (w : Byte) (s : State) : State := { s with trace := w :: s.trace }

/-- A session that has accumulated `v`, its control pin just released after `CTL_FINISH_MIN` ticks: the next `PCINT` finishes
it and applies `v` (44 R293, R296). -/
def placeCommand (v : BitVec 16) (s : State) : State :=
  placeEvent 0x20 { s with
    sigActive := false
    sigRep := 0
    sigPos := 0
    edgeIrqEn := true
    pcPending := true
    ctlLevel := !s.par.ctlActiveLevel
    pinSnapshotCtl := s.par.ctlActiveLevel
    pinSnapshotRx := s.rxLevel
    ctlState := .receiving
    ctlActive := true
    ctlCount := 16
    ctlValue := v
    ctlPressTick := s.tickCount - s.par.ctlFinishMin }

/-- The filter `m` active, no output pulse timed and no signature due: the next `TICK` takes step 6 and runs its periodic entry
(40 R148). -/
def placeFilter (m : FilterMode) (s : State) : State :=
  placeEvent 0x10 (setConfig m s.cfgLowpass { resetFilterState s with
    sigActive := false
    sigRep := 0
    sigPos := 0
    edgeIrqEn := true
    outRemaining := 0
    sigCountdown := 1 })

/-- The first payload slot of the frame whose bit is `c`. -/
def slotWithBit (c : Bool) (s : State) : Option Nat :=
  (List.range 52).find? (fun slot => payloadBit s (fieldOfSlot slot) (slot - fieldOffset (fieldOfSlot slot)) == c)

/-- A signature in progress at the first sub-pulse of a payload bit `c`: the next `TICK` takes step 5 and emits it (40 R147). -/
def placeSymbol (c : Bool) (s : State) : State :=
  match slotWithBit c s with
  | some slot => placeEvent 0x10 { s with
      sigActive := true
      sigRep := 0
      sigPos := BitVec.ofNat 8 (3 + 4 * slot)
      edgeIrqEn := false
      lpPending := false
      lpCount := 0
      outRemaining := 0 }
  | none => s

/-- Any instruction placed. -/
def placeInstr (i : Instr) (s : State) : State :=
  match i with
  | .tick | .pcint | .rx _ | .ctl _ | .miss | .por => placeEvent (encodeEvent i) s
  | .cAdv v | .cAdvLp v | .cSelTestsig v | .cSelTestsigLp v | .cSelLegacy v | .cSelLegacyLp v | .cSelTrain v
  | .cSelTrainLp v | .cSelPass v | .cSelPassLp v | .cBad5 v | .cBad6 v | .cBad7 v | .cBad8To15 v => placeCommand v s
  | .fNop _ => placeFilter .nop s
  | .fTestsig _ => placeFilter .testSignal s
  | .fLegacy _ => placeFilter .legacyDebounce s
  | .fTrain _ => placeFilter .trainBuffer s
  | .fPass _ => placeFilter .passthrough s
  | .sym1 _ => placeSymbol true s
  | .sym0 _ => placeSymbol false s

/-- A word of the opcode table placed; a word that spells nothing is placed as an event word, which the step refuses. -/
def placeTableWord (nbits w : Nat) (s : State) : State :=
  match decodeTableWord nbits w with
  | some i => placeInstr i s
  | none => placeEvent (BitVec.ofNat 8 w) s

end Sys2Proof.Machine
end

