-- ==== Sys2Proof/Machine/Step.lean ====
section
/-!
DEFINITION. One step of the machine: one event (40_tick_scheduler.md R140). The next event word is fetched and decoded; a legal
one runs, an illegal one is refused with its mark (60 R333).
-/

namespace Sys2Proof.Machine

/-- A step of the machine. -/
def step (s : State) : Host.Outcome State Fault Refusal :=
  match decodeEvent (fetchWord s).1 with
  | .ok i => exec i (fetchWord s).2
  | .error _ => .next (markRefused (fetchWord s).2)

/-- The state with an instruction word of the opcode table placed where the next step runs it (log 10). -/
def State.withFetchWord (s : State) (nbits w : Nat) : State := placeTableWord nbits w s

end Sys2Proof.Machine
end

