-- ==== Sys2Proof/Machine/Trace.lean ====
section
/-!
DEFINITION. Event traces, the programs of the engine (30_encoding.md R116 to R118): runs of events, the pseudo-instructions of R117
with their expansions, and the transcriber, which refuses an ill-formed one with the mark of 60 R333. None of it is hardware; it
is the notation claims about runs are written in.
-/

namespace Sys2Proof.Machine

/-- One outcome after another. -/
def andThen (o : Host.Outcome State Fault Refusal) (f : State → Host.Outcome State Fault Refusal) :
    Host.Outcome State Fault Refusal :=
  match o with
  | .next t => f t
  | .fault r => .fault r
  | .refused r => .refused r

/-- A run of events, in the order the environment delivers them (30 R116). -/
def runEvents : List Instr → State → Host.Outcome State Fault Refusal
  | [], s => .next s
  | i :: rest, s => andThen (exec i s) (runEvents rest)

/-- The pseudo-instructions of 30 R117, and a plain event. -/
inductive Pseudo where
  /-- An event as it stands. -/
  | event (i : Instr)
  /-- `TICK*n`. -/
  | ticks (n : Nat)
  /-- `MISS*n`. -/
  | misses (n : Nat)
  /-- `ERX b`: a receiver edge dispatched at once. -/
  | erx (b : Bool)
  /-- `ECTL b`: a control edge dispatched at once. -/
  | ectl (b : Bool)
  /-- `RXPULSE b, n`. -/
  | rxPulse (b : Bool) (n : Nat)
  /-- `CPRESS n`: an active control period of `n` ticks. -/
  | cPress (n : Nat)
  /-- `CGAP n`: an inactive control period of `n` ticks. -/
  | cGap (n : Nat)
deriving DecidableEq, Repr

/-- The expansion of a pseudo-instruction (30 R117), with `A = CTL_ACTIVE_LEVEL` and `I = 1 − A`. -/
def Pseudo.expand (p : Params) : Pseudo → List Instr
  | .event i => [i]
  | .ticks n => List.replicate n .tick
  | .misses n => List.replicate n .miss
  | .erx b => [.rx b, .pcint]
  | .ectl b => [.ctl b, .pcint]
  | .rxPulse b n => [.rx b, .pcint] ++ List.replicate n .tick
  | .cPress n => [.ctl p.ctlActiveLevel, .pcint] ++ List.replicate n .tick ++ [.ctl (!p.ctlActiveLevel), .pcint]
  | .cGap n => List.replicate n .tick

/-- The bytes of a program: one per event of the expanded lines (30 R118). -/
def programBytes (p : Params) (lines : List Pseudo) : List Byte :=
  (lines.flatMap (Pseudo.expand p)).map encodeEvent

/-- `ERX b` is ill-formed where `b = rx_level` or `edge_irq_en = 0` (30 R117). -/
def erxWellFormed (b : Bool) (s : State) : Bool := b != s.rxLevel && s.edgeIrqEn

/-- `ECTL b` is ill-formed under the same condition on the control pin (30 R117). -/
def ectlWellFormed (b : Bool) (s : State) : Bool := b != s.ctlLevel && s.edgeIrqEn

/-- `ERX b`, transcribed and run; ill-formed, it is refused (30 R117, 60 R333). -/
def runErx (b : Bool) (s : State) : Host.Outcome State Fault Refusal :=
  if erxWellFormed b s then runEvents [.rx b, .pcint] s else .next (markRefused s)

/-- `ECTL b`, transcribed and run; ill-formed, it is refused (30 R117, 60 R333). -/
def runEctl (b : Bool) (s : State) : Host.Outcome State Fault Refusal :=
  if ectlWellFormed b s then runEvents [.ctl b, .pcint] s else .next (markRefused s)

/-- A pseudo-instruction, transcribed and run. -/
def runPseudo (x : Pseudo) (s : State) : Host.Outcome State Fault Refusal :=
  match x with
  | .event i => exec i s
  | .ticks n => runEvents (List.replicate n .tick) s
  | .misses n => runEvents (List.replicate n .miss) s
  | .erx b => runErx b s
  | .ectl b => runEctl b s
  | .rxPulse b n => andThen (runErx b s) (runEvents (List.replicate n .tick))
  | .cPress n =>
    andThen (andThen (runEctl s.par.ctlActiveLevel s) (runEvents (List.replicate n .tick)))
      (fun t => runEctl (!t.par.ctlActiveLevel) t)
  | .cGap n => runEvents (List.replicate n .tick) s

/-- A program, line by line. -/
def runProgram : List Pseudo → State → Host.Outcome State Fault Refusal
  | [], s => .next s
  | x :: rest, s => andThen (runPseudo x s) (runProgram rest)

end Sys2Proof.Machine
end

