-- ==== Sys2Proof/Safety.lean ====
section
/-!
DEFINITION. What counts as a safe run, in the terms claims use: the invariants every reachable state satisfies (10_state.md R47, with
the legal ranges of R33 to R43), the marks a claim takes as premises (60 R332), and the faithful traces of 70 R383.
-/

namespace Sys2Proof.Machine

/-- The entries of the ring from index `a` up to index `b`: `(b − a) mod RB_CAP`. -/
def ringDistance (cap a b : Nat) : Nat := (b + cap - a) % cap

/-- The entries released for replay, from `rb_read` up to `rb_train_start`. -/
def releasedEntries (s : State) : Nat := ringDistance s.par.rbCap s.rbRead s.rbTrainStart

/-- The entries of the train under construction, from `rb_train_start` up to `rb_write`. -/
def trainEntries (s : State) : Nat := ringDistance s.par.rbCap s.rbTrainStart s.rbWrite

/-- The invariants of the engine. The names `i1` to `i9` are those of 10 R47; I8 (`cfg_filter ≤ 4`) holds by the type FilterMode.
The other clauses are the legal ranges of the fields and what the numbered ones need to be kept by every step. -/
structure Inv (s : State) : Prop where
  /-- The parameters are a legal set (00 R10). -/
  legal : s.par.Legal
  /-- (I1) `sig_active = 1` implies `edge_irq_en = 0` and `lp_pending = 0`. -/
  i1 : s.sigActive = true → s.edgeIrqEn = false ∧ s.lpPending = false
  /-- Edges are masked only during a signature (42 R218). -/
  maskedOnlyInSignature : s.sigActive = false → s.edgeIrqEn = true
  /-- (I2), first half: `lp_pending = 0` implies `lp_count = 0`. -/
  i2idle : s.lpPending = false → s.lpCount = 0
  /-- (I2), second half: `lp_pending = 1` implies `1 ≤ lp_count ≤ LP_DELAY`. -/
  i2pending : s.lpPending = true → 1#8 ≤ s.lpCount ∧ s.lpCount ≤ s.par.lpDelay
  /-- (I3) `sig_active = 0` implies `sig_rep = 0` and `sig_pos = 0`. -/
  i3 : s.sigActive = false → s.sigRep = 0 ∧ s.sigPos = 0
  /-- The legal values of `sig_rep` and `sig_pos` (10 R39). -/
  sigRange : s.sigRep ≤ s.par.sigRepeats ∧ s.sigPos < 214#8
  /-- The ring indices are in 0..RB_CAP−1 (20 R81). -/
  ringRange : s.rbWrite < s.par.rbCap ∧ s.rbRead < s.par.rbCap ∧ s.rbTrainStart < s.par.rbCap
  /-- (I4) `train_len = (rb_write − rb_train_start) mod RB_CAP`. -/
  i4 : s.trainLen.toNat = trainEntries s
  /-- (I5) the released entries and those of the train under construction, all held together, are at most `RB_CAP − 1`: the
  write index never laps the read index. -/
  i5 : releasedEntries s + trainEntries s ≤ s.par.rbCap - 1
  /-- (I6) `ctl_state = Idle` implies `ctl_count = 0` and `ctl_value = 0`. -/
  i6 : s.ctlState = .idle → s.ctlCount = 0 ∧ s.ctlValue = 0
  /-- An active period is timed only within a session (44 R292, R306). -/
  activeInSession : s.ctlActive = true → s.ctlState = .receiving
  /-- (I7) `ctl_count ≤ 16`. -/
  i7 : s.ctlCount ≤ 16#8
  /-- (I9) `cfg_nvsum = nvsum(cfg_filter)`. -/
  i9 : s.cfgNvsum = nvsum s.par (filterByte s.cfgFilter)
  /-- `sig_version` and `sig_checksum` follow the configuration (10 R34). -/
  sigFields : s.sigVersion = sigVersionOf s.par s.cfgFilter s.cfgLowpass ∧ s.sigChecksum = sigChecksumOf s.par s.sigVersion
  /-- `ts_idx` is in 0..len(TEST_SEQ)−1 (10 R42). -/
  testRange : s.tsIdx.toNat < s.par.testSeq.length
  /-- The two spaces keep their canonical form. -/
  memories : Memory.wf s.nv = true ∧ Memory.wf s.rb = true

/-- Every entry held in the ring is in the valid band (43 R251, R256): the `n`-th held entry, counted from `rb_read`. -/
def QueuedPulsesValid (s : State) : Prop :=
  ∀ n, n < releasedEntries s + trainEntries s →
    validDuration s.par (Memory.read s.rb ((s.rbRead + n) % s.par.rbCap)) = true

/-- A run in which the watchdog never expired and no illegal word was met: the premise of a claim that the engine works
correctly (60 R332, R333). -/
def marksClear (s : State) : Bool := !s.faultWdt && !s.refused

/-- A step recorded an applied command: it appended `CmdApplied` to the outcome log. -/
def appliedCommand (s t : State) : Bool :=
  (t.log.drop s.log.length).any (fun o => o.code == 12)

/-- A faithful trace (70 R383): `NV_WRITE_MISSES` `MISS` events come right after the event that applies a command. `owed` of them
are still due. -/
def faithfulTrace : Nat → List Instr → State → Bool
  | owed, [], _ => owed == 0
  | owed, i :: rest, s =>
    match exec i s with
    | .next t =>
      if owed = 0 then faithfulTrace (if appliedCommand s t then t.par.nvWriteMisses else 0) rest t
      else i == .miss && faithfulTrace (owed - 1) rest t
    | .fault _ => false
    | .refused _ => false

end Sys2Proof.Machine
end

