-- ==== Sys2Proof/Certificates/Slice0/Obligations.lean ====
section
/-!
DEFINITION. The statements for the provers, one per obligation of OBLIGATIONS.json, with the few helpers they are written in. A helper
of Sys2Proof.Claims writes a rule's arithmetic out from the spec's text, apart from the model's own operations.
-/

namespace Sys2Proof.Claims

open Sys2Proof.Machine

/-- An event word that 30 R102 calls illegal: opcode 0x0 or 0x7 to 0xF, a nonzero bit in `[3:1]`, or bit 0 set on `TICK` (1),
`PCINT` (2), `MISS` (5) or `POR` (6). -/
def IllegalWord (w : Byte) : Prop :=
  w.toNat / 16 = 0 ∨ 7 ≤ w.toNat / 16 ∨ w.toNat / 2 % 8 ≠ 0 ∨
    (w.toNat % 2 = 1 ∧ (w.toNat / 16 = 1 ∨ w.toNat / 16 = 2 ∨ w.toNat / 16 = 5 ∨ w.toNat / 16 = 6))

/-- The mode of an index 0..4, in the order of 30 R110. -/
def modeOf : Nat → FilterMode
  | 0 => .nop
  | 1 => .testSignal
  | 2 => .legacyDebounce
  | 3 => .trainBuffer
  | _ => .passthrough

/-- The filter index after `f`, `(index + 1) mod 5` (30 R110, 44 R299). -/
def advanced (f : FilterMode) : FilterMode := modeOf ((f.index.toNat + 1) % 5)

/-- The filter and the low-pass flag an advance or select command asks for (30 R107); none for every other instruction. -/
def commandAsks : Instr → State → Option (FilterMode × Bool)
  | .cAdv _, s => some (advanced s.cfgFilter, s.cfgLowpass)
  | .cAdvLp v, s => some (advanced s.cfgFilter, v.getLsbD 4)
  | .cSelTestsig _, s => some (.testSignal, s.cfgLowpass)
  | .cSelTestsigLp v, _ => some (.testSignal, v.getLsbD 4)
  | .cSelLegacy _, s => some (.legacyDebounce, s.cfgLowpass)
  | .cSelLegacyLp v, _ => some (.legacyDebounce, v.getLsbD 4)
  | .cSelTrain _, s => some (.trainBuffer, s.cfgLowpass)
  | .cSelTrainLp v, _ => some (.trainBuffer, v.getLsbD 4)
  | .cSelPass _, s => some (.passthrough, s.cfgLowpass)
  | .cSelPassLp v, _ => some (.passthrough, v.getLsbD 4)
  | _, _ => none

/-- The protocol version as a number (42 R206). -/
def versionNat (p : Params) (f : FilterMode) (l : Bool) : Nat :=
  p.versionBase.toNat * 100 + 10 * bitNat l + f.index.toNat

/-- The signature checksum as a number, from the version's (42 R207). -/
def checksumNat (p : Params) (version : Nat) : Nat :=
  (version % 16 + p.minPulselen.toNat % 16 + p.maxPulselen.toNat % 16) % 16

/-- The configuration `(f, l)` with the three fields that follow it (10 R33, R34). -/
def withConfig (f : FilterMode) (l : Bool) (s : State) : State :=
  { s with
    cfgFilter := f
    cfgLowpass := l
    cfgNvsum := f.index.setWidth 8 ^^^ s.par.nvSumKey
    sigVersion := BitVec.ofNat 16 (versionNat s.par f l)
    sigChecksum := BitVec.ofNat 4 (checksumNat s.par (versionNat s.par f l)) }

/-- The state after `write_config(nf, nl)` (44 R300 to R304): NV bytes 2, 3 and 1 written, the countdown expedited, the filter
state reset where the filter changes, `CmdApplied` recorded. -/
def written (nf : FilterMode) (nl : Bool) (s : State) : State :=
  { withConfig nf nl s with
    nv := Memory.write (Memory.write (Memory.write s.nv 2 (nf.index.setWidth 8)) 3 (if nl then 1 else 0)) 1
      (nf.index.setWidth 8 ^^^ s.par.nvSumKey)
    sigCountdown := s.par.sigExpedite
    rbWrite := if nf = s.cfgFilter then s.rbWrite else 0
    rbRead := if nf = s.cfgFilter then s.rbRead else 0
    rbTrainStart := if nf = s.cfgFilter then s.rbTrainStart else 0
    trainLen := if nf = s.cfgFilter then s.trainLen else 0
    ldShift := if nf = s.cfgFilter then s.ldShift else 0
    tsIdx := if nf = s.cfgFilter then s.tsIdx else 0
    log := s.log ++ [.cmdApplied nf nl] }

/-- A boot load finds a usable configuration in NV (70 R372). -/
def bootable (s : State) : Bool :=
  decide ((Memory.read s.nv 2).toNat ≤ 4) && Memory.read s.nv 1 == Memory.read s.nv 2 ^^^ s.par.nvSumKey

/-- The state after `boot_load()` (70 R372). -/
def booted (s : State) : State :=
  if bootable s then withConfig (modeOf (Memory.read s.nv 2).toNat) (Memory.read s.nv 3 != 0) s
  else
    { withConfig .nop false s with
      log := s.log ++ [.configCorrupt (Memory.read s.nv 1) (Memory.read s.nv 2) (Memory.read s.nv 3)] }

/-- The state after the writes of `reset()` (70 R370) and before its boot load. -/
def cleared (s : State) : State :=
  { s with
    outLevel := false, outTrace := s.outTrace ++ [(s.tickCount, false)], edgeIrqEn := true
    tickCount := 0, sigCountdown := s.par.sigInitial, outRemaining := 0, recvingSince := 0, wdtMissed := 0
    pinSnapshotRx := s.rxLevel, pinSnapshotCtl := s.ctlLevel, pcPending := false, lpPending := false, lpCount := 0
    sigActive := false, sigRep := 0, sigPos := 0
    rb := [], rbWrite := 0, rbRead := 0, rbTrainStart := 0, trainLen := 0, ldShift := 0, tsIdx := 0
    ctlState := .idle, ctlActive := false, ctlCount := 0, ctlValue := 0, ctlPressTick := 0, ctlReleaseTick := 0 }

/-- Steps 1 and 2 of a tick and the decrement of step 3 (40 R142 to R144), each in the numbers of its rule. -/
def counted (s : State) : State :=
  { s with
    wdtMissed := 0
    tickCount := BitVec.ofNat 32 (s.tickCount.toNat + 1)
    sigCountdown := BitVec.ofInt 32 (s.sigCountdown.toInt - 1)
    recvingSince := BitVec.ofNat 16 (min (s.recvingSince.toNat + 1) 65535)
    outRemaining := BitVec.ofNat 16 (s.outRemaining.toNat - 1) }

/-- The duration of sub-pulse `k` of bit `j` of a field's value (30 R114, 42 R209). -/
def payloadDuration (s : State) (value : Nat) (j k : Nat) : Duration :=
  if k = (if value / 2 ^ j % 2 = 1 then 1 else 3) then s.par.sigLong else s.par.sigShort

/-- The duration of the pulse at position `p` of the frame, by the table of 30 R112. -/
def pulseDuration (s : State) (p : Nat) : Duration :=
  if p = 0 then s.par.sigHdr.p0
  else if p = 1 then s.par.sigHdr.p1
  else if p = 2 then s.par.sigHdr.p2
  else if p ≤ 66 then payloadDuration s s.sigVersion.toNat ((p - 3) / 4) ((p - 3) % 4)
  else if p ≤ 130 then payloadDuration s s.par.minPulselen.toNat ((p - 67) / 4) ((p - 67) % 4)
  else if p ≤ 194 then payloadDuration s s.par.maxPulselen.toNat ((p - 131) / 4) ((p - 131) % 4)
  else if p ≤ 210 then payloadDuration s s.sigChecksum.toNat ((p - 195) / 4) ((p - 195) % 4)
  else if p = 211 then s.par.sigFtr.p0
  else if p = 212 then s.par.sigFtr.p1
  else s.par.sigFtr.p2

/-- The state with `d` ticks of output pulse started by a toggle (42 R211, R213). -/
def toggled (d : Duration) (s : State) : State :=
  { s with outLevel := !s.outLevel, outTrace := s.outTrace ++ [(s.tickCount, !s.outLevel)], outRemaining := d }

/-- The state one frame position further (42 R211, R212). -/
def advancedPosition (s : State) : State :=
  { s with
    sigPos := if s.sigPos = 213 then 0 else s.sigPos + 1
    sigRep := if s.sigPos = 213 then s.sigRep + 1 else s.sigRep }

/-- The length of a frame in ticks, `S` of 42 R215. -/
def frameTicks (s : State) : Nat := ((List.range 214).map fun p => max (pulseDuration s p).toNat 1).sum

/-- The number a receiver reads from `width` payload slots of a frame with the pulse durations `sent`, the first of them `slot`:
each slot's bit is 1 exactly where its sub-pulse 1 is the long one, least significant bit first (42 R217). -/
def readField (sent : Nat → Duration) (long : Duration) (slot width : Nat) : Nat :=
  ((List.range width).map fun j => if sent (3 + 4 * (slot + j) + 1) = long then 2 ^ j else 0).sum

/-- A signature waiting at position `p` of its first frame, its last pulse elapsed (42 R211). -/
def atPosition (p : Nat) (s : State) : State :=
  { s with sigActive := true, sigRep := 0, sigPos := BitVec.ofNat 8 p, outRemaining := 0 }

/-- The state a dispatch starts from: the latch cleared, both snapshots taken (41 R171). -/
def sampled (s : State) : State :=
  { s with pcPending := false, pinSnapshotRx := s.rxLevel, pinSnapshotCtl := s.ctlLevel }

/-- A dispatch of a receiver edge alone is admitted (41 R170, R171). -/
def ReceiverEdge (s : State) : Prop :=
  s.pcPending = true ∧ s.edgeIrqEn = true ∧ s.rxLevel ≠ s.pinSnapshotRx ∧ s.ctlLevel = s.pinSnapshotCtl

/-- A dispatch of a control edge alone is admitted (41 R170, R171). -/
def ControlEdge (s : State) : Prop :=
  s.pcPending = true ∧ s.edgeIrqEn = true ∧ s.rxLevel = s.pinSnapshotRx ∧ s.ctlLevel ≠ s.pinSnapshotCtl

/-- A dispatch of a control release that ends a timed active period is admitted (44 R291, R293). -/
def TimedRelease (s : State) : Prop :=
  ControlEdge s ∧ s.ctlLevel ≠ s.par.ctlActiveLevel ∧ s.ctlActive = true

/-- The ticks from a stamp to now, modulo 2^32 (44 R292, R293). -/
def ticksSince (s : State) (stamp : Word32) : Nat := (s.tickCount.toNat + 2 ^ 32 - stamp.toNat) % 2 ^ 32

/-- The session dropped (44 R306). -/
def sessionDropped (s : State) : State := { s with ctlState := .idle, ctlActive := false, ctlCount := 0, ctlValue := 0 }

/-- The duration is in the valid band (43 R242). -/
def Valid (s : State) (d : Duration) : Prop := s.par.minPulselen.toNat ≤ d.toNat ∧ d.toNat ≤ s.par.maxPulselen.toNat

/-- The train under construction dropped (43 R253). -/
def trainDropped (s : State) : State := { s with rbWrite := s.rbTrainStart, trainLen := 0 }

/-- The duration pushed and counted (20 R82, 43 R252). -/
def trainPushed (d : Duration) (s : State) : State :=
  { s with rb := Memory.write s.rb s.rbWrite d, rbWrite := (s.rbWrite + 1) % s.par.rbCap, trainLen := s.trainLen + 1 }

/-- The Legacy filter's pin-change entry on one edge after another, each with its duration and its tick (43 R247). -/
def legacyEdges : List (Duration × Word32) → State → Host.Outcome State Fault Refusal
  | [], s => .next s
  | e :: rest, s =>
    andThen (exec (.fLegacy true) { s with recvingSince := e.1, tickCount := e.2 }) (legacyEdges rest)

/-- What entry `i` may write of a state, by the "Fields written" of its rule: `s` with those fields of `t` (43 R241, R243 to R260).
The record of output writes follows `out_level`, and only F_TRAIN's pin-change entry records outcomes. -/
def withOwnFields (i : Instr) (s t : State) : State :=
  match i with
  | .fTestsig false =>
    { s with outLevel := t.outLevel, outTrace := t.outTrace, outRemaining := t.outRemaining, tsIdx := t.tsIdx }
  | .fLegacy true => { s with outLevel := t.outLevel, outTrace := t.outTrace, ldShift := t.ldShift }
  | .fTrain true =>
    { s with rb := t.rb, rbWrite := t.rbWrite, rbTrainStart := t.rbTrainStart, trainLen := t.trainLen, log := t.log }
  | .fTrain false =>
    { s with outLevel := t.outLevel, outTrace := t.outTrace, outRemaining := t.outRemaining, rbRead := t.rbRead }
  | .fPass _ => { s with outLevel := t.outLevel, outTrace := t.outTrace }
  | _ => s

/-- No block of `MISS` events not broken by a `TICK` or a `POR` reaches `limit`, when `m` are already counted (40 R158). -/
def missesStayBelow (limit : Nat) : Nat → List Instr → Bool
  | _, [] => true
  | m, .miss :: rest => decide (m + 1 < limit) && missesStayBelow limit (m + 1) rest
  | _, .tick :: rest => missesStayBelow limit 0 rest
  | _, .por :: rest => missesStayBelow limit 0 rest
  | m, _ :: rest => missesStayBelow limit m rest

/-- The state without the model's records (60 R331, R332, R350). -/
def eraseRecords (s : State) : State := { s with log := [], faultWdt := false, refused := false, outTrace := [] }

/-- Two outcomes that differ at most in the records of their next states. -/
def SameButRecords : Host.Outcome State Fault Refusal → Host.Outcome State Fault Refusal → Prop
  | .next t, .next u => eraseRecords t = eraseRecords u
  | .fault a, .fault b => a = b
  | .refused a, .refused b => a = b
  | _, _ => False

end Sys2Proof.Claims

open Sys2Proof Sys2Proof.Machine Sys2Proof.Claims

/-! ## Decoding and encoding -/

/-- 30 R101, R103: an event word decodes to an event exactly by `word AND mask = match`, with `b = word[0]`. -/
def Obligations.EventWordsDecodeByTheMap : Prop :=
  ∀ (w : Byte) (i : Instr), decodeEvent w = .ok i ↔
    (w &&& 0xFF#8 = 0x10#8 ∧ i = .tick) ∨ (w &&& 0xFF#8 = 0x20#8 ∧ i = .pcint) ∨
    (w &&& 0xFE#8 = 0x30#8 ∧ i = .rx (w.getLsbD 0)) ∨ (w &&& 0xFE#8 = 0x40#8 ∧ i = .ctl (w.getLsbD 0)) ∨
    (w &&& 0xFF#8 = 0x50#8 ∧ i = .miss) ∨ (w &&& 0xFF#8 = 0x60#8 ∧ i = .por)

/-- 30 R102: exactly the illegal words decode to no event, and a step that meets one only sets the refusal mark. That the placed
word is consumed is the model's choice (log 12). -/
def Obligations.IllegalEventWordsAreRefused : Prop :=
  (∀ w : Byte, IllegalWord w ↔ ∃ e, decodeEvent w = .error e) ∧
    ∀ (s : State) (w : Byte) (rest : List Byte), s.trace = w :: rest → IllegalWord w →
      step s = .next { s with trace := rest, refused := true }

/-- 30 R107 (its closing sentence, which the spec derives from R106): every 16-bit word spells exactly one command. -/
def Obligations.EveryCommandWordSpellsOneCommand : Prop :=
  ∀ v : BitVec 16,
    ((decodeCommand v).slot = .command ∧ (decodeCommand v).wellFormed = true ∧ encode (decodeCommand v) = v) ∧
      ∀ i : Instr, i.slot = .command → i.wellFormed = true → encode i = v → i = decodeCommand v

/-- Decoding an encoded well-formed instruction gives it back, for all 27 rows of the opcode table and every operand (30 R101,
R107, R110, R114). The place supplies a filter's entry and a symbol's sub-pulse, which no word holds (log 5). -/
def Obligations.DecodingInvertsEncoding : Prop :=
  ∀ i : Instr, i.wellFormed = true → decodeAt i.slot (encode i) = .ok i

/-- What a word decodes to is well formed, belongs to the place it was read from, and has that word as its encoding: no word
falls through to a neighbouring row. -/
def Obligations.DecodingIsUnambiguous : Prop :=
  ∀ (place : Slot) (w : BitVec 16) (i : Instr), decodeAt place w = .ok i →
    i.wellFormed = true ∧ i.slot = place ∧ encode i = w

/-- 95 section 2.1 and the tables of 30 R107, R110, R114: words written out from the spec's encodings, one per family and more. -/
def Obligations.SampleWordsDecode : Prop :=
  decodeEvent 0b00010000#8 = .ok .tick ∧ decodeEvent 0b00110001#8 = .ok (.rx true) ∧
    decodeEvent 0b01000000#8 = .ok (.ctl false) ∧ decodeEvent 0b01100000#8 = .ok .por ∧
    decodeEvent 0b00010001#8 = .error .dataBitOnDataless ∧ decodeEvent 0b00110010#8 = .error .reservedBits ∧
    decodeEvent 0b01110000#8 = .error .unknownOpcode ∧
    decodeCommand 0b0000000000110011#16 = .cSelTrainLp 0x33 ∧ decodeCommand 0b0000000100000100#16 = .cSelPass 0x104 ∧
    decodeCommand 0b0000000000000101#16 = .cBad5 5 ∧ decodeCommand 0b1111111111111111#16 = .cBad8To15 0xFFFF ∧
    decodeFilter true 0b00000011#8 = .ok (.fTrain true) ∧ decodeFilter false 0b00000101#8 = .error .unknownFilterIndex ∧
    decodeSymbol 1 0b0010#4 = .ok (.sym1 1) ∧ decodeSymbol 3 0b1000#4 = .ok (.sym0 3) ∧
    decodeSymbol 0 0b0100#4 = .error .unknownSymbol

/-- 30 R104 and 44 R294: from an empty accumulator, at most 16 bit pulses of active times `ds` leave the command word
`Σ c_k · 2^(n−k)` with `c_k = 1` exactly where the active time reaches `CTL_BIT_BOUNDARY`, and count them. -/
def Obligations.CommandBitsArriveMostSignificantFirst : Prop :=
  ∀ (s : State) (ds : List Word32), ds.length ≤ 16 → s.ctlCount = 0 → s.ctlValue = 0 →
    (ds.foldl (fun t d => bitPulse d t) s).ctlCount.toNat = ds.length ∧
    (ds.foldl (fun t d => bitPulse d t) s).ctlValue.toNat =
      ((List.range ds.length).map fun k =>
        if s.par.ctlBitBoundary.toNat ≤ (ds.getD k 0).toNat then 2 ^ (ds.length - 1 - k) else 0).sum

/-! ## The step -/

/-- 40 R140: one step is one event. A placed word runs as the event it spells; where no word is placed the environment's free
choice (log 4) is one of the legal words and runs as the event it spells. -/
def Obligations.StepRunsTheDecodedEvent : Prop :=
  (∀ (s : State) (w : Byte) (rest : List Byte) (i : Instr), s.trace = w :: rest → decodeEvent w = .ok i →
      step s = exec i { s with trace := rest }) ∧
    ∀ s : State, s.trace = [] →
      ∃ i, decodeEvent (choiceWord (Config.envChoice s.envIndex)) = .ok i ∧
        step s = exec i { s with envIndex := s.envIndex + 1 }

/-- Every one of the 27 instructions and every step answers a next state, under the parameters it started with, wherever
`NV_SIZE ≥ 4` (00 R10). For an event the spec delivers this is 60 R350 and 40 R149: nothing halts the engine. Two cases in it are the
model's choice, since the spec gives no step there: a `PCINT` that is not admitted answers the same state (log 9), and a step on an
illegal word answers a state with the mark (log 12). -/
def Obligations.EveryInstructionCompletes : Prop :=
  ∀ s : State, 4 ≤ s.par.nvSize →
    (∀ i : Instr, ∃ t, exec i s = .next t ∧ t.par = s.par) ∧ ∃ t, step s = .next t ∧ t.par = s.par

/-! ## TICK -/

/-- 40 R145 with R142 to R144, and the advance of the delay unit, 41 R182: while the output pulse has not elapsed. -/
def Obligations.TickWhilePulseRuns : Prop :=
  ∀ s : State, 2 ≤ s.outRemaining.toNat →
    (s.lpPending = false → exec .tick s = .next (counted s)) ∧
    (s.lpPending = true → s.lpCount ≠ 1 → exec .tick s = .next { counted s with lpCount := s.lpCount - 1 }) ∧
    (s.lpPending = true → s.lpCount = 1 →
      ∃ u, exec (s.cfgFilter.instr true) { counted s with lpPending := false, lpCount := 0 } = .next u ∧
        exec .tick s = .next { u with recvingSince := 0 })

/-- 40 R146: a due signature starts on the first tick whose output pulse has elapsed. -/
def Obligations.TickStartsDueSignature : Prop :=
  ∀ s : State, s.outRemaining.toNat ≤ 1 → s.sigActive = false → (counted s).sigCountdown.toInt < 0 →
    exec .tick s = .next { counted s with
      edgeIrqEn := false, lpPending := false, lpCount := 0, sigActive := true, sigRep := 0, sigPos := 0 }

/-- 42 R211 and R212 with the pulse durations of 30 R112 and R114: one pulse of the frame. -/
def Obligations.TickEmitsSignaturePulse : Prop :=
  ∀ s : State, s.outRemaining.toNat ≤ 1 → s.sigActive = true → s.sigRep ≠ s.par.sigRepeats →
    exec .tick s = .next (advancedPosition (toggled (pulseDuration s s.sigPos.toNat) (counted s)))

/-- 42 R214: the end of the signature, on the tick where its last pulse has elapsed. -/
def Obligations.TickEndsSignature : Prop :=
  ∀ s : State, s.outRemaining.toNat ≤ 1 → s.sigActive = true → s.sigRep = s.par.sigRepeats →
    exec .tick s = .next { counted s with
      sigActive := false, sigRep := 0, sigPos := 0, edgeIrqEn := true, sigCountdown := s.par.sigPeriod }

/-- 40 R148: the periodic entry of the active filter (43 R240), then one advance of the delay unit (41 R182), in that order. -/
def Obligations.TickRunsFilterThenDelayUnit : Prop :=
  ∀ s : State, s.outRemaining.toNat ≤ 1 → s.sigActive = false → 0 ≤ (counted s).sigCountdown.toInt →
    ∃ u, exec (s.cfgFilter.instr false) (counted s) = .next u ∧
      (s.lpPending = false → exec .tick s = .next u) ∧
      (s.lpPending = true → s.lpCount ≠ 1 → exec .tick s = .next { u with lpCount := s.lpCount - 1 }) ∧
      (s.lpPending = true → s.lpCount = 1 →
        ∃ w, exec (s.cfgFilter.instr true) { u with lpPending := false, lpCount := 0 } = .next w ∧
          exec .tick s = .next { w with recvingSince := 0 })

/-- 40 R142 and R143 on every path of a tick: the watchdog reset and the tick counter advanced; the countdown advanced, but for the
end of a signature, which writes it (42 R214); the duration counter advanced, but for a delivered edge, which clears it. -/
def Obligations.EveryTickFeedsTheWatchdog : Prop :=
  ∀ s : State, ∃ t, exec .tick s = .next t ∧ t.wdtMissed = 0 ∧
    t.tickCount = BitVec.ofNat 32 (s.tickCount.toNat + 1) ∧
    (t.sigCountdown = BitVec.ofInt 32 (s.sigCountdown.toInt - 1) ∨
      (s.sigActive = true ∧ t.sigActive = false ∧ t.sigCountdown = s.par.sigPeriod)) ∧
    (t.recvingSince = BitVec.ofNat 16 (min (s.recvingSince.toNat + 1) 65535) ∨
      (s.lpPending = true ∧ t.lpPending = false ∧ t.recvingSince = 0))

/-- The frame of `TICK`: what no path of it writes (40 R141, "Fields written"; 43 R241). -/
def Obligations.TickFrame : Prop :=
  ∀ s t : State, exec .tick s = .next t →
    t.par = s.par ∧ t.rxLevel = s.rxLevel ∧ t.ctlLevel = s.ctlLevel ∧
    t.cfgFilter = s.cfgFilter ∧ t.cfgLowpass = s.cfgLowpass ∧ t.cfgNvsum = s.cfgNvsum ∧
    t.sigVersion = s.sigVersion ∧ t.sigChecksum = s.sigChecksum ∧
    t.pinSnapshotRx = s.pinSnapshotRx ∧ t.pinSnapshotCtl = s.pinSnapshotCtl ∧ t.pcPending = s.pcPending ∧
    t.ctlState = s.ctlState ∧ t.ctlActive = s.ctlActive ∧ t.ctlCount = s.ctlCount ∧ t.ctlValue = s.ctlValue ∧
    t.ctlPressTick = s.ctlPressTick ∧ t.ctlReleaseTick = s.ctlReleaseTick ∧
    (∀ a, Memory.read t.nv a = Memory.read s.nv a) ∧
    t.faultWdt = s.faultWdt ∧ t.refused = s.refused ∧ t.trace = s.trace ∧ t.envIndex = s.envIndex

/-- 40 R144 and R154 (the latter derived there from R144 and R145): a pulse loaded with `d ≥ 1` ends on the `d`-th tick. With no
deferral pending, no tick before that one writes the output. -/
def Obligations.OutputPulseLastsItsDuration : Prop :=
  ∀ (s : State) (n : Nat), n < s.outRemaining.toNat → s.lpPending = false →
    ∃ t, runEvents (List.replicate n .tick) s = .next t ∧ t.outRemaining.toNat = s.outRemaining.toNat - n ∧
      t.outLevel = s.outLevel ∧ t.outTrace = s.outTrace ∧
      t.tickCount = s.tickCount + BitVec.ofNat 32 n ∧ t.sigActive = s.sigActive

/-! ## MISS and POR -/

/-- 40 R156 and R157: a `MISS` counts, and nothing else advances; at the timeout it records `WatchdogReset`, sets the sticky mark,
and performs the reset that `POR` performs. -/
def Obligations.MissCountsUntilTheWatchdogResets : Prop :=
  ∀ s : State,
    (s.wdtMissed + 1 < s.par.wdtTimeout → exec .miss s = .next { s with wdtMissed := s.wdtMissed + 1 }) ∧
    (s.par.wdtTimeout ≤ s.wdtMissed + 1 →
      exec .miss s = exec .por { s with
        wdtMissed := s.wdtMissed + 1, log := s.log ++ [.watchdogReset], faultWdt := true })

/-- 40 R158 (derived there from R142, R149 and R157): with fewer than `WDT_TIMEOUT_TICKS` `MISS` events in a row the watchdog never
expires. "Consecutive" is read as: with no `TICK` and no `POR` between, since no other event clears the count (log 13). -/
def Obligations.WatchdogNeverExpiresEarly : Prop :=
  ∀ (es : List Instr) (s : State), 4 ≤ s.par.nvSize → (∀ i ∈ es, i.slot = .event) →
    missesStayBelow s.par.wdtTimeout.toNat s.wdtMissed.toNat es = true →
    ∃ t, runEvents es s = .next t ∧ t.faultWdt = s.faultWdt

/-- 70 R370, R372 and R374: `POR` leaves every field at its reset value, the configuration at what the boot load finds in NV, and
keeps NV, the pin levels, the marks and the outcome log. The clause on `outTrace` is the model's choice (log 7): the reset's own write
of `out_level` joins the record, at the tick before the reset, and the record is kept. -/
def Obligations.PowerOnResets : Prop :=
  ∀ s : State, 4 ≤ s.par.nvSize → exec .por s = .next (booted (cleared s))

/-- 10 R49 under P0: the reset state's fields that the spec gives, and that this state is what a launch leaves. The launch values
(NV all zero, `rx_level` 0, `ctl_level` 1) are the model's choice (log 2), and so is the reset's own entry in the record of output
writes (log 7). -/
def Obligations.ResetStateHasTheResetValues : Prop :=
  launch Params.p0 [] false true = .next State.reset ∧
    State.reset.outLevel = false ∧ State.reset.edgeIrqEn = true ∧ State.reset.tickCount = 0 ∧
    State.reset.sigCountdown = 0 ∧ State.reset.outRemaining = 0 ∧ State.reset.recvingSince = 0 ∧
    State.reset.wdtMissed = 0 ∧ State.reset.pinSnapshotRx = State.reset.rxLevel ∧
    State.reset.pinSnapshotCtl = State.reset.ctlLevel ∧ State.reset.pcPending = false ∧
    State.reset.lpPending = false ∧ State.reset.lpCount = 0 ∧ State.reset.sigActive = false ∧
    State.reset.sigRep = 0 ∧ State.reset.sigPos = 0 ∧ (∀ j, Memory.read State.reset.rb j = 0) ∧
    State.reset.rbWrite = 0 ∧ State.reset.rbRead = 0 ∧ State.reset.rbTrainStart = 0 ∧ State.reset.trainLen = 0 ∧
    State.reset.ldShift = 0 ∧ State.reset.tsIdx = 0 ∧ State.reset.ctlState = .idle ∧
    State.reset.ctlActive = false ∧ State.reset.ctlCount = 0 ∧ State.reset.ctlValue = 0 ∧
    State.reset.ctlPressTick = 0 ∧ State.reset.ctlReleaseTick = 0

/-! ## Pins and the dispatcher -/

/-- 41 R176: `RX b` and `CTL b` write a pin level and the latch, and only where the level changes. -/
def Obligations.LevelEventsDriveThePins : Prop :=
  ∀ (s : State) (b : Bool),
    exec (.rx b) s = .next { s with rxLevel := b, pcPending := s.pcPending || (b != s.rxLevel) } ∧
    exec (.ctl b) s = .next { s with ctlLevel := b, pcPending := s.pcPending || (b != s.ctlLevel) }

/-- 41 R170, 40 R140, and 41 R178 (derived there from R171): a `PCINT` that is not admitted changes nothing, and an admitted one
without a net change only clears the latch. That an unadmitted event is a next state equal to the state, rather than no step, is the
model's choice (log 9). -/
def Obligations.PcintWithoutAnEdgeDoesNothingElse : Prop :=
  ∀ s : State,
    (s.pcPending = false ∨ s.edgeIrqEn = false → exec .pcint s = .next s) ∧
    (s.pcPending = true → s.edgeIrqEn = true → s.rxLevel = s.pinSnapshotRx → s.ctlLevel = s.pinSnapshotCtl →
      exec .pcint s = .next { s with pcPending := false })

/-- 41 R173, R174, R180 and R181: a receiver edge alone. Without low-pass the active filter's pin-change entry runs, seeing the
duration, which is then cleared; with it the edge arms the delay unit or cancels the pending one. -/
def Obligations.PcintDispatchesReceiverEdge : Prop :=
  ∀ s : State, ReceiverEdge s →
    (s.cfgLowpass = false →
      ∃ u, exec (s.cfgFilter.instr true) (sampled s) = .next u ∧ exec .pcint s = .next { u with recvingSince := 0 }) ∧
    (s.cfgLowpass = true → s.lpPending = false →
      exec .pcint s = .next { sampled s with lpPending := true, lpCount := s.par.lpDelay }) ∧
    (s.cfgLowpass = true → s.lpPending = true →
      exec .pcint s = .next { sampled s with
        lpPending := false, lpCount := 0, log := s.log ++ [.spikeCancelled s.tickCount] })

/-- 44 R292: a control press alone starts or continues a session, and drops one that has idled longer than `CTL_IDLE_TIMEOUT`. -/
def Obligations.PcintDispatchesControlPress : Prop :=
  ∀ s : State, ControlEdge s → s.ctlLevel = s.par.ctlActiveLevel →
    (s.ctlState = .receiving → s.par.ctlIdleTimeout.toNat < ticksSince s s.ctlReleaseTick →
      exec .pcint s = .next { sampled s with
        ctlState := .receiving, ctlActive := true, ctlCount := 0, ctlValue := 0, ctlPressTick := s.tickCount
        log := s.log ++ [.cmdIdleTimeout] }) ∧
    (s.ctlState = .idle ∨ ticksSince s s.ctlReleaseTick ≤ s.par.ctlIdleTimeout.toNat →
      exec .pcint s = .next { sampled s with ctlState := .receiving, ctlActive := true, ctlPressTick := s.tickCount })

/-- 44 R294: a release after fewer than `CTL_BIT_MAX` active ticks shifts one bit in, and a 17th bit cancels the session. -/
def Obligations.ShortReleaseShiftsOneBit : Prop :=
  ∀ s : State, TimedRelease s → ticksSince s s.ctlPressTick < s.par.ctlBitMax.toNat →
    (s.ctlCount ≠ 16 →
      exec .pcint s = .next { sampled s with
        ctlActive := false
        ctlValue := BitVec.ofNat 16
          (2 * s.ctlValue.toNat + if s.par.ctlBitBoundary.toNat ≤ ticksSince s s.ctlPressTick then 1 else 0)
        ctlCount := s.ctlCount + 1
        ctlReleaseTick := s.tickCount }) ∧
    (s.ctlCount = 16 →
      exec .pcint s = .next { sessionDropped (sampled s) with log := s.log ++ [.cmdTooLong] })

/-- 44 R296: a release inside the finish window, both bounds inclusive, drops the session and runs the command its value spells. -/
def Obligations.FinishReleaseRunsTheCommand : Prop :=
  ∀ s : State, TimedRelease s → s.par.ctlBitMax.toNat ≤ ticksSince s s.ctlPressTick →
    s.par.ctlFinishMin.toNat ≤ ticksSince s s.ctlPressTick → ticksSince s s.ctlPressTick ≤ s.par.ctlFinishMax.toNat →
    exec .pcint s = exec (decodeCommand s.ctlValue) (sessionDropped (sampled s))

/-- 44 R298: a release in the gap or beyond the finish window drops the session and records its duration. -/
def Obligations.BadDurationCancelsTheSession : Prop :=
  ∀ s : State, TimedRelease s → s.par.ctlBitMax.toNat ≤ ticksSince s s.ctlPressTick →
    (ticksSince s s.ctlPressTick < s.par.ctlFinishMin.toNat ∨ s.par.ctlFinishMax.toNat < ticksSince s s.ctlPressTick) →
    exec .pcint s = .next { sessionDropped (sampled s) with
      log := s.log ++ [.cmdBadDuration (BitVec.ofNat 32 (ticksSince s s.ctlPressTick))] }

/-- 44 R293 and R297: a release with no active period being timed is ignored. -/
def Obligations.UntimedReleaseIsIgnored : Prop :=
  ∀ s : State, ControlEdge s → s.ctlLevel ≠ s.par.ctlActiveLevel → s.ctlActive = false →
    exec .pcint s = .next (sampled s)

/-- 41 R172: where both pins changed, one dispatch does what the receiver edge's dispatch and then the control edge's would. -/
def Obligations.ReceiverEdgeBeforeControlEdge : Prop :=
  ∀ s : State, s.pcPending = true → s.edgeIrqEn = true → s.rxLevel ≠ s.pinSnapshotRx → s.ctlLevel ≠ s.pinSnapshotCtl →
    ∃ u, exec .pcint { s with ctlLevel := s.pinSnapshotCtl } = .next u ∧
      exec .pcint s = exec .pcint { u with ctlLevel := s.ctlLevel, pcPending := true }

/-- The frame of an admitted `PCINT` (41 R171, "Fields written"): what no path of it writes, and every NV byte but those of the
configuration write (20 R84). -/
def Obligations.PcintFrame : Prop :=
  ∀ s t : State, pcintAdmitted s = true → Memory.wf s.nv = true → exec .pcint s = .next t →
    t.pcPending = false ∧ t.pinSnapshotRx = s.rxLevel ∧ t.pinSnapshotCtl = s.ctlLevel ∧
    t.par = s.par ∧ t.rxLevel = s.rxLevel ∧ t.ctlLevel = s.ctlLevel ∧ t.edgeIrqEn = s.edgeIrqEn ∧
    t.tickCount = s.tickCount ∧ t.outRemaining = s.outRemaining ∧ t.wdtMissed = s.wdtMissed ∧
    t.sigActive = s.sigActive ∧ t.sigRep = s.sigRep ∧ t.sigPos = s.sigPos ∧
    t.faultWdt = s.faultWdt ∧ t.refused = s.refused ∧ t.trace = s.trace ∧ t.envIndex = s.envIndex ∧
    ∀ a, a ≠ 1 → a ≠ 2 → a ≠ 3 → Memory.read t.nv a = Memory.read s.nv a

/-- 41 R185 (derived there from R174, R181 and R182): the debounce property, exactly. A second edge before the `LP_DELAY`-th
advance leaves the state as if neither edge had happened, but for the record; otherwise the first edge reaches the filter on the
`LP_DELAY`-th advance, and no later advance delivers it again. -/
def Obligations.DebounceWindowIsExact : Prop :=
  ∀ s : State, s.cfgLowpass = true → s.lpPending = false → s.lpCount = 0 → 1 ≤ s.par.lpDelay.toNat →
    (∀ n, n < s.par.lpDelay.toNat →
      rxEdge (lowpassStep^[n] (rxEdge s)) = { s with log := s.log ++ [.spikeCancelled s.tickCount] }) ∧
    ∀ n, s.par.lpDelay.toNat ≤ n →
      lowpassStep^[n] (rxEdge s) = { applyFilter true s with recvingSince := 0 }

/-! ## Commands -/

/-- 30 R107, 44 R300 and R304: the ten advance and select commands, on every word. A command equal to the current configuration only
records `CmdNoChange`; any other writes the configuration. -/
def Obligations.SelectCommandsApply : Prop :=
  ∀ (i : Instr) (s : State) (nf : FilterMode) (nl : Bool), commandAsks i s = some (nf, nl) → 4 ≤ s.par.nvSize →
    exec i s = .next
      (if nf = s.cfgFilter ∧ nl = s.cfgLowpass then { s with log := s.log ++ [.cmdNoChange (encode i)] }
       else written nf nl s)

/-- 30 R108: a command with target 5..15 writes no field, no NV byte and no countdown; it records `CmdBadTarget`. -/
def Obligations.BadTargetsChangeNothing : Prop :=
  ∀ (v : BitVec 16) (s : State),
    exec (.cBad5 v) s = .next { s with log := s.log ++ [.cmdBadTarget v] } ∧
    exec (.cBad6 v) s = .next { s with log := s.log ++ [.cmdBadTarget v] } ∧
    exec (.cBad7 v) s = .next { s with log := s.log ++ [.cmdBadTarget v] } ∧
    exec (.cBad8To15 v) s = .next { s with log := s.log ++ [.cmdBadTarget v] }

/-- 44 R299: a finished command word, by its fields `T = v[3:0]`, `LPV = v[4]`, `LPP = v[5]`, with `v[15:6]` ignored. -/
def Obligations.CommandWordActsByItsFields : Prop :=
  ∀ (v : BitVec 16) (s : State), 4 ≤ s.par.nvSize →
    let target := v.toNat % 16
    let nf := modeOf (if target = 0 then (s.cfgFilter.index.toNat + 1) % 5 else target)
    let nl := if v.toNat / 32 % 2 = 1 then decide (v.toNat / 16 % 2 = 1) else s.cfgLowpass
    exec (decodeCommand v) s = .next
      (if 5 ≤ target then { s with log := s.log ++ [.cmdBadTarget v] }
       else if nf = s.cfgFilter ∧ nl = s.cfgLowpass then { s with log := s.log ++ [.cmdNoChange v] }
       else written nf nl s)

/-- 20 R84 and 44 R301: after any of the 14 commands, every NV byte is as before but for bytes 1, 2 and 3 of an applied one, which
hold the checksum, the filter index and the low-pass flag of the new configuration; and a boot load accepts them (70 R372). -/
def Obligations.CommandsWriteOnlyTheConfigurationBytes : Prop :=
  ∀ (i : Instr) (s t : State), i.slot = .command → Memory.wf s.nv = true → 4 ≤ s.par.nvSize → exec i s = .next t →
    Memory.wf t.nv = true ∧
    (∀ a, a ≠ 1 → a ≠ 2 → a ≠ 3 → Memory.read t.nv a = Memory.read s.nv a) ∧
    (t.nv = s.nv ∧ t.cfgFilter = s.cfgFilter ∧ t.cfgLowpass = s.cfgLowpass ∨
      Memory.read t.nv 1 = nvsum s.par (t.cfgFilter.index.setWidth 8) ∧
      Memory.read t.nv 2 = t.cfgFilter.index.setWidth 8 ∧ Memory.read t.nv 3 = (if t.cfgLowpass then 1 else 0) ∧
      bootable t = true)

/-- 44 R305 (derived there from R299): an absolute command is idempotent. Applied again it records `CmdNoChange` and writes
nothing, from every configuration, with the low-pass field used or not. -/
def Obligations.AbsoluteCommandsAreIdempotent : Prop :=
  ∀ (v : BitVec 16) (s t : State), 1 ≤ v.toNat % 16 → v.toNat % 16 ≤ 4 → exec (decodeCommand v) s = .next t →
    t.cfgFilter = modeOf (v.toNat % 16) ∧
    t.cfgLowpass = (if v.getLsbD 5 then v.getLsbD 4 else s.cfgLowpass) ∧
    exec (decodeCommand v) t = .next { t with log := t.log ++ [.cmdNoChange v] }

/-- 42 R206 and R207, and 10 R33: what a configuration write leaves in the derived fields, as numbers. Under a legal `VERSION_BASE` no
sum wraps in the version's 16 bits, and the version gives the filter index and the low-pass flag back. -/
def Obligations.DerivedFieldsFollowTheConfiguration : Prop :=
  ∀ (s : State) (f : FilterMode) (l : Bool), s.par.versionBase.toNat ≤ 655 →
    (setConfig f l s).cfgNvsum = f.index.setWidth 8 ^^^ s.par.nvSumKey ∧
    (setConfig f l s).sigVersion.toNat = s.par.versionBase.toNat * 100 + 10 * bitNat l + f.index.toNat ∧
    (setConfig f l s).sigChecksum.toNat =
      ((setConfig f l s).sigVersion.toNat % 16 + s.par.minPulselen.toNat % 16 + s.par.maxPulselen.toNat % 16) % 16 ∧
    (setConfig f l s).sigVersion.toNat % 10 = f.index.toNat ∧
    (setConfig f l s).sigVersion.toNat / 10 % 10 = bitNat l

/-! ## Filters -/

/-- 43 R240: the active filter's row is the one `cfg_filter` indexes, and the handlers' `apply_filter` is exactly that row. -/
def Obligations.ActiveFilterIsTheIndexedRow : Prop :=
  ∀ (s : State) (pc : Bool),
    decodeFilter pc (s.cfgFilter.index.setWidth 8) = .ok (s.cfgFilter.instr pc) ∧ s.cfgFilter.index.toNat ≤ 4 ∧
    (s.cfgFilter.index = 0 → exec (.fNop pc) s = .next (applyFilter pc s)) ∧
    (s.cfgFilter.index = 1 → exec (.fTestsig pc) s = .next (applyFilter pc s)) ∧
    (s.cfgFilter.index = 2 → exec (.fLegacy pc) s = .next (applyFilter pc s)) ∧
    (s.cfgFilter.index = 3 → exec (.fTrain pc) s = .next (applyFilter pc s)) ∧
    (s.cfgFilter.index = 4 → exec (.fPass pc) s = .next (applyFilter pc s))

/-- 43 R243: the No-Op filter writes nothing, at both entries. -/
def Obligations.NopFilterWritesNothing : Prop :=
  ∀ (s : State) (pc : Bool), exec (.fNop pc) s = .next s

/-- 43 R244 and R245: the test-signal generator emits the next entry of `TEST_SEQ`; its pin-change entry does nothing. -/
def Obligations.TestSignalEmitsTheNextEntry : Prop :=
  ∀ s : State, exec (.fTestsig true) s = .next s ∧
    ∀ d, s.par.testSeq[s.tsIdx.toNat]? = some d →
      exec (.fTestsig false) s = .next { toggled d s with
        tsIdx := BitVec.ofNat 8 ((s.tsIdx.toNat + 1) % s.par.testSeq.length) }

/-- 43 R247 and R248: the Legacy filter shifts the validity of the ended pulse in and toggles on 0xFF; its periodic entry does
nothing. -/
def Obligations.LegacyFilterShiftsValidity : Prop :=
  ∀ s : State, exec (.fLegacy false) s = .next s ∧
    (Valid s s.recvingSince →
      exec (.fLegacy true) s = .next
        (if (2 * s.ldShift.toNat + 1) % 256 = 255
         then { s with ldShift := 255, outLevel := !s.outLevel, outTrace := s.outTrace ++ [(s.tickCount, !s.outLevel)] }
         else { s with ldShift := BitVec.ofNat 8 (2 * s.ldShift.toNat + 1) })) ∧
    (¬ Valid s s.recvingSince →
      exec (.fLegacy true) s = .next { s with ldShift := BitVec.ofNat 8 (2 * s.ldShift.toNat) })

/-- 43 R247, corner cases. An invalid edge does not toggle and leaves the register even, as a reset does (0). From an even register,
on any list of valid edges, each with its own duration and tick, the first 7 do not toggle, and the 8th and every later one does. -/
def Obligations.LegacyForwardsFromTheEighthValidEdge : Prop :=
  (∀ (s : State) (d : Duration) (n : Word32), ¬ Valid s d →
    ∃ t, legacyEdges [(d, n)] s = .next t ∧ t.ldShift.toNat % 2 = 0 ∧ t.outLevel = s.outLevel ∧ t.outTrace = s.outTrace) ∧
  ∀ (s : State) (es : List (Duration × Word32)), (∀ e ∈ es, Valid s e.1) → s.ldShift.toNat % 2 = 0 →
    legacyEdges es s = .next { s with
      recvingSince := (es.getLast?.map Prod.fst).getD s.recvingSince
      tickCount := (es.getLast?.map Prod.snd).getD s.tickCount
      ldShift := BitVec.ofNat 8 (s.ldShift.toNat * 2 ^ es.length + 2 ^ es.length - 1)
      outLevel := s.outLevel ^^ decide ((es.length - 7) % 2 = 1)
      outTrace := s.outTrace ++ (es.drop 7).mapIdx (fun k e => (e.2, s.outLevel ^^ decide (k % 2 = 0))) }

/-- 43 R250 with R251 to R255 and R258: the Train-Buffer filter's pin-change entry, its five cases. -/
def Obligations.TrainFilterBuffersEdges : Prop :=
  ∀ s : State,
    let d := s.recvingSince
    (¬ Valid s d → exec (.fTrain true) s = .next { trainDropped s with log := s.log ++ [.pulseOutOfRange d] }) ∧
    (Valid s d → (s.rbWrite + 1) % s.par.rbCap = s.rbRead →
      exec (.fTrain true) s = .next { trainDropped s with log := s.log ++ [.ringFull d] }) ∧
    (Valid s d → (s.rbWrite + 1) % s.par.rbCap ≠ s.rbRead → d.toNat ≤ s.par.footerThresh.toNat →
      exec (.fTrain true) s = .next (trainPushed d s)) ∧
    (Valid s d → (s.rbWrite + 1) % s.par.rbCap ≠ s.rbRead → s.par.footerThresh.toNat < d.toNat →
      s.par.minTrainLen ≤ s.trainLen + 1 →
      exec (.fTrain true) s = .next { trainPushed d s with
        rbTrainStart := (s.rbWrite + 1) % s.par.rbCap, trainLen := 0 }) ∧
    (Valid s d → (s.rbWrite + 1) % s.par.rbCap ≠ s.rbRead → s.par.footerThresh.toNat < d.toNat →
      s.trainLen + 1 < s.par.minTrainLen →
      exec (.fTrain true) s = .next { trainDropped (trainPushed d s) with
        log := s.log ++ [.trainTooShort (s.trainLen + 1)] })

/-- 20 R82, entry by entry: the pin-change entry of the Train-Buffer filter writes at most the entry at `rb_write`, and it writes
the duration there exactly where the duration is valid and the ring is not full. -/
def Obligations.TrainFilterWritesOneRingEntry : Prop :=
  ∀ s : State, Memory.wf s.rb = true →
    ∃ t, exec (.fTrain true) s = .next t ∧ Memory.wf t.rb = true ∧
      (∀ j, j ≠ s.rbWrite → Memory.read t.rb j = Memory.read s.rb j) ∧
      (Valid s s.recvingSince ∧ (s.rbWrite + 1) % s.par.rbCap ≠ s.rbRead → Memory.read t.rb s.rbWrite = s.recvingSince) ∧
      (¬ (Valid s s.recvingSince ∧ (s.rbWrite + 1) % s.par.rbCap ≠ s.rbRead) → t.rb = s.rb)

/-- 43 R256 and R257: the Train-Buffer filter's periodic entry replays one released entry, or idles low for `IDLE_TICKS`. -/
def Obligations.TrainFilterReplaysOrIdles : Prop :=
  ∀ s : State,
    (s.rbRead ≠ s.rbTrainStart →
      exec (.fTrain false) s = .next { toggled (Memory.read s.rb s.rbRead) s with
        rbRead := (s.rbRead + 1) % s.par.rbCap }) ∧
    (s.rbRead = s.rbTrainStart →
      exec (.fTrain false) s = .next { s with
        outLevel := false, outTrace := s.outTrace ++ [(s.tickCount, false)], outRemaining := s.par.idleTicks })

/-- 43 R260: the Passthrough filter writes the receiver level, at both entries. -/
def Obligations.PassthroughMirrorsTheReceiver : Prop :=
  ∀ (s : State) (pc : Bool),
    exec (.fPass pc) s = .next { s with outLevel := s.rxLevel, outTrace := s.outTrace ++ [(s.tickCount, s.rxLevel)] }

/-- 43 R241, filter by filter: an entry writes only the output, the pulse timer and its OWN private fields, each of them only where
its rule's "Fields written" names it, and only F_TRAIN's pin-change entry records outcomes. -/
def Obligations.FiltersWriteOnlyTheirFields : Prop :=
  ∀ (i : Instr) (pc : Bool) (s : State), i.slot = .filter pc → ∃ t, exec i s = .next t ∧ t = withOwnFields i s t

/-! ## The signature -/

/-- 30 R114 inside the encoder's step, 42 R211: sub-pulse `k` of a symbol toggles the output and lasts `SIG_LONG` exactly where
`M[k] = 1`, that is at `k = 1` for a bit 1 and at `k = 3` for a bit 0. -/
def Obligations.SymbolsPlaceOneLongSubPulse : Prop :=
  ∀ (s : State) (k : BitVec 2),
    exec (.sym1 k) s = .next (advancedPosition (toggled (if k = 1 then s.par.sigLong else s.par.sigShort) s)) ∧
    exec (.sym0 k) s = .next (advancedPosition (toggled (if k = 3 then s.par.sigLong else s.par.sigShort) s)) ∧
    ((encode (.sym1 k)).getLsbD k.toNat = true ↔ k = 1) ∧ ((encode (.sym0 k)).getLsbD k.toNat = true ↔ k = 3)

/-- 42 R213: every pulse starts with a toggle, so the levels written alternate; a frame's 214 toggles return the output to the level
it had, with the position back at 0 and one more frame counted. -/
def Obligations.FrameKeepsThePolarity : Prop :=
  ∀ s : State, s.sigPos = 0 →
    (∀ n, (framePulse^[n] s).outTrace =
      s.outTrace ++ (List.range n).map (fun k => (s.tickCount, s.outLevel ^^ decide (k % 2 = 0)))) ∧
    (framePulse^[214] s).outLevel = s.outLevel ∧ (framePulse^[214] s).sigPos = 0 ∧
    (framePulse^[214] s).sigRep = s.sigRep + 1

/-- 42 R217 (derived there): the frame the machine sends reads back. `sent p` is the duration that `TICK` starts at position `p`; in
every payload slot exactly one sub-pulse is long, the second or the fourth, and reading those positions gives the four payload fields,
and from them the filter index, the low-pass flag and the checksum relation. -/
def Obligations.FrameReadsBackAsTheConfiguration : Prop :=
  ∀ s : State, s.par.sigLong ≠ s.par.sigShort → s.par.versionBase.toNat ≤ 655 → s.par.sigRepeats ≠ 0 →
    s.sigVersion.toNat = versionNat s.par s.cfgFilter s.cfgLowpass →
    s.sigChecksum.toNat = checksumNat s.par s.sigVersion.toNat →
    ∃ sent : Nat → Duration,
      (∀ p, p < 214 → ∃ t, exec .tick (atPosition p s) = .next t ∧ t.outLevel = (!s.outLevel) ∧ t.outRemaining = sent p) ∧
      (∀ slot, slot < 52 →
        sent (3 + 4 * slot) = s.par.sigShort ∧ sent (3 + 4 * slot + 2) = s.par.sigShort ∧
        (sent (3 + 4 * slot + 1) = s.par.sigLong ∧ sent (3 + 4 * slot + 3) = s.par.sigShort ∨
          sent (3 + 4 * slot + 1) = s.par.sigShort ∧ sent (3 + 4 * slot + 3) = s.par.sigLong)) ∧
      readField sent s.par.sigLong 0 16 = s.sigVersion.toNat ∧
      readField sent s.par.sigLong 16 16 = s.par.minPulselen.toNat ∧
      readField sent s.par.sigLong 32 16 = s.par.maxPulselen.toNat ∧
      readField sent s.par.sigLong 48 4 = s.sigChecksum.toNat ∧
      readField sent s.par.sigLong 0 16 % 10 = s.cfgFilter.index.toNat ∧
      readField sent s.par.sigLong 0 16 / 10 % 10 = bitNat s.cfgLowpass ∧
      readField sent s.par.sigLong 48 4 =
        (readField sent s.par.sigLong 0 16 % 16 + readField sent s.par.sigLong 16 16 % 16 +
          readField sent s.par.sigLong 32 16 % 16) % 16

/-- 42 R215 (derived there from R211, R214 and 40 R144): from the tick that started it, a signature is active for
`SIG_REPEATS · S` ticks and ends on the next one, having toggled the output `214 · SIG_REPEATS` times. -/
def Obligations.SignatureLastsItsLength : Prop :=
  ∀ s : State, s.sigActive = true → s.sigRep = 0 → s.sigPos = 0 → s.outRemaining = 0 → s.lpPending = false →
    (∀ n, n ≤ s.par.sigRepeats.toNat * frameTicks s →
      ∃ t, runEvents (List.replicate n .tick) s = .next t ∧ t.sigActive = true ∧ t.edgeIrqEn = s.edgeIrqEn) ∧
    ∃ t, runEvents (List.replicate (1 + s.par.sigRepeats.toNat * frameTicks s) .tick) s = .next t ∧
      t.sigActive = false ∧ t.edgeIrqEn = true ∧ t.sigCountdown = s.par.sigPeriod ∧ t.outLevel = s.outLevel ∧
      t.outTrace.length = s.outTrace.length + 214 * s.par.sigRepeats.toNat

/-! ## Invariants and whole-machine rules -/

/-- The invariants hold right after reset, and so does the ring's. -/
def Obligations.ResetStateSatisfiesTheInvariants : Prop :=
  Inv State.reset ∧ QueuedPulsesValid State.reset

/-- Every launch (60 R350) satisfies the invariants: every legal parameter set, NV contents and pin levels. -/
def Obligations.LaunchSatisfiesTheInvariants : Prop :=
  ∀ (p : Params) (nv : List Host.Cell) (rx ctl : Bool), p.Legal → Memory.wf nv = true →
    ∃ t, launch p nv rx ctl = .next t ∧ Inv t ∧ QueuedPulsesValid t ∧ t.nv = nv

/-- 10 R47 (I1 to I9, derived there), 42 R218 and the legal ranges of the fields: every step keeps them. -/
def Obligations.EveryStepKeepsTheInvariants : Prop :=
  ∀ s t : State, Inv s → step s = .next t → Inv t

/-- 43 R251, R256 and 10 R48 (derived there): every entry held in the ring is in the valid band, and every step keeps it so. So no
reset value of an entry is ever replayed, and a replayed pulse is at least `MIN_PULSELEN`. -/
def Obligations.EveryStepKeepsQueuedPulsesValid : Prop :=
  ∀ s t : State, Inv s → QueuedPulsesValid s → step s = .next t → QueuedPulsesValid t

/-- 42 R216 (derived there): while a signature is active, no event but a reset changes the configuration or NV. -/
def Obligations.ConfigurationIsFixedDuringSignature : Prop :=
  ∀ (i : Instr) (s t : State), Inv s → s.sigActive = true → i.slot = .event → i ≠ .por →
    (i = .miss → s.wdtMissed + 1 < s.par.wdtTimeout) → exec i s = .next t →
    t.cfgFilter = s.cfgFilter ∧ t.cfgLowpass = s.cfgLowpass ∧ t.sigVersion = s.sigVersion ∧
    t.sigChecksum = s.sigChecksum ∧ t.nv = s.nv

/-- 42 R218 (derived there from R214 and 40 R146), and the reset: the only events that write the edge-interrupt enable. -/
def Obligations.OnlySignaturesMaskEdges : Prop :=
  ∀ (i : Instr) (s t : State), i.slot = .event → exec i s = .next t →
    (s.edgeIrqEn = true → t.edgeIrqEn = false → i = .tick ∧ s.sigActive = false ∧ t.sigActive = true) ∧
    (s.edgeIrqEn = false → t.edgeIrqEn = true →
      (i = .tick ∧ s.sigActive = true ∧ t.sigActive = false ∧ s.sigRep = s.par.sigRepeats) ∨ i = .por ∨
        (i = .miss ∧ s.par.wdtTimeout ≤ s.wdtMissed + 1))

/-- 60 R331 and R332: no rule reads the outcome log, the marks or the record of the output's writes. Two states that differ only in
them take steps that differ only in them. -/
def Obligations.NoStepReadsTheRecords : Prop :=
  ∀ s u : State, eraseRecords s = eraseRecords u → SameButRecords (step s) (step u)

/-- 60 R332 and R330: no step clears a sticky mark, and none removes a recorded outcome. The last clause is the model's choice
(log 7): no step, a reset included, removes an entry of the record of output writes. -/
def Obligations.MarksAreSticky : Prop :=
  ∀ s t : State, step s = .next t →
    (s.faultWdt = true → t.faultWdt = true) ∧ (s.refused = true → t.refused = true) ∧
    (∃ o, t.log = s.log ++ o) ∧ ∃ w, t.outTrace = s.outTrace ++ w
end

