-- ==== Sys2Proof/Laws/Decode.lean ====
section
/-!
SUPPORT. What the decoders answer, said once: a command word decodes to a well-formed command that holds it; an event word decodes to
an event; a filter index to a filter.
-/

namespace Sys2Proof

/-- A mask below 64 reads only the six low bits of a command word. -/
theorem and_low_bits (v : BitVec 16) (m : BitVec 16) (hm : m &&& 0x3F#16 = m) :
    v &&& m = (v.setWidth 6).setWidth 16 &&& m := by
  have h : (v.setWidth 6).setWidth 16 = v &&& 0x3F#16 := by
    apply BitVec.eq_of_toNat_eq
    simp only [BitVec.toNat_setWidth, BitVec.toNat_and, BitVec.toNat_ofNat]
    rw [show (63 % 2 ^ 16 : Nat) = 2 ^ 6 - 1 from rfl, Nat.and_two_pow_sub_one_eq_mod]
    omega
  rw [h, BitVec.and_assoc, BitVec.and_comm 0x3F#16 m, hm]

/-- The masks and matches of the command rows (30 R107). -/
def commandRows : List (BitVec 16 × BitVec 16) :=
  [(0x002F, 0x0000), (0x002F, 0x0020), (0x002F, 0x0001), (0x002F, 0x0021), (0x002F, 0x0002), (0x002F, 0x0022),
   (0x002F, 0x0003), (0x002F, 0x0023), (0x002F, 0x0004), (0x002F, 0x0024), (0x000F, 0x0005), (0x000F, 0x0006),
   (0x000F, 0x0007), (0x0008, 0x0008)]

/-- Every word matches some row: its six low bits decide. -/
theorem commandRows_cover (v : BitVec 16) : (commandRows.any fun r => rowMatches r.1 r.2 v) = true := by
  have low : ∀ n < 64, (commandRows.any fun r => rowMatches r.1 r.2 (BitVec.ofNat 16 n)) = true := by decide
  have mask : (commandRows.all fun r => r.1 &&& 0x3F#16 == r.1) = true := by decide
  have h := low (v.setWidth 6).toNat (v.setWidth 6).isLt
  simp only [List.any_eq_true, List.all_eq_true] at h mask ⊢
  obtain ⟨r, hr, hm⟩ := h
  refine ⟨r, hr, ?_⟩
  have hw : BitVec.ofNat 16 (v.setWidth 6).toNat = (v.setWidth 6).setWidth 16 := by
    apply BitVec.eq_of_toNat_eq
    simp
  simp only [rowMatches, beq_iff_eq, hw] at hm mask ⊢
  rw [and_low_bits v r.1 (mask r hr), hm]

/-- What a decoded command is: well formed, a command, and holding the word. -/
def IsCommandOf (v : BitVec 16) (i : Instr) : Prop := i.wellFormed = true ∧ i.slot = .command ∧ encode i = v

/-- Both branches of a row's test. -/
theorem isCommandOf_ite (v : BitVec 16) (b : Bool) (i j : Instr) (hi : b = true → IsCommandOf v i)
    (hj : b = false → IsCommandOf v j) : IsCommandOf v (if b then i else j) := by
  cases b
  · exact hj rfl
  · exact hi rfl

/-- Every command word decodes to a well-formed command that holds the word (30 R107). -/
theorem decodeCommand_spec (v : BitVec 16) :
    (decodeCommand v).wellFormed = true ∧ (decodeCommand v).slot = .command ∧ encode (decodeCommand v) = v := by
  have cover := commandRows_cover v
  change IsCommandOf v (decodeCommand v)
  unfold decodeCommand
  iterate 13 refine isCommandOf_ite v _ _ _ (fun h => ⟨h, rfl, rfl⟩) (fun h => ?_)
  refine ⟨?_, rfl, rfl⟩
  simp only [commandRows, List.any_cons, List.any_nil, Bool.false_or, Bool.or_false, *] at cover
  exact cover

/-- A command word decodes to a command (30 R107). -/
theorem decodeCommand_slot (v : BitVec 16) : (decodeCommand v).slot = .command := (decodeCommand_spec v).2.1

/-- What an event word decodes to is an event. -/
theorem decodeEvent_slot (w : Byte) (i : Instr) (h : decodeEvent w = .ok i) : i.slot = .event := by
  simp only [decodeEvent] at h
  repeat' split at h
  all_goals (cases h; try rfl)

/-- A mode's own index selects it. -/
theorem filterOfIndex_index (m : FilterMode) : filterOfIndex (m.index.setWidth 8) = some m := by cases m <;> rfl

/-- A filter index selects the mode of that number, and no mode above 4 (30 R110, R111). -/
theorem filterOfIndex_some (f : Byte) (m : FilterMode) (h : filterOfIndex f = some m) :
    f = m.index.setWidth 8 ∧ f ≤ 4#8 := by
  simp only [filterOfIndex] at h
  repeat' split at h
  all_goals (cases h; try (subst_vars; decide))

/-- An index above 4 selects no mode (30 R111). -/
theorem filterOfIndex_none (f : Byte) : filterOfIndex f = none ↔ 4#8 < f := by
  revert f; decide

end Sys2Proof
end

