-- ==== Sys2Proof/Laws/State.lean ====
section
/-!
SUPPORT. One lemma per field per update of the state, each true by rfl: what an update writes to a field, or that it keeps it. No
later proof unfolds a record update.
-/

namespace Sys2Proof.Machine

/-! ## raiseOutcome: a recorded outcome -/

@[simp] theorem raiseOutcome_par (o : EngineOutcome) (s : State) : (raiseOutcome o s).par = s.par := rfl
@[simp] theorem raiseOutcome_rxLevel (o : EngineOutcome) (s : State) : (raiseOutcome o s).rxLevel = s.rxLevel := rfl
@[simp] theorem raiseOutcome_ctlLevel (o : EngineOutcome) (s : State) : (raiseOutcome o s).ctlLevel = s.ctlLevel := rfl
@[simp] theorem raiseOutcome_outLevel (o : EngineOutcome) (s : State) : (raiseOutcome o s).outLevel = s.outLevel := rfl
@[simp] theorem raiseOutcome_cfgFilter (o : EngineOutcome) (s : State) : (raiseOutcome o s).cfgFilter = s.cfgFilter := rfl
@[simp] theorem raiseOutcome_cfgLowpass (o : EngineOutcome) (s : State) : (raiseOutcome o s).cfgLowpass = s.cfgLowpass := rfl
@[simp] theorem raiseOutcome_cfgNvsum (o : EngineOutcome) (s : State) : (raiseOutcome o s).cfgNvsum = s.cfgNvsum := rfl
@[simp] theorem raiseOutcome_sigVersion (o : EngineOutcome) (s : State) : (raiseOutcome o s).sigVersion = s.sigVersion := rfl
@[simp] theorem raiseOutcome_sigChecksum (o : EngineOutcome) (s : State) : (raiseOutcome o s).sigChecksum = s.sigChecksum := rfl
@[simp] theorem raiseOutcome_edgeIrqEn (o : EngineOutcome) (s : State) : (raiseOutcome o s).edgeIrqEn = s.edgeIrqEn := rfl
@[simp] theorem raiseOutcome_tickCount (o : EngineOutcome) (s : State) : (raiseOutcome o s).tickCount = s.tickCount := rfl
@[simp] theorem raiseOutcome_sigCountdown (o : EngineOutcome) (s : State) : (raiseOutcome o s).sigCountdown = s.sigCountdown := rfl
@[simp] theorem raiseOutcome_outRemaining (o : EngineOutcome) (s : State) : (raiseOutcome o s).outRemaining = s.outRemaining := rfl
@[simp] theorem raiseOutcome_recvingSince (o : EngineOutcome) (s : State) : (raiseOutcome o s).recvingSince = s.recvingSince := rfl
@[simp] theorem raiseOutcome_wdtMissed (o : EngineOutcome) (s : State) : (raiseOutcome o s).wdtMissed = s.wdtMissed := rfl
@[simp] theorem raiseOutcome_pinSnapshotRx (o : EngineOutcome) (s : State) : (raiseOutcome o s).pinSnapshotRx = s.pinSnapshotRx := rfl
@[simp] theorem raiseOutcome_pinSnapshotCtl (o : EngineOutcome) (s : State) : (raiseOutcome o s).pinSnapshotCtl = s.pinSnapshotCtl := rfl
@[simp] theorem raiseOutcome_pcPending (o : EngineOutcome) (s : State) : (raiseOutcome o s).pcPending = s.pcPending := rfl
@[simp] theorem raiseOutcome_lpPending (o : EngineOutcome) (s : State) : (raiseOutcome o s).lpPending = s.lpPending := rfl
@[simp] theorem raiseOutcome_lpCount (o : EngineOutcome) (s : State) : (raiseOutcome o s).lpCount = s.lpCount := rfl
@[simp] theorem raiseOutcome_sigActive (o : EngineOutcome) (s : State) : (raiseOutcome o s).sigActive = s.sigActive := rfl
@[simp] theorem raiseOutcome_sigRep (o : EngineOutcome) (s : State) : (raiseOutcome o s).sigRep = s.sigRep := rfl
@[simp] theorem raiseOutcome_sigPos (o : EngineOutcome) (s : State) : (raiseOutcome o s).sigPos = s.sigPos := rfl
@[simp] theorem raiseOutcome_rb (o : EngineOutcome) (s : State) : (raiseOutcome o s).rb = s.rb := rfl
@[simp] theorem raiseOutcome_rbWrite (o : EngineOutcome) (s : State) : (raiseOutcome o s).rbWrite = s.rbWrite := rfl
@[simp] theorem raiseOutcome_rbRead (o : EngineOutcome) (s : State) : (raiseOutcome o s).rbRead = s.rbRead := rfl
@[simp] theorem raiseOutcome_rbTrainStart (o : EngineOutcome) (s : State) : (raiseOutcome o s).rbTrainStart = s.rbTrainStart := rfl
@[simp] theorem raiseOutcome_trainLen (o : EngineOutcome) (s : State) : (raiseOutcome o s).trainLen = s.trainLen := rfl
@[simp] theorem raiseOutcome_ldShift (o : EngineOutcome) (s : State) : (raiseOutcome o s).ldShift = s.ldShift := rfl
@[simp] theorem raiseOutcome_tsIdx (o : EngineOutcome) (s : State) : (raiseOutcome o s).tsIdx = s.tsIdx := rfl
@[simp] theorem raiseOutcome_ctlState (o : EngineOutcome) (s : State) : (raiseOutcome o s).ctlState = s.ctlState := rfl
@[simp] theorem raiseOutcome_ctlActive (o : EngineOutcome) (s : State) : (raiseOutcome o s).ctlActive = s.ctlActive := rfl
@[simp] theorem raiseOutcome_ctlCount (o : EngineOutcome) (s : State) : (raiseOutcome o s).ctlCount = s.ctlCount := rfl
@[simp] theorem raiseOutcome_ctlValue (o : EngineOutcome) (s : State) : (raiseOutcome o s).ctlValue = s.ctlValue := rfl
@[simp] theorem raiseOutcome_ctlPressTick (o : EngineOutcome) (s : State) : (raiseOutcome o s).ctlPressTick = s.ctlPressTick := rfl
@[simp] theorem raiseOutcome_ctlReleaseTick (o : EngineOutcome) (s : State) : (raiseOutcome o s).ctlReleaseTick = s.ctlReleaseTick := rfl
@[simp] theorem raiseOutcome_nv (o : EngineOutcome) (s : State) : (raiseOutcome o s).nv = s.nv := rfl
@[simp] theorem raiseOutcome_log (o : EngineOutcome) (s : State) : (raiseOutcome o s).log = s.log ++ [o] := rfl
@[simp] theorem raiseOutcome_faultWdt (o : EngineOutcome) (s : State) : (raiseOutcome o s).faultWdt = s.faultWdt := rfl
@[simp] theorem raiseOutcome_refused (o : EngineOutcome) (s : State) : (raiseOutcome o s).refused = s.refused := rfl
@[simp] theorem raiseOutcome_outTrace (o : EngineOutcome) (s : State) : (raiseOutcome o s).outTrace = s.outTrace := rfl
@[simp] theorem raiseOutcome_trace (o : EngineOutcome) (s : State) : (raiseOutcome o s).trace = s.trace := rfl
@[simp] theorem raiseOutcome_envIndex (o : EngineOutcome) (s : State) : (raiseOutcome o s).envIndex = s.envIndex := rfl

/-! ## markRefused: the refusal mark -/

@[simp] theorem markRefused_par (s : State) : (markRefused s).par = s.par := rfl
@[simp] theorem markRefused_rxLevel (s : State) : (markRefused s).rxLevel = s.rxLevel := rfl
@[simp] theorem markRefused_ctlLevel (s : State) : (markRefused s).ctlLevel = s.ctlLevel := rfl
@[simp] theorem markRefused_outLevel (s : State) : (markRefused s).outLevel = s.outLevel := rfl
@[simp] theorem markRefused_cfgFilter (s : State) : (markRefused s).cfgFilter = s.cfgFilter := rfl
@[simp] theorem markRefused_cfgLowpass (s : State) : (markRefused s).cfgLowpass = s.cfgLowpass := rfl
@[simp] theorem markRefused_cfgNvsum (s : State) : (markRefused s).cfgNvsum = s.cfgNvsum := rfl
@[simp] theorem markRefused_sigVersion (s : State) : (markRefused s).sigVersion = s.sigVersion := rfl
@[simp] theorem markRefused_sigChecksum (s : State) : (markRefused s).sigChecksum = s.sigChecksum := rfl
@[simp] theorem markRefused_edgeIrqEn (s : State) : (markRefused s).edgeIrqEn = s.edgeIrqEn := rfl
@[simp] theorem markRefused_tickCount (s : State) : (markRefused s).tickCount = s.tickCount := rfl
@[simp] theorem markRefused_sigCountdown (s : State) : (markRefused s).sigCountdown = s.sigCountdown := rfl
@[simp] theorem markRefused_outRemaining (s : State) : (markRefused s).outRemaining = s.outRemaining := rfl
@[simp] theorem markRefused_recvingSince (s : State) : (markRefused s).recvingSince = s.recvingSince := rfl
@[simp] theorem markRefused_wdtMissed (s : State) : (markRefused s).wdtMissed = s.wdtMissed := rfl
@[simp] theorem markRefused_pinSnapshotRx (s : State) : (markRefused s).pinSnapshotRx = s.pinSnapshotRx := rfl
@[simp] theorem markRefused_pinSnapshotCtl (s : State) : (markRefused s).pinSnapshotCtl = s.pinSnapshotCtl := rfl
@[simp] theorem markRefused_pcPending (s : State) : (markRefused s).pcPending = s.pcPending := rfl
@[simp] theorem markRefused_lpPending (s : State) : (markRefused s).lpPending = s.lpPending := rfl
@[simp] theorem markRefused_lpCount (s : State) : (markRefused s).lpCount = s.lpCount := rfl
@[simp] theorem markRefused_sigActive (s : State) : (markRefused s).sigActive = s.sigActive := rfl
@[simp] theorem markRefused_sigRep (s : State) : (markRefused s).sigRep = s.sigRep := rfl
@[simp] theorem markRefused_sigPos (s : State) : (markRefused s).sigPos = s.sigPos := rfl
@[simp] theorem markRefused_rb (s : State) : (markRefused s).rb = s.rb := rfl
@[simp] theorem markRefused_rbWrite (s : State) : (markRefused s).rbWrite = s.rbWrite := rfl
@[simp] theorem markRefused_rbRead (s : State) : (markRefused s).rbRead = s.rbRead := rfl
@[simp] theorem markRefused_rbTrainStart (s : State) : (markRefused s).rbTrainStart = s.rbTrainStart := rfl
@[simp] theorem markRefused_trainLen (s : State) : (markRefused s).trainLen = s.trainLen := rfl
@[simp] theorem markRefused_ldShift (s : State) : (markRefused s).ldShift = s.ldShift := rfl
@[simp] theorem markRefused_tsIdx (s : State) : (markRefused s).tsIdx = s.tsIdx := rfl
@[simp] theorem markRefused_ctlState (s : State) : (markRefused s).ctlState = s.ctlState := rfl
@[simp] theorem markRefused_ctlActive (s : State) : (markRefused s).ctlActive = s.ctlActive := rfl
@[simp] theorem markRefused_ctlCount (s : State) : (markRefused s).ctlCount = s.ctlCount := rfl
@[simp] theorem markRefused_ctlValue (s : State) : (markRefused s).ctlValue = s.ctlValue := rfl
@[simp] theorem markRefused_ctlPressTick (s : State) : (markRefused s).ctlPressTick = s.ctlPressTick := rfl
@[simp] theorem markRefused_ctlReleaseTick (s : State) : (markRefused s).ctlReleaseTick = s.ctlReleaseTick := rfl
@[simp] theorem markRefused_nv (s : State) : (markRefused s).nv = s.nv := rfl
@[simp] theorem markRefused_log (s : State) : (markRefused s).log = s.log := rfl
@[simp] theorem markRefused_faultWdt (s : State) : (markRefused s).faultWdt = s.faultWdt := rfl
@[simp] theorem markRefused_refused (s : State) : (markRefused s).refused = true := rfl
@[simp] theorem markRefused_outTrace (s : State) : (markRefused s).outTrace = s.outTrace := rfl
@[simp] theorem markRefused_trace (s : State) : (markRefused s).trace = s.trace := rfl
@[simp] theorem markRefused_envIndex (s : State) : (markRefused s).envIndex = s.envIndex := rfl

/-! ## markWatchdog: the watchdog's mark -/

@[simp] theorem markWatchdog_par (s : State) : (markWatchdog s).par = s.par := rfl
@[simp] theorem markWatchdog_rxLevel (s : State) : (markWatchdog s).rxLevel = s.rxLevel := rfl
@[simp] theorem markWatchdog_ctlLevel (s : State) : (markWatchdog s).ctlLevel = s.ctlLevel := rfl
@[simp] theorem markWatchdog_outLevel (s : State) : (markWatchdog s).outLevel = s.outLevel := rfl
@[simp] theorem markWatchdog_cfgFilter (s : State) : (markWatchdog s).cfgFilter = s.cfgFilter := rfl
@[simp] theorem markWatchdog_cfgLowpass (s : State) : (markWatchdog s).cfgLowpass = s.cfgLowpass := rfl
@[simp] theorem markWatchdog_cfgNvsum (s : State) : (markWatchdog s).cfgNvsum = s.cfgNvsum := rfl
@[simp] theorem markWatchdog_sigVersion (s : State) : (markWatchdog s).sigVersion = s.sigVersion := rfl
@[simp] theorem markWatchdog_sigChecksum (s : State) : (markWatchdog s).sigChecksum = s.sigChecksum := rfl
@[simp] theorem markWatchdog_edgeIrqEn (s : State) : (markWatchdog s).edgeIrqEn = s.edgeIrqEn := rfl
@[simp] theorem markWatchdog_tickCount (s : State) : (markWatchdog s).tickCount = s.tickCount := rfl
@[simp] theorem markWatchdog_sigCountdown (s : State) : (markWatchdog s).sigCountdown = s.sigCountdown := rfl
@[simp] theorem markWatchdog_outRemaining (s : State) : (markWatchdog s).outRemaining = s.outRemaining := rfl
@[simp] theorem markWatchdog_recvingSince (s : State) : (markWatchdog s).recvingSince = s.recvingSince := rfl
@[simp] theorem markWatchdog_wdtMissed (s : State) : (markWatchdog s).wdtMissed = s.wdtMissed := rfl
@[simp] theorem markWatchdog_pinSnapshotRx (s : State) : (markWatchdog s).pinSnapshotRx = s.pinSnapshotRx := rfl
@[simp] theorem markWatchdog_pinSnapshotCtl (s : State) : (markWatchdog s).pinSnapshotCtl = s.pinSnapshotCtl := rfl
@[simp] theorem markWatchdog_pcPending (s : State) : (markWatchdog s).pcPending = s.pcPending := rfl
@[simp] theorem markWatchdog_lpPending (s : State) : (markWatchdog s).lpPending = s.lpPending := rfl
@[simp] theorem markWatchdog_lpCount (s : State) : (markWatchdog s).lpCount = s.lpCount := rfl
@[simp] theorem markWatchdog_sigActive (s : State) : (markWatchdog s).sigActive = s.sigActive := rfl
@[simp] theorem markWatchdog_sigRep (s : State) : (markWatchdog s).sigRep = s.sigRep := rfl
@[simp] theorem markWatchdog_sigPos (s : State) : (markWatchdog s).sigPos = s.sigPos := rfl
@[simp] theorem markWatchdog_rb (s : State) : (markWatchdog s).rb = s.rb := rfl
@[simp] theorem markWatchdog_rbWrite (s : State) : (markWatchdog s).rbWrite = s.rbWrite := rfl
@[simp] theorem markWatchdog_rbRead (s : State) : (markWatchdog s).rbRead = s.rbRead := rfl
@[simp] theorem markWatchdog_rbTrainStart (s : State) : (markWatchdog s).rbTrainStart = s.rbTrainStart := rfl
@[simp] theorem markWatchdog_trainLen (s : State) : (markWatchdog s).trainLen = s.trainLen := rfl
@[simp] theorem markWatchdog_ldShift (s : State) : (markWatchdog s).ldShift = s.ldShift := rfl
@[simp] theorem markWatchdog_tsIdx (s : State) : (markWatchdog s).tsIdx = s.tsIdx := rfl
@[simp] theorem markWatchdog_ctlState (s : State) : (markWatchdog s).ctlState = s.ctlState := rfl
@[simp] theorem markWatchdog_ctlActive (s : State) : (markWatchdog s).ctlActive = s.ctlActive := rfl
@[simp] theorem markWatchdog_ctlCount (s : State) : (markWatchdog s).ctlCount = s.ctlCount := rfl
@[simp] theorem markWatchdog_ctlValue (s : State) : (markWatchdog s).ctlValue = s.ctlValue := rfl
@[simp] theorem markWatchdog_ctlPressTick (s : State) : (markWatchdog s).ctlPressTick = s.ctlPressTick := rfl
@[simp] theorem markWatchdog_ctlReleaseTick (s : State) : (markWatchdog s).ctlReleaseTick = s.ctlReleaseTick := rfl
@[simp] theorem markWatchdog_nv (s : State) : (markWatchdog s).nv = s.nv := rfl
@[simp] theorem markWatchdog_log (s : State) : (markWatchdog s).log = s.log := rfl
@[simp] theorem markWatchdog_faultWdt (s : State) : (markWatchdog s).faultWdt = true := rfl
@[simp] theorem markWatchdog_refused (s : State) : (markWatchdog s).refused = s.refused := rfl
@[simp] theorem markWatchdog_outTrace (s : State) : (markWatchdog s).outTrace = s.outTrace := rfl
@[simp] theorem markWatchdog_trace (s : State) : (markWatchdog s).trace = s.trace := rfl
@[simp] theorem markWatchdog_envIndex (s : State) : (markWatchdog s).envIndex = s.envIndex := rfl

/-! ## setOut: a write of the output pin -/

@[simp] theorem setOut_par (b : Bool) (s : State) : (setOut b s).par = s.par := rfl
@[simp] theorem setOut_rxLevel (b : Bool) (s : State) : (setOut b s).rxLevel = s.rxLevel := rfl
@[simp] theorem setOut_ctlLevel (b : Bool) (s : State) : (setOut b s).ctlLevel = s.ctlLevel := rfl
@[simp] theorem setOut_outLevel (b : Bool) (s : State) : (setOut b s).outLevel = b := rfl
@[simp] theorem setOut_cfgFilter (b : Bool) (s : State) : (setOut b s).cfgFilter = s.cfgFilter := rfl
@[simp] theorem setOut_cfgLowpass (b : Bool) (s : State) : (setOut b s).cfgLowpass = s.cfgLowpass := rfl
@[simp] theorem setOut_cfgNvsum (b : Bool) (s : State) : (setOut b s).cfgNvsum = s.cfgNvsum := rfl
@[simp] theorem setOut_sigVersion (b : Bool) (s : State) : (setOut b s).sigVersion = s.sigVersion := rfl
@[simp] theorem setOut_sigChecksum (b : Bool) (s : State) : (setOut b s).sigChecksum = s.sigChecksum := rfl
@[simp] theorem setOut_edgeIrqEn (b : Bool) (s : State) : (setOut b s).edgeIrqEn = s.edgeIrqEn := rfl
@[simp] theorem setOut_tickCount (b : Bool) (s : State) : (setOut b s).tickCount = s.tickCount := rfl
@[simp] theorem setOut_sigCountdown (b : Bool) (s : State) : (setOut b s).sigCountdown = s.sigCountdown := rfl
@[simp] theorem setOut_outRemaining (b : Bool) (s : State) : (setOut b s).outRemaining = s.outRemaining := rfl
@[simp] theorem setOut_recvingSince (b : Bool) (s : State) : (setOut b s).recvingSince = s.recvingSince := rfl
@[simp] theorem setOut_wdtMissed (b : Bool) (s : State) : (setOut b s).wdtMissed = s.wdtMissed := rfl
@[simp] theorem setOut_pinSnapshotRx (b : Bool) (s : State) : (setOut b s).pinSnapshotRx = s.pinSnapshotRx := rfl
@[simp] theorem setOut_pinSnapshotCtl (b : Bool) (s : State) : (setOut b s).pinSnapshotCtl = s.pinSnapshotCtl := rfl
@[simp] theorem setOut_pcPending (b : Bool) (s : State) : (setOut b s).pcPending = s.pcPending := rfl
@[simp] theorem setOut_lpPending (b : Bool) (s : State) : (setOut b s).lpPending = s.lpPending := rfl
@[simp] theorem setOut_lpCount (b : Bool) (s : State) : (setOut b s).lpCount = s.lpCount := rfl
@[simp] theorem setOut_sigActive (b : Bool) (s : State) : (setOut b s).sigActive = s.sigActive := rfl
@[simp] theorem setOut_sigRep (b : Bool) (s : State) : (setOut b s).sigRep = s.sigRep := rfl
@[simp] theorem setOut_sigPos (b : Bool) (s : State) : (setOut b s).sigPos = s.sigPos := rfl
@[simp] theorem setOut_rb (b : Bool) (s : State) : (setOut b s).rb = s.rb := rfl
@[simp] theorem setOut_rbWrite (b : Bool) (s : State) : (setOut b s).rbWrite = s.rbWrite := rfl
@[simp] theorem setOut_rbRead (b : Bool) (s : State) : (setOut b s).rbRead = s.rbRead := rfl
@[simp] theorem setOut_rbTrainStart (b : Bool) (s : State) : (setOut b s).rbTrainStart = s.rbTrainStart := rfl
@[simp] theorem setOut_trainLen (b : Bool) (s : State) : (setOut b s).trainLen = s.trainLen := rfl
@[simp] theorem setOut_ldShift (b : Bool) (s : State) : (setOut b s).ldShift = s.ldShift := rfl
@[simp] theorem setOut_tsIdx (b : Bool) (s : State) : (setOut b s).tsIdx = s.tsIdx := rfl
@[simp] theorem setOut_ctlState (b : Bool) (s : State) : (setOut b s).ctlState = s.ctlState := rfl
@[simp] theorem setOut_ctlActive (b : Bool) (s : State) : (setOut b s).ctlActive = s.ctlActive := rfl
@[simp] theorem setOut_ctlCount (b : Bool) (s : State) : (setOut b s).ctlCount = s.ctlCount := rfl
@[simp] theorem setOut_ctlValue (b : Bool) (s : State) : (setOut b s).ctlValue = s.ctlValue := rfl
@[simp] theorem setOut_ctlPressTick (b : Bool) (s : State) : (setOut b s).ctlPressTick = s.ctlPressTick := rfl
@[simp] theorem setOut_ctlReleaseTick (b : Bool) (s : State) : (setOut b s).ctlReleaseTick = s.ctlReleaseTick := rfl
@[simp] theorem setOut_nv (b : Bool) (s : State) : (setOut b s).nv = s.nv := rfl
@[simp] theorem setOut_log (b : Bool) (s : State) : (setOut b s).log = s.log := rfl
@[simp] theorem setOut_faultWdt (b : Bool) (s : State) : (setOut b s).faultWdt = s.faultWdt := rfl
@[simp] theorem setOut_refused (b : Bool) (s : State) : (setOut b s).refused = s.refused := rfl
@[simp] theorem setOut_outTrace (b : Bool) (s : State) : (setOut b s).outTrace = s.outTrace ++ [(s.tickCount, b)] := rfl
@[simp] theorem setOut_trace (b : Bool) (s : State) : (setOut b s).trace = s.trace := rfl
@[simp] theorem setOut_envIndex (b : Bool) (s : State) : (setOut b s).envIndex = s.envIndex := rfl

/-! ## toggleOut: a toggle of the output pin -/

@[simp] theorem toggleOut_par (s : State) : (toggleOut s).par = s.par := rfl
@[simp] theorem toggleOut_rxLevel (s : State) : (toggleOut s).rxLevel = s.rxLevel := rfl
@[simp] theorem toggleOut_ctlLevel (s : State) : (toggleOut s).ctlLevel = s.ctlLevel := rfl
@[simp] theorem toggleOut_outLevel (s : State) : (toggleOut s).outLevel = !s.outLevel := rfl
@[simp] theorem toggleOut_cfgFilter (s : State) : (toggleOut s).cfgFilter = s.cfgFilter := rfl
@[simp] theorem toggleOut_cfgLowpass (s : State) : (toggleOut s).cfgLowpass = s.cfgLowpass := rfl
@[simp] theorem toggleOut_cfgNvsum (s : State) : (toggleOut s).cfgNvsum = s.cfgNvsum := rfl
@[simp] theorem toggleOut_sigVersion (s : State) : (toggleOut s).sigVersion = s.sigVersion := rfl
@[simp] theorem toggleOut_sigChecksum (s : State) : (toggleOut s).sigChecksum = s.sigChecksum := rfl
@[simp] theorem toggleOut_edgeIrqEn (s : State) : (toggleOut s).edgeIrqEn = s.edgeIrqEn := rfl
@[simp] theorem toggleOut_tickCount (s : State) : (toggleOut s).tickCount = s.tickCount := rfl
@[simp] theorem toggleOut_sigCountdown (s : State) : (toggleOut s).sigCountdown = s.sigCountdown := rfl
@[simp] theorem toggleOut_outRemaining (s : State) : (toggleOut s).outRemaining = s.outRemaining := rfl
@[simp] theorem toggleOut_recvingSince (s : State) : (toggleOut s).recvingSince = s.recvingSince := rfl
@[simp] theorem toggleOut_wdtMissed (s : State) : (toggleOut s).wdtMissed = s.wdtMissed := rfl
@[simp] theorem toggleOut_pinSnapshotRx (s : State) : (toggleOut s).pinSnapshotRx = s.pinSnapshotRx := rfl
@[simp] theorem toggleOut_pinSnapshotCtl (s : State) : (toggleOut s).pinSnapshotCtl = s.pinSnapshotCtl := rfl
@[simp] theorem toggleOut_pcPending (s : State) : (toggleOut s).pcPending = s.pcPending := rfl
@[simp] theorem toggleOut_lpPending (s : State) : (toggleOut s).lpPending = s.lpPending := rfl
@[simp] theorem toggleOut_lpCount (s : State) : (toggleOut s).lpCount = s.lpCount := rfl
@[simp] theorem toggleOut_sigActive (s : State) : (toggleOut s).sigActive = s.sigActive := rfl
@[simp] theorem toggleOut_sigRep (s : State) : (toggleOut s).sigRep = s.sigRep := rfl
@[simp] theorem toggleOut_sigPos (s : State) : (toggleOut s).sigPos = s.sigPos := rfl
@[simp] theorem toggleOut_rb (s : State) : (toggleOut s).rb = s.rb := rfl
@[simp] theorem toggleOut_rbWrite (s : State) : (toggleOut s).rbWrite = s.rbWrite := rfl
@[simp] theorem toggleOut_rbRead (s : State) : (toggleOut s).rbRead = s.rbRead := rfl
@[simp] theorem toggleOut_rbTrainStart (s : State) : (toggleOut s).rbTrainStart = s.rbTrainStart := rfl
@[simp] theorem toggleOut_trainLen (s : State) : (toggleOut s).trainLen = s.trainLen := rfl
@[simp] theorem toggleOut_ldShift (s : State) : (toggleOut s).ldShift = s.ldShift := rfl
@[simp] theorem toggleOut_tsIdx (s : State) : (toggleOut s).tsIdx = s.tsIdx := rfl
@[simp] theorem toggleOut_ctlState (s : State) : (toggleOut s).ctlState = s.ctlState := rfl
@[simp] theorem toggleOut_ctlActive (s : State) : (toggleOut s).ctlActive = s.ctlActive := rfl
@[simp] theorem toggleOut_ctlCount (s : State) : (toggleOut s).ctlCount = s.ctlCount := rfl
@[simp] theorem toggleOut_ctlValue (s : State) : (toggleOut s).ctlValue = s.ctlValue := rfl
@[simp] theorem toggleOut_ctlPressTick (s : State) : (toggleOut s).ctlPressTick = s.ctlPressTick := rfl
@[simp] theorem toggleOut_ctlReleaseTick (s : State) : (toggleOut s).ctlReleaseTick = s.ctlReleaseTick := rfl
@[simp] theorem toggleOut_nv (s : State) : (toggleOut s).nv = s.nv := rfl
@[simp] theorem toggleOut_log (s : State) : (toggleOut s).log = s.log := rfl
@[simp] theorem toggleOut_faultWdt (s : State) : (toggleOut s).faultWdt = s.faultWdt := rfl
@[simp] theorem toggleOut_refused (s : State) : (toggleOut s).refused = s.refused := rfl
@[simp] theorem toggleOut_outTrace (s : State) : (toggleOut s).outTrace = s.outTrace ++ [(s.tickCount, !s.outLevel)] := rfl
@[simp] theorem toggleOut_trace (s : State) : (toggleOut s).trace = s.trace := rfl
@[simp] theorem toggleOut_envIndex (s : State) : (toggleOut s).envIndex = s.envIndex := rfl

/-! ## startPulse: the start of an output pulse -/

@[simp] theorem startPulse_par (d : Duration) (s : State) : (startPulse d s).par = s.par := rfl
@[simp] theorem startPulse_rxLevel (d : Duration) (s : State) : (startPulse d s).rxLevel = s.rxLevel := rfl
@[simp] theorem startPulse_ctlLevel (d : Duration) (s : State) : (startPulse d s).ctlLevel = s.ctlLevel := rfl
@[simp] theorem startPulse_outLevel (d : Duration) (s : State) : (startPulse d s).outLevel = s.outLevel := rfl
@[simp] theorem startPulse_cfgFilter (d : Duration) (s : State) : (startPulse d s).cfgFilter = s.cfgFilter := rfl
@[simp] theorem startPulse_cfgLowpass (d : Duration) (s : State) : (startPulse d s).cfgLowpass = s.cfgLowpass := rfl
@[simp] theorem startPulse_cfgNvsum (d : Duration) (s : State) : (startPulse d s).cfgNvsum = s.cfgNvsum := rfl
@[simp] theorem startPulse_sigVersion (d : Duration) (s : State) : (startPulse d s).sigVersion = s.sigVersion := rfl
@[simp] theorem startPulse_sigChecksum (d : Duration) (s : State) : (startPulse d s).sigChecksum = s.sigChecksum := rfl
@[simp] theorem startPulse_edgeIrqEn (d : Duration) (s : State) : (startPulse d s).edgeIrqEn = s.edgeIrqEn := rfl
@[simp] theorem startPulse_tickCount (d : Duration) (s : State) : (startPulse d s).tickCount = s.tickCount := rfl
@[simp] theorem startPulse_sigCountdown (d : Duration) (s : State) : (startPulse d s).sigCountdown = s.sigCountdown := rfl
@[simp] theorem startPulse_outRemaining (d : Duration) (s : State) : (startPulse d s).outRemaining = d := rfl
@[simp] theorem startPulse_recvingSince (d : Duration) (s : State) : (startPulse d s).recvingSince = s.recvingSince := rfl
@[simp] theorem startPulse_wdtMissed (d : Duration) (s : State) : (startPulse d s).wdtMissed = s.wdtMissed := rfl
@[simp] theorem startPulse_pinSnapshotRx (d : Duration) (s : State) : (startPulse d s).pinSnapshotRx = s.pinSnapshotRx := rfl
@[simp] theorem startPulse_pinSnapshotCtl (d : Duration) (s : State) : (startPulse d s).pinSnapshotCtl = s.pinSnapshotCtl := rfl
@[simp] theorem startPulse_pcPending (d : Duration) (s : State) : (startPulse d s).pcPending = s.pcPending := rfl
@[simp] theorem startPulse_lpPending (d : Duration) (s : State) : (startPulse d s).lpPending = s.lpPending := rfl
@[simp] theorem startPulse_lpCount (d : Duration) (s : State) : (startPulse d s).lpCount = s.lpCount := rfl
@[simp] theorem startPulse_sigActive (d : Duration) (s : State) : (startPulse d s).sigActive = s.sigActive := rfl
@[simp] theorem startPulse_sigRep (d : Duration) (s : State) : (startPulse d s).sigRep = s.sigRep := rfl
@[simp] theorem startPulse_sigPos (d : Duration) (s : State) : (startPulse d s).sigPos = s.sigPos := rfl
@[simp] theorem startPulse_rb (d : Duration) (s : State) : (startPulse d s).rb = s.rb := rfl
@[simp] theorem startPulse_rbWrite (d : Duration) (s : State) : (startPulse d s).rbWrite = s.rbWrite := rfl
@[simp] theorem startPulse_rbRead (d : Duration) (s : State) : (startPulse d s).rbRead = s.rbRead := rfl
@[simp] theorem startPulse_rbTrainStart (d : Duration) (s : State) : (startPulse d s).rbTrainStart = s.rbTrainStart := rfl
@[simp] theorem startPulse_trainLen (d : Duration) (s : State) : (startPulse d s).trainLen = s.trainLen := rfl
@[simp] theorem startPulse_ldShift (d : Duration) (s : State) : (startPulse d s).ldShift = s.ldShift := rfl
@[simp] theorem startPulse_tsIdx (d : Duration) (s : State) : (startPulse d s).tsIdx = s.tsIdx := rfl
@[simp] theorem startPulse_ctlState (d : Duration) (s : State) : (startPulse d s).ctlState = s.ctlState := rfl
@[simp] theorem startPulse_ctlActive (d : Duration) (s : State) : (startPulse d s).ctlActive = s.ctlActive := rfl
@[simp] theorem startPulse_ctlCount (d : Duration) (s : State) : (startPulse d s).ctlCount = s.ctlCount := rfl
@[simp] theorem startPulse_ctlValue (d : Duration) (s : State) : (startPulse d s).ctlValue = s.ctlValue := rfl
@[simp] theorem startPulse_ctlPressTick (d : Duration) (s : State) : (startPulse d s).ctlPressTick = s.ctlPressTick := rfl
@[simp] theorem startPulse_ctlReleaseTick (d : Duration) (s : State) : (startPulse d s).ctlReleaseTick = s.ctlReleaseTick := rfl
@[simp] theorem startPulse_nv (d : Duration) (s : State) : (startPulse d s).nv = s.nv := rfl
@[simp] theorem startPulse_log (d : Duration) (s : State) : (startPulse d s).log = s.log := rfl
@[simp] theorem startPulse_faultWdt (d : Duration) (s : State) : (startPulse d s).faultWdt = s.faultWdt := rfl
@[simp] theorem startPulse_refused (d : Duration) (s : State) : (startPulse d s).refused = s.refused := rfl
@[simp] theorem startPulse_outTrace (d : Duration) (s : State) : (startPulse d s).outTrace = s.outTrace := rfl
@[simp] theorem startPulse_trace (d : Duration) (s : State) : (startPulse d s).trace = s.trace := rfl
@[simp] theorem startPulse_envIndex (d : Duration) (s : State) : (startPulse d s).envIndex = s.envIndex := rfl

/-! ## setConfig: a write of the configuration -/

@[simp] theorem setConfig_par (f : FilterMode) (l : Bool) (s : State) : (setConfig f l s).par = s.par := rfl
@[simp] theorem setConfig_rxLevel (f : FilterMode) (l : Bool) (s : State) : (setConfig f l s).rxLevel = s.rxLevel := rfl
@[simp] theorem setConfig_ctlLevel (f : FilterMode) (l : Bool) (s : State) : (setConfig f l s).ctlLevel = s.ctlLevel := rfl
@[simp] theorem setConfig_outLevel (f : FilterMode) (l : Bool) (s : State) : (setConfig f l s).outLevel = s.outLevel := rfl
@[simp] theorem setConfig_cfgFilter (f : FilterMode) (l : Bool) (s : State) : (setConfig f l s).cfgFilter = f := rfl
@[simp] theorem setConfig_cfgLowpass (f : FilterMode) (l : Bool) (s : State) : (setConfig f l s).cfgLowpass = l := rfl
@[simp] theorem setConfig_cfgNvsum (f : FilterMode) (l : Bool) (s : State) : (setConfig f l s).cfgNvsum = nvsum s.par (filterByte f) := rfl
@[simp] theorem setConfig_sigVersion (f : FilterMode) (l : Bool) (s : State) : (setConfig f l s).sigVersion = sigVersionOf s.par f l := rfl
@[simp] theorem setConfig_sigChecksum (f : FilterMode) (l : Bool) (s : State) : (setConfig f l s).sigChecksum = sigChecksumOf s.par (sigVersionOf s.par f l) := rfl
@[simp] theorem setConfig_edgeIrqEn (f : FilterMode) (l : Bool) (s : State) : (setConfig f l s).edgeIrqEn = s.edgeIrqEn := rfl
@[simp] theorem setConfig_tickCount (f : FilterMode) (l : Bool) (s : State) : (setConfig f l s).tickCount = s.tickCount := rfl
@[simp] theorem setConfig_sigCountdown (f : FilterMode) (l : Bool) (s : State) : (setConfig f l s).sigCountdown = s.sigCountdown := rfl
@[simp] theorem setConfig_outRemaining (f : FilterMode) (l : Bool) (s : State) : (setConfig f l s).outRemaining = s.outRemaining := rfl
@[simp] theorem setConfig_recvingSince (f : FilterMode) (l : Bool) (s : State) : (setConfig f l s).recvingSince = s.recvingSince := rfl
@[simp] theorem setConfig_wdtMissed (f : FilterMode) (l : Bool) (s : State) : (setConfig f l s).wdtMissed = s.wdtMissed := rfl
@[simp] theorem setConfig_pinSnapshotRx (f : FilterMode) (l : Bool) (s : State) : (setConfig f l s).pinSnapshotRx = s.pinSnapshotRx := rfl
@[simp] theorem setConfig_pinSnapshotCtl (f : FilterMode) (l : Bool) (s : State) : (setConfig f l s).pinSnapshotCtl = s.pinSnapshotCtl := rfl
@[simp] theorem setConfig_pcPending (f : FilterMode) (l : Bool) (s : State) : (setConfig f l s).pcPending = s.pcPending := rfl
@[simp] theorem setConfig_lpPending (f : FilterMode) (l : Bool) (s : State) : (setConfig f l s).lpPending = s.lpPending := rfl
@[simp] theorem setConfig_lpCount (f : FilterMode) (l : Bool) (s : State) : (setConfig f l s).lpCount = s.lpCount := rfl
@[simp] theorem setConfig_sigActive (f : FilterMode) (l : Bool) (s : State) : (setConfig f l s).sigActive = s.sigActive := rfl
@[simp] theorem setConfig_sigRep (f : FilterMode) (l : Bool) (s : State) : (setConfig f l s).sigRep = s.sigRep := rfl
@[simp] theorem setConfig_sigPos (f : FilterMode) (l : Bool) (s : State) : (setConfig f l s).sigPos = s.sigPos := rfl
@[simp] theorem setConfig_rb (f : FilterMode) (l : Bool) (s : State) : (setConfig f l s).rb = s.rb := rfl
@[simp] theorem setConfig_rbWrite (f : FilterMode) (l : Bool) (s : State) : (setConfig f l s).rbWrite = s.rbWrite := rfl
@[simp] theorem setConfig_rbRead (f : FilterMode) (l : Bool) (s : State) : (setConfig f l s).rbRead = s.rbRead := rfl
@[simp] theorem setConfig_rbTrainStart (f : FilterMode) (l : Bool) (s : State) : (setConfig f l s).rbTrainStart = s.rbTrainStart := rfl
@[simp] theorem setConfig_trainLen (f : FilterMode) (l : Bool) (s : State) : (setConfig f l s).trainLen = s.trainLen := rfl
@[simp] theorem setConfig_ldShift (f : FilterMode) (l : Bool) (s : State) : (setConfig f l s).ldShift = s.ldShift := rfl
@[simp] theorem setConfig_tsIdx (f : FilterMode) (l : Bool) (s : State) : (setConfig f l s).tsIdx = s.tsIdx := rfl
@[simp] theorem setConfig_ctlState (f : FilterMode) (l : Bool) (s : State) : (setConfig f l s).ctlState = s.ctlState := rfl
@[simp] theorem setConfig_ctlActive (f : FilterMode) (l : Bool) (s : State) : (setConfig f l s).ctlActive = s.ctlActive := rfl
@[simp] theorem setConfig_ctlCount (f : FilterMode) (l : Bool) (s : State) : (setConfig f l s).ctlCount = s.ctlCount := rfl
@[simp] theorem setConfig_ctlValue (f : FilterMode) (l : Bool) (s : State) : (setConfig f l s).ctlValue = s.ctlValue := rfl
@[simp] theorem setConfig_ctlPressTick (f : FilterMode) (l : Bool) (s : State) : (setConfig f l s).ctlPressTick = s.ctlPressTick := rfl
@[simp] theorem setConfig_ctlReleaseTick (f : FilterMode) (l : Bool) (s : State) : (setConfig f l s).ctlReleaseTick = s.ctlReleaseTick := rfl
@[simp] theorem setConfig_nv (f : FilterMode) (l : Bool) (s : State) : (setConfig f l s).nv = s.nv := rfl
@[simp] theorem setConfig_log (f : FilterMode) (l : Bool) (s : State) : (setConfig f l s).log = s.log := rfl
@[simp] theorem setConfig_faultWdt (f : FilterMode) (l : Bool) (s : State) : (setConfig f l s).faultWdt = s.faultWdt := rfl
@[simp] theorem setConfig_refused (f : FilterMode) (l : Bool) (s : State) : (setConfig f l s).refused = s.refused := rfl
@[simp] theorem setConfig_outTrace (f : FilterMode) (l : Bool) (s : State) : (setConfig f l s).outTrace = s.outTrace := rfl
@[simp] theorem setConfig_trace (f : FilterMode) (l : Bool) (s : State) : (setConfig f l s).trace = s.trace := rfl
@[simp] theorem setConfig_envIndex (f : FilterMode) (l : Bool) (s : State) : (setConfig f l s).envIndex = s.envIndex := rfl

/-! ## resetFilterState: the reset of the filters -/

@[simp] theorem resetFilterState_par (s : State) : (resetFilterState s).par = s.par := rfl
@[simp] theorem resetFilterState_rxLevel (s : State) : (resetFilterState s).rxLevel = s.rxLevel := rfl
@[simp] theorem resetFilterState_ctlLevel (s : State) : (resetFilterState s).ctlLevel = s.ctlLevel := rfl
@[simp] theorem resetFilterState_outLevel (s : State) : (resetFilterState s).outLevel = s.outLevel := rfl
@[simp] theorem resetFilterState_cfgFilter (s : State) : (resetFilterState s).cfgFilter = s.cfgFilter := rfl
@[simp] theorem resetFilterState_cfgLowpass (s : State) : (resetFilterState s).cfgLowpass = s.cfgLowpass := rfl
@[simp] theorem resetFilterState_cfgNvsum (s : State) : (resetFilterState s).cfgNvsum = s.cfgNvsum := rfl
@[simp] theorem resetFilterState_sigVersion (s : State) : (resetFilterState s).sigVersion = s.sigVersion := rfl
@[simp] theorem resetFilterState_sigChecksum (s : State) : (resetFilterState s).sigChecksum = s.sigChecksum := rfl
@[simp] theorem resetFilterState_edgeIrqEn (s : State) : (resetFilterState s).edgeIrqEn = s.edgeIrqEn := rfl
@[simp] theorem resetFilterState_tickCount (s : State) : (resetFilterState s).tickCount = s.tickCount := rfl
@[simp] theorem resetFilterState_sigCountdown (s : State) : (resetFilterState s).sigCountdown = s.sigCountdown := rfl
@[simp] theorem resetFilterState_outRemaining (s : State) : (resetFilterState s).outRemaining = s.outRemaining := rfl
@[simp] theorem resetFilterState_recvingSince (s : State) : (resetFilterState s).recvingSince = s.recvingSince := rfl
@[simp] theorem resetFilterState_wdtMissed (s : State) : (resetFilterState s).wdtMissed = s.wdtMissed := rfl
@[simp] theorem resetFilterState_pinSnapshotRx (s : State) : (resetFilterState s).pinSnapshotRx = s.pinSnapshotRx := rfl
@[simp] theorem resetFilterState_pinSnapshotCtl (s : State) : (resetFilterState s).pinSnapshotCtl = s.pinSnapshotCtl := rfl
@[simp] theorem resetFilterState_pcPending (s : State) : (resetFilterState s).pcPending = s.pcPending := rfl
@[simp] theorem resetFilterState_lpPending (s : State) : (resetFilterState s).lpPending = s.lpPending := rfl
@[simp] theorem resetFilterState_lpCount (s : State) : (resetFilterState s).lpCount = s.lpCount := rfl
@[simp] theorem resetFilterState_sigActive (s : State) : (resetFilterState s).sigActive = s.sigActive := rfl
@[simp] theorem resetFilterState_sigRep (s : State) : (resetFilterState s).sigRep = s.sigRep := rfl
@[simp] theorem resetFilterState_sigPos (s : State) : (resetFilterState s).sigPos = s.sigPos := rfl
@[simp] theorem resetFilterState_rb (s : State) : (resetFilterState s).rb = s.rb := rfl
@[simp] theorem resetFilterState_rbWrite (s : State) : (resetFilterState s).rbWrite = 0 := rfl
@[simp] theorem resetFilterState_rbRead (s : State) : (resetFilterState s).rbRead = 0 := rfl
@[simp] theorem resetFilterState_rbTrainStart (s : State) : (resetFilterState s).rbTrainStart = 0 := rfl
@[simp] theorem resetFilterState_trainLen (s : State) : (resetFilterState s).trainLen = 0 := rfl
@[simp] theorem resetFilterState_ldShift (s : State) : (resetFilterState s).ldShift = 0 := rfl
@[simp] theorem resetFilterState_tsIdx (s : State) : (resetFilterState s).tsIdx = 0 := rfl
@[simp] theorem resetFilterState_ctlState (s : State) : (resetFilterState s).ctlState = s.ctlState := rfl
@[simp] theorem resetFilterState_ctlActive (s : State) : (resetFilterState s).ctlActive = s.ctlActive := rfl
@[simp] theorem resetFilterState_ctlCount (s : State) : (resetFilterState s).ctlCount = s.ctlCount := rfl
@[simp] theorem resetFilterState_ctlValue (s : State) : (resetFilterState s).ctlValue = s.ctlValue := rfl
@[simp] theorem resetFilterState_ctlPressTick (s : State) : (resetFilterState s).ctlPressTick = s.ctlPressTick := rfl
@[simp] theorem resetFilterState_ctlReleaseTick (s : State) : (resetFilterState s).ctlReleaseTick = s.ctlReleaseTick := rfl
@[simp] theorem resetFilterState_nv (s : State) : (resetFilterState s).nv = s.nv := rfl
@[simp] theorem resetFilterState_log (s : State) : (resetFilterState s).log = s.log := rfl
@[simp] theorem resetFilterState_faultWdt (s : State) : (resetFilterState s).faultWdt = s.faultWdt := rfl
@[simp] theorem resetFilterState_refused (s : State) : (resetFilterState s).refused = s.refused := rfl
@[simp] theorem resetFilterState_outTrace (s : State) : (resetFilterState s).outTrace = s.outTrace := rfl
@[simp] theorem resetFilterState_trace (s : State) : (resetFilterState s).trace = s.trace := rfl
@[simp] theorem resetFilterState_envIndex (s : State) : (resetFilterState s).envIndex = s.envIndex := rfl

/-! ## sessionReset: the reset of the control session -/

@[simp] theorem sessionReset_par (s : State) : (sessionReset s).par = s.par := rfl
@[simp] theorem sessionReset_rxLevel (s : State) : (sessionReset s).rxLevel = s.rxLevel := rfl
@[simp] theorem sessionReset_ctlLevel (s : State) : (sessionReset s).ctlLevel = s.ctlLevel := rfl
@[simp] theorem sessionReset_outLevel (s : State) : (sessionReset s).outLevel = s.outLevel := rfl
@[simp] theorem sessionReset_cfgFilter (s : State) : (sessionReset s).cfgFilter = s.cfgFilter := rfl
@[simp] theorem sessionReset_cfgLowpass (s : State) : (sessionReset s).cfgLowpass = s.cfgLowpass := rfl
@[simp] theorem sessionReset_cfgNvsum (s : State) : (sessionReset s).cfgNvsum = s.cfgNvsum := rfl
@[simp] theorem sessionReset_sigVersion (s : State) : (sessionReset s).sigVersion = s.sigVersion := rfl
@[simp] theorem sessionReset_sigChecksum (s : State) : (sessionReset s).sigChecksum = s.sigChecksum := rfl
@[simp] theorem sessionReset_edgeIrqEn (s : State) : (sessionReset s).edgeIrqEn = s.edgeIrqEn := rfl
@[simp] theorem sessionReset_tickCount (s : State) : (sessionReset s).tickCount = s.tickCount := rfl
@[simp] theorem sessionReset_sigCountdown (s : State) : (sessionReset s).sigCountdown = s.sigCountdown := rfl
@[simp] theorem sessionReset_outRemaining (s : State) : (sessionReset s).outRemaining = s.outRemaining := rfl
@[simp] theorem sessionReset_recvingSince (s : State) : (sessionReset s).recvingSince = s.recvingSince := rfl
@[simp] theorem sessionReset_wdtMissed (s : State) : (sessionReset s).wdtMissed = s.wdtMissed := rfl
@[simp] theorem sessionReset_pinSnapshotRx (s : State) : (sessionReset s).pinSnapshotRx = s.pinSnapshotRx := rfl
@[simp] theorem sessionReset_pinSnapshotCtl (s : State) : (sessionReset s).pinSnapshotCtl = s.pinSnapshotCtl := rfl
@[simp] theorem sessionReset_pcPending (s : State) : (sessionReset s).pcPending = s.pcPending := rfl
@[simp] theorem sessionReset_lpPending (s : State) : (sessionReset s).lpPending = s.lpPending := rfl
@[simp] theorem sessionReset_lpCount (s : State) : (sessionReset s).lpCount = s.lpCount := rfl
@[simp] theorem sessionReset_sigActive (s : State) : (sessionReset s).sigActive = s.sigActive := rfl
@[simp] theorem sessionReset_sigRep (s : State) : (sessionReset s).sigRep = s.sigRep := rfl
@[simp] theorem sessionReset_sigPos (s : State) : (sessionReset s).sigPos = s.sigPos := rfl
@[simp] theorem sessionReset_rb (s : State) : (sessionReset s).rb = s.rb := rfl
@[simp] theorem sessionReset_rbWrite (s : State) : (sessionReset s).rbWrite = s.rbWrite := rfl
@[simp] theorem sessionReset_rbRead (s : State) : (sessionReset s).rbRead = s.rbRead := rfl
@[simp] theorem sessionReset_rbTrainStart (s : State) : (sessionReset s).rbTrainStart = s.rbTrainStart := rfl
@[simp] theorem sessionReset_trainLen (s : State) : (sessionReset s).trainLen = s.trainLen := rfl
@[simp] theorem sessionReset_ldShift (s : State) : (sessionReset s).ldShift = s.ldShift := rfl
@[simp] theorem sessionReset_tsIdx (s : State) : (sessionReset s).tsIdx = s.tsIdx := rfl
@[simp] theorem sessionReset_ctlState (s : State) : (sessionReset s).ctlState = .idle := rfl
@[simp] theorem sessionReset_ctlActive (s : State) : (sessionReset s).ctlActive = false := rfl
@[simp] theorem sessionReset_ctlCount (s : State) : (sessionReset s).ctlCount = 0 := rfl
@[simp] theorem sessionReset_ctlValue (s : State) : (sessionReset s).ctlValue = 0 := rfl
@[simp] theorem sessionReset_ctlPressTick (s : State) : (sessionReset s).ctlPressTick = s.ctlPressTick := rfl
@[simp] theorem sessionReset_ctlReleaseTick (s : State) : (sessionReset s).ctlReleaseTick = s.ctlReleaseTick := rfl
@[simp] theorem sessionReset_nv (s : State) : (sessionReset s).nv = s.nv := rfl
@[simp] theorem sessionReset_log (s : State) : (sessionReset s).log = s.log := rfl
@[simp] theorem sessionReset_faultWdt (s : State) : (sessionReset s).faultWdt = s.faultWdt := rfl
@[simp] theorem sessionReset_refused (s : State) : (sessionReset s).refused = s.refused := rfl
@[simp] theorem sessionReset_outTrace (s : State) : (sessionReset s).outTrace = s.outTrace := rfl
@[simp] theorem sessionReset_trace (s : State) : (sessionReset s).trace = s.trace := rfl
@[simp] theorem sessionReset_envIndex (s : State) : (sessionReset s).envIndex = s.envIndex := rfl

/-! ## rbPush: a push into the ring -/

@[simp] theorem rbPush_par (d : Duration) (s : State) : (rbPush d s).par = s.par := rfl
@[simp] theorem rbPush_rxLevel (d : Duration) (s : State) : (rbPush d s).rxLevel = s.rxLevel := rfl
@[simp] theorem rbPush_ctlLevel (d : Duration) (s : State) : (rbPush d s).ctlLevel = s.ctlLevel := rfl
@[simp] theorem rbPush_outLevel (d : Duration) (s : State) : (rbPush d s).outLevel = s.outLevel := rfl
@[simp] theorem rbPush_cfgFilter (d : Duration) (s : State) : (rbPush d s).cfgFilter = s.cfgFilter := rfl
@[simp] theorem rbPush_cfgLowpass (d : Duration) (s : State) : (rbPush d s).cfgLowpass = s.cfgLowpass := rfl
@[simp] theorem rbPush_cfgNvsum (d : Duration) (s : State) : (rbPush d s).cfgNvsum = s.cfgNvsum := rfl
@[simp] theorem rbPush_sigVersion (d : Duration) (s : State) : (rbPush d s).sigVersion = s.sigVersion := rfl
@[simp] theorem rbPush_sigChecksum (d : Duration) (s : State) : (rbPush d s).sigChecksum = s.sigChecksum := rfl
@[simp] theorem rbPush_edgeIrqEn (d : Duration) (s : State) : (rbPush d s).edgeIrqEn = s.edgeIrqEn := rfl
@[simp] theorem rbPush_tickCount (d : Duration) (s : State) : (rbPush d s).tickCount = s.tickCount := rfl
@[simp] theorem rbPush_sigCountdown (d : Duration) (s : State) : (rbPush d s).sigCountdown = s.sigCountdown := rfl
@[simp] theorem rbPush_outRemaining (d : Duration) (s : State) : (rbPush d s).outRemaining = s.outRemaining := rfl
@[simp] theorem rbPush_recvingSince (d : Duration) (s : State) : (rbPush d s).recvingSince = s.recvingSince := rfl
@[simp] theorem rbPush_wdtMissed (d : Duration) (s : State) : (rbPush d s).wdtMissed = s.wdtMissed := rfl
@[simp] theorem rbPush_pinSnapshotRx (d : Duration) (s : State) : (rbPush d s).pinSnapshotRx = s.pinSnapshotRx := rfl
@[simp] theorem rbPush_pinSnapshotCtl (d : Duration) (s : State) : (rbPush d s).pinSnapshotCtl = s.pinSnapshotCtl := rfl
@[simp] theorem rbPush_pcPending (d : Duration) (s : State) : (rbPush d s).pcPending = s.pcPending := rfl
@[simp] theorem rbPush_lpPending (d : Duration) (s : State) : (rbPush d s).lpPending = s.lpPending := rfl
@[simp] theorem rbPush_lpCount (d : Duration) (s : State) : (rbPush d s).lpCount = s.lpCount := rfl
@[simp] theorem rbPush_sigActive (d : Duration) (s : State) : (rbPush d s).sigActive = s.sigActive := rfl
@[simp] theorem rbPush_sigRep (d : Duration) (s : State) : (rbPush d s).sigRep = s.sigRep := rfl
@[simp] theorem rbPush_sigPos (d : Duration) (s : State) : (rbPush d s).sigPos = s.sigPos := rfl
@[simp] theorem rbPush_rb (d : Duration) (s : State) : (rbPush d s).rb = Memory.write s.rb s.rbWrite d := rfl
@[simp] theorem rbPush_rbWrite (d : Duration) (s : State) : (rbPush d s).rbWrite = nextIndex s.par s.rbWrite := rfl
@[simp] theorem rbPush_rbRead (d : Duration) (s : State) : (rbPush d s).rbRead = s.rbRead := rfl
@[simp] theorem rbPush_rbTrainStart (d : Duration) (s : State) : (rbPush d s).rbTrainStart = s.rbTrainStart := rfl
@[simp] theorem rbPush_trainLen (d : Duration) (s : State) : (rbPush d s).trainLen = s.trainLen := rfl
@[simp] theorem rbPush_ldShift (d : Duration) (s : State) : (rbPush d s).ldShift = s.ldShift := rfl
@[simp] theorem rbPush_tsIdx (d : Duration) (s : State) : (rbPush d s).tsIdx = s.tsIdx := rfl
@[simp] theorem rbPush_ctlState (d : Duration) (s : State) : (rbPush d s).ctlState = s.ctlState := rfl
@[simp] theorem rbPush_ctlActive (d : Duration) (s : State) : (rbPush d s).ctlActive = s.ctlActive := rfl
@[simp] theorem rbPush_ctlCount (d : Duration) (s : State) : (rbPush d s).ctlCount = s.ctlCount := rfl
@[simp] theorem rbPush_ctlValue (d : Duration) (s : State) : (rbPush d s).ctlValue = s.ctlValue := rfl
@[simp] theorem rbPush_ctlPressTick (d : Duration) (s : State) : (rbPush d s).ctlPressTick = s.ctlPressTick := rfl
@[simp] theorem rbPush_ctlReleaseTick (d : Duration) (s : State) : (rbPush d s).ctlReleaseTick = s.ctlReleaseTick := rfl
@[simp] theorem rbPush_nv (d : Duration) (s : State) : (rbPush d s).nv = s.nv := rfl
@[simp] theorem rbPush_log (d : Duration) (s : State) : (rbPush d s).log = s.log := rfl
@[simp] theorem rbPush_faultWdt (d : Duration) (s : State) : (rbPush d s).faultWdt = s.faultWdt := rfl
@[simp] theorem rbPush_refused (d : Duration) (s : State) : (rbPush d s).refused = s.refused := rfl
@[simp] theorem rbPush_outTrace (d : Duration) (s : State) : (rbPush d s).outTrace = s.outTrace := rfl
@[simp] theorem rbPush_trace (d : Duration) (s : State) : (rbPush d s).trace = s.trace := rfl
@[simp] theorem rbPush_envIndex (d : Duration) (s : State) : (rbPush d s).envIndex = s.envIndex := rfl

/-! ## rbPop: a pop from the ring -/

@[simp] theorem rbPop_par (s : State) : (rbPop s).par = s.par := rfl
@[simp] theorem rbPop_rxLevel (s : State) : (rbPop s).rxLevel = s.rxLevel := rfl
@[simp] theorem rbPop_ctlLevel (s : State) : (rbPop s).ctlLevel = s.ctlLevel := rfl
@[simp] theorem rbPop_outLevel (s : State) : (rbPop s).outLevel = s.outLevel := rfl
@[simp] theorem rbPop_cfgFilter (s : State) : (rbPop s).cfgFilter = s.cfgFilter := rfl
@[simp] theorem rbPop_cfgLowpass (s : State) : (rbPop s).cfgLowpass = s.cfgLowpass := rfl
@[simp] theorem rbPop_cfgNvsum (s : State) : (rbPop s).cfgNvsum = s.cfgNvsum := rfl
@[simp] theorem rbPop_sigVersion (s : State) : (rbPop s).sigVersion = s.sigVersion := rfl
@[simp] theorem rbPop_sigChecksum (s : State) : (rbPop s).sigChecksum = s.sigChecksum := rfl
@[simp] theorem rbPop_edgeIrqEn (s : State) : (rbPop s).edgeIrqEn = s.edgeIrqEn := rfl
@[simp] theorem rbPop_tickCount (s : State) : (rbPop s).tickCount = s.tickCount := rfl
@[simp] theorem rbPop_sigCountdown (s : State) : (rbPop s).sigCountdown = s.sigCountdown := rfl
@[simp] theorem rbPop_outRemaining (s : State) : (rbPop s).outRemaining = s.outRemaining := rfl
@[simp] theorem rbPop_recvingSince (s : State) : (rbPop s).recvingSince = s.recvingSince := rfl
@[simp] theorem rbPop_wdtMissed (s : State) : (rbPop s).wdtMissed = s.wdtMissed := rfl
@[simp] theorem rbPop_pinSnapshotRx (s : State) : (rbPop s).pinSnapshotRx = s.pinSnapshotRx := rfl
@[simp] theorem rbPop_pinSnapshotCtl (s : State) : (rbPop s).pinSnapshotCtl = s.pinSnapshotCtl := rfl
@[simp] theorem rbPop_pcPending (s : State) : (rbPop s).pcPending = s.pcPending := rfl
@[simp] theorem rbPop_lpPending (s : State) : (rbPop s).lpPending = s.lpPending := rfl
@[simp] theorem rbPop_lpCount (s : State) : (rbPop s).lpCount = s.lpCount := rfl
@[simp] theorem rbPop_sigActive (s : State) : (rbPop s).sigActive = s.sigActive := rfl
@[simp] theorem rbPop_sigRep (s : State) : (rbPop s).sigRep = s.sigRep := rfl
@[simp] theorem rbPop_sigPos (s : State) : (rbPop s).sigPos = s.sigPos := rfl
@[simp] theorem rbPop_rb (s : State) : (rbPop s).rb = s.rb := rfl
@[simp] theorem rbPop_rbWrite (s : State) : (rbPop s).rbWrite = s.rbWrite := rfl
@[simp] theorem rbPop_rbRead (s : State) : (rbPop s).rbRead = nextIndex s.par s.rbRead := rfl
@[simp] theorem rbPop_rbTrainStart (s : State) : (rbPop s).rbTrainStart = s.rbTrainStart := rfl
@[simp] theorem rbPop_trainLen (s : State) : (rbPop s).trainLen = s.trainLen := rfl
@[simp] theorem rbPop_ldShift (s : State) : (rbPop s).ldShift = s.ldShift := rfl
@[simp] theorem rbPop_tsIdx (s : State) : (rbPop s).tsIdx = s.tsIdx := rfl
@[simp] theorem rbPop_ctlState (s : State) : (rbPop s).ctlState = s.ctlState := rfl
@[simp] theorem rbPop_ctlActive (s : State) : (rbPop s).ctlActive = s.ctlActive := rfl
@[simp] theorem rbPop_ctlCount (s : State) : (rbPop s).ctlCount = s.ctlCount := rfl
@[simp] theorem rbPop_ctlValue (s : State) : (rbPop s).ctlValue = s.ctlValue := rfl
@[simp] theorem rbPop_ctlPressTick (s : State) : (rbPop s).ctlPressTick = s.ctlPressTick := rfl
@[simp] theorem rbPop_ctlReleaseTick (s : State) : (rbPop s).ctlReleaseTick = s.ctlReleaseTick := rfl
@[simp] theorem rbPop_nv (s : State) : (rbPop s).nv = s.nv := rfl
@[simp] theorem rbPop_log (s : State) : (rbPop s).log = s.log := rfl
@[simp] theorem rbPop_faultWdt (s : State) : (rbPop s).faultWdt = s.faultWdt := rfl
@[simp] theorem rbPop_refused (s : State) : (rbPop s).refused = s.refused := rfl
@[simp] theorem rbPop_outTrace (s : State) : (rbPop s).outTrace = s.outTrace := rfl
@[simp] theorem rbPop_trace (s : State) : (rbPop s).trace = s.trace := rfl
@[simp] theorem rbPop_envIndex (s : State) : (rbPop s).envIndex = s.envIndex := rfl

/-! ## discardTrain: a discarded train -/

@[simp] theorem discardTrain_par (s : State) : (discardTrain s).par = s.par := rfl
@[simp] theorem discardTrain_rxLevel (s : State) : (discardTrain s).rxLevel = s.rxLevel := rfl
@[simp] theorem discardTrain_ctlLevel (s : State) : (discardTrain s).ctlLevel = s.ctlLevel := rfl
@[simp] theorem discardTrain_outLevel (s : State) : (discardTrain s).outLevel = s.outLevel := rfl
@[simp] theorem discardTrain_cfgFilter (s : State) : (discardTrain s).cfgFilter = s.cfgFilter := rfl
@[simp] theorem discardTrain_cfgLowpass (s : State) : (discardTrain s).cfgLowpass = s.cfgLowpass := rfl
@[simp] theorem discardTrain_cfgNvsum (s : State) : (discardTrain s).cfgNvsum = s.cfgNvsum := rfl
@[simp] theorem discardTrain_sigVersion (s : State) : (discardTrain s).sigVersion = s.sigVersion := rfl
@[simp] theorem discardTrain_sigChecksum (s : State) : (discardTrain s).sigChecksum = s.sigChecksum := rfl
@[simp] theorem discardTrain_edgeIrqEn (s : State) : (discardTrain s).edgeIrqEn = s.edgeIrqEn := rfl
@[simp] theorem discardTrain_tickCount (s : State) : (discardTrain s).tickCount = s.tickCount := rfl
@[simp] theorem discardTrain_sigCountdown (s : State) : (discardTrain s).sigCountdown = s.sigCountdown := rfl
@[simp] theorem discardTrain_outRemaining (s : State) : (discardTrain s).outRemaining = s.outRemaining := rfl
@[simp] theorem discardTrain_recvingSince (s : State) : (discardTrain s).recvingSince = s.recvingSince := rfl
@[simp] theorem discardTrain_wdtMissed (s : State) : (discardTrain s).wdtMissed = s.wdtMissed := rfl
@[simp] theorem discardTrain_pinSnapshotRx (s : State) : (discardTrain s).pinSnapshotRx = s.pinSnapshotRx := rfl
@[simp] theorem discardTrain_pinSnapshotCtl (s : State) : (discardTrain s).pinSnapshotCtl = s.pinSnapshotCtl := rfl
@[simp] theorem discardTrain_pcPending (s : State) : (discardTrain s).pcPending = s.pcPending := rfl
@[simp] theorem discardTrain_lpPending (s : State) : (discardTrain s).lpPending = s.lpPending := rfl
@[simp] theorem discardTrain_lpCount (s : State) : (discardTrain s).lpCount = s.lpCount := rfl
@[simp] theorem discardTrain_sigActive (s : State) : (discardTrain s).sigActive = s.sigActive := rfl
@[simp] theorem discardTrain_sigRep (s : State) : (discardTrain s).sigRep = s.sigRep := rfl
@[simp] theorem discardTrain_sigPos (s : State) : (discardTrain s).sigPos = s.sigPos := rfl
@[simp] theorem discardTrain_rb (s : State) : (discardTrain s).rb = s.rb := rfl
@[simp] theorem discardTrain_rbWrite (s : State) : (discardTrain s).rbWrite = s.rbTrainStart := rfl
@[simp] theorem discardTrain_rbRead (s : State) : (discardTrain s).rbRead = s.rbRead := rfl
@[simp] theorem discardTrain_rbTrainStart (s : State) : (discardTrain s).rbTrainStart = s.rbTrainStart := rfl
@[simp] theorem discardTrain_trainLen (s : State) : (discardTrain s).trainLen = 0 := rfl
@[simp] theorem discardTrain_ldShift (s : State) : (discardTrain s).ldShift = s.ldShift := rfl
@[simp] theorem discardTrain_tsIdx (s : State) : (discardTrain s).tsIdx = s.tsIdx := rfl
@[simp] theorem discardTrain_ctlState (s : State) : (discardTrain s).ctlState = s.ctlState := rfl
@[simp] theorem discardTrain_ctlActive (s : State) : (discardTrain s).ctlActive = s.ctlActive := rfl
@[simp] theorem discardTrain_ctlCount (s : State) : (discardTrain s).ctlCount = s.ctlCount := rfl
@[simp] theorem discardTrain_ctlValue (s : State) : (discardTrain s).ctlValue = s.ctlValue := rfl
@[simp] theorem discardTrain_ctlPressTick (s : State) : (discardTrain s).ctlPressTick = s.ctlPressTick := rfl
@[simp] theorem discardTrain_ctlReleaseTick (s : State) : (discardTrain s).ctlReleaseTick = s.ctlReleaseTick := rfl
@[simp] theorem discardTrain_nv (s : State) : (discardTrain s).nv = s.nv := rfl
@[simp] theorem discardTrain_log (s : State) : (discardTrain s).log = s.log := rfl
@[simp] theorem discardTrain_faultWdt (s : State) : (discardTrain s).faultWdt = s.faultWdt := rfl
@[simp] theorem discardTrain_refused (s : State) : (discardTrain s).refused = s.refused := rfl
@[simp] theorem discardTrain_outTrace (s : State) : (discardTrain s).outTrace = s.outTrace := rfl
@[simp] theorem discardTrain_trace (s : State) : (discardTrain s).trace = s.trace := rfl
@[simp] theorem discardTrain_envIndex (s : State) : (discardTrain s).envIndex = s.envIndex := rfl

/-! ## takeSnapshot: a snapshot of the pins -/

@[simp] theorem takeSnapshot_par (s : State) : (takeSnapshot s).par = s.par := rfl
@[simp] theorem takeSnapshot_rxLevel (s : State) : (takeSnapshot s).rxLevel = s.rxLevel := rfl
@[simp] theorem takeSnapshot_ctlLevel (s : State) : (takeSnapshot s).ctlLevel = s.ctlLevel := rfl
@[simp] theorem takeSnapshot_outLevel (s : State) : (takeSnapshot s).outLevel = s.outLevel := rfl
@[simp] theorem takeSnapshot_cfgFilter (s : State) : (takeSnapshot s).cfgFilter = s.cfgFilter := rfl
@[simp] theorem takeSnapshot_cfgLowpass (s : State) : (takeSnapshot s).cfgLowpass = s.cfgLowpass := rfl
@[simp] theorem takeSnapshot_cfgNvsum (s : State) : (takeSnapshot s).cfgNvsum = s.cfgNvsum := rfl
@[simp] theorem takeSnapshot_sigVersion (s : State) : (takeSnapshot s).sigVersion = s.sigVersion := rfl
@[simp] theorem takeSnapshot_sigChecksum (s : State) : (takeSnapshot s).sigChecksum = s.sigChecksum := rfl
@[simp] theorem takeSnapshot_edgeIrqEn (s : State) : (takeSnapshot s).edgeIrqEn = s.edgeIrqEn := rfl
@[simp] theorem takeSnapshot_tickCount (s : State) : (takeSnapshot s).tickCount = s.tickCount := rfl
@[simp] theorem takeSnapshot_sigCountdown (s : State) : (takeSnapshot s).sigCountdown = s.sigCountdown := rfl
@[simp] theorem takeSnapshot_outRemaining (s : State) : (takeSnapshot s).outRemaining = s.outRemaining := rfl
@[simp] theorem takeSnapshot_recvingSince (s : State) : (takeSnapshot s).recvingSince = s.recvingSince := rfl
@[simp] theorem takeSnapshot_wdtMissed (s : State) : (takeSnapshot s).wdtMissed = s.wdtMissed := rfl
@[simp] theorem takeSnapshot_pinSnapshotRx (s : State) : (takeSnapshot s).pinSnapshotRx = s.rxLevel := rfl
@[simp] theorem takeSnapshot_pinSnapshotCtl (s : State) : (takeSnapshot s).pinSnapshotCtl = s.ctlLevel := rfl
@[simp] theorem takeSnapshot_pcPending (s : State) : (takeSnapshot s).pcPending = false := rfl
@[simp] theorem takeSnapshot_lpPending (s : State) : (takeSnapshot s).lpPending = s.lpPending := rfl
@[simp] theorem takeSnapshot_lpCount (s : State) : (takeSnapshot s).lpCount = s.lpCount := rfl
@[simp] theorem takeSnapshot_sigActive (s : State) : (takeSnapshot s).sigActive = s.sigActive := rfl
@[simp] theorem takeSnapshot_sigRep (s : State) : (takeSnapshot s).sigRep = s.sigRep := rfl
@[simp] theorem takeSnapshot_sigPos (s : State) : (takeSnapshot s).sigPos = s.sigPos := rfl
@[simp] theorem takeSnapshot_rb (s : State) : (takeSnapshot s).rb = s.rb := rfl
@[simp] theorem takeSnapshot_rbWrite (s : State) : (takeSnapshot s).rbWrite = s.rbWrite := rfl
@[simp] theorem takeSnapshot_rbRead (s : State) : (takeSnapshot s).rbRead = s.rbRead := rfl
@[simp] theorem takeSnapshot_rbTrainStart (s : State) : (takeSnapshot s).rbTrainStart = s.rbTrainStart := rfl
@[simp] theorem takeSnapshot_trainLen (s : State) : (takeSnapshot s).trainLen = s.trainLen := rfl
@[simp] theorem takeSnapshot_ldShift (s : State) : (takeSnapshot s).ldShift = s.ldShift := rfl
@[simp] theorem takeSnapshot_tsIdx (s : State) : (takeSnapshot s).tsIdx = s.tsIdx := rfl
@[simp] theorem takeSnapshot_ctlState (s : State) : (takeSnapshot s).ctlState = s.ctlState := rfl
@[simp] theorem takeSnapshot_ctlActive (s : State) : (takeSnapshot s).ctlActive = s.ctlActive := rfl
@[simp] theorem takeSnapshot_ctlCount (s : State) : (takeSnapshot s).ctlCount = s.ctlCount := rfl
@[simp] theorem takeSnapshot_ctlValue (s : State) : (takeSnapshot s).ctlValue = s.ctlValue := rfl
@[simp] theorem takeSnapshot_ctlPressTick (s : State) : (takeSnapshot s).ctlPressTick = s.ctlPressTick := rfl
@[simp] theorem takeSnapshot_ctlReleaseTick (s : State) : (takeSnapshot s).ctlReleaseTick = s.ctlReleaseTick := rfl
@[simp] theorem takeSnapshot_nv (s : State) : (takeSnapshot s).nv = s.nv := rfl
@[simp] theorem takeSnapshot_log (s : State) : (takeSnapshot s).log = s.log := rfl
@[simp] theorem takeSnapshot_faultWdt (s : State) : (takeSnapshot s).faultWdt = s.faultWdt := rfl
@[simp] theorem takeSnapshot_refused (s : State) : (takeSnapshot s).refused = s.refused := rfl
@[simp] theorem takeSnapshot_outTrace (s : State) : (takeSnapshot s).outTrace = s.outTrace := rfl
@[simp] theorem takeSnapshot_trace (s : State) : (takeSnapshot s).trace = s.trace := rfl
@[simp] theorem takeSnapshot_envIndex (s : State) : (takeSnapshot s).envIndex = s.envIndex := rfl

/-! ## startSignature: the start of a signature -/

@[simp] theorem startSignature_par (s : State) : (startSignature s).par = s.par := rfl
@[simp] theorem startSignature_rxLevel (s : State) : (startSignature s).rxLevel = s.rxLevel := rfl
@[simp] theorem startSignature_ctlLevel (s : State) : (startSignature s).ctlLevel = s.ctlLevel := rfl
@[simp] theorem startSignature_outLevel (s : State) : (startSignature s).outLevel = s.outLevel := rfl
@[simp] theorem startSignature_cfgFilter (s : State) : (startSignature s).cfgFilter = s.cfgFilter := rfl
@[simp] theorem startSignature_cfgLowpass (s : State) : (startSignature s).cfgLowpass = s.cfgLowpass := rfl
@[simp] theorem startSignature_cfgNvsum (s : State) : (startSignature s).cfgNvsum = s.cfgNvsum := rfl
@[simp] theorem startSignature_sigVersion (s : State) : (startSignature s).sigVersion = s.sigVersion := rfl
@[simp] theorem startSignature_sigChecksum (s : State) : (startSignature s).sigChecksum = s.sigChecksum := rfl
@[simp] theorem startSignature_edgeIrqEn (s : State) : (startSignature s).edgeIrqEn = false := rfl
@[simp] theorem startSignature_tickCount (s : State) : (startSignature s).tickCount = s.tickCount := rfl
@[simp] theorem startSignature_sigCountdown (s : State) : (startSignature s).sigCountdown = s.sigCountdown := rfl
@[simp] theorem startSignature_outRemaining (s : State) : (startSignature s).outRemaining = s.outRemaining := rfl
@[simp] theorem startSignature_recvingSince (s : State) : (startSignature s).recvingSince = s.recvingSince := rfl
@[simp] theorem startSignature_wdtMissed (s : State) : (startSignature s).wdtMissed = s.wdtMissed := rfl
@[simp] theorem startSignature_pinSnapshotRx (s : State) : (startSignature s).pinSnapshotRx = s.pinSnapshotRx := rfl
@[simp] theorem startSignature_pinSnapshotCtl (s : State) : (startSignature s).pinSnapshotCtl = s.pinSnapshotCtl := rfl
@[simp] theorem startSignature_pcPending (s : State) : (startSignature s).pcPending = s.pcPending := rfl
@[simp] theorem startSignature_lpPending (s : State) : (startSignature s).lpPending = false := rfl
@[simp] theorem startSignature_lpCount (s : State) : (startSignature s).lpCount = 0 := rfl
@[simp] theorem startSignature_sigActive (s : State) : (startSignature s).sigActive = true := rfl
@[simp] theorem startSignature_sigRep (s : State) : (startSignature s).sigRep = 0 := rfl
@[simp] theorem startSignature_sigPos (s : State) : (startSignature s).sigPos = 0 := rfl
@[simp] theorem startSignature_rb (s : State) : (startSignature s).rb = s.rb := rfl
@[simp] theorem startSignature_rbWrite (s : State) : (startSignature s).rbWrite = s.rbWrite := rfl
@[simp] theorem startSignature_rbRead (s : State) : (startSignature s).rbRead = s.rbRead := rfl
@[simp] theorem startSignature_rbTrainStart (s : State) : (startSignature s).rbTrainStart = s.rbTrainStart := rfl
@[simp] theorem startSignature_trainLen (s : State) : (startSignature s).trainLen = s.trainLen := rfl
@[simp] theorem startSignature_ldShift (s : State) : (startSignature s).ldShift = s.ldShift := rfl
@[simp] theorem startSignature_tsIdx (s : State) : (startSignature s).tsIdx = s.tsIdx := rfl
@[simp] theorem startSignature_ctlState (s : State) : (startSignature s).ctlState = s.ctlState := rfl
@[simp] theorem startSignature_ctlActive (s : State) : (startSignature s).ctlActive = s.ctlActive := rfl
@[simp] theorem startSignature_ctlCount (s : State) : (startSignature s).ctlCount = s.ctlCount := rfl
@[simp] theorem startSignature_ctlValue (s : State) : (startSignature s).ctlValue = s.ctlValue := rfl
@[simp] theorem startSignature_ctlPressTick (s : State) : (startSignature s).ctlPressTick = s.ctlPressTick := rfl
@[simp] theorem startSignature_ctlReleaseTick (s : State) : (startSignature s).ctlReleaseTick = s.ctlReleaseTick := rfl
@[simp] theorem startSignature_nv (s : State) : (startSignature s).nv = s.nv := rfl
@[simp] theorem startSignature_log (s : State) : (startSignature s).log = s.log := rfl
@[simp] theorem startSignature_faultWdt (s : State) : (startSignature s).faultWdt = s.faultWdt := rfl
@[simp] theorem startSignature_refused (s : State) : (startSignature s).refused = s.refused := rfl
@[simp] theorem startSignature_outTrace (s : State) : (startSignature s).outTrace = s.outTrace := rfl
@[simp] theorem startSignature_trace (s : State) : (startSignature s).trace = s.trace := rfl
@[simp] theorem startSignature_envIndex (s : State) : (startSignature s).envIndex = s.envIndex := rfl

/-! ## endSignature: the end of a signature -/

@[simp] theorem endSignature_par (s : State) : (endSignature s).par = s.par := rfl
@[simp] theorem endSignature_rxLevel (s : State) : (endSignature s).rxLevel = s.rxLevel := rfl
@[simp] theorem endSignature_ctlLevel (s : State) : (endSignature s).ctlLevel = s.ctlLevel := rfl
@[simp] theorem endSignature_outLevel (s : State) : (endSignature s).outLevel = s.outLevel := rfl
@[simp] theorem endSignature_cfgFilter (s : State) : (endSignature s).cfgFilter = s.cfgFilter := rfl
@[simp] theorem endSignature_cfgLowpass (s : State) : (endSignature s).cfgLowpass = s.cfgLowpass := rfl
@[simp] theorem endSignature_cfgNvsum (s : State) : (endSignature s).cfgNvsum = s.cfgNvsum := rfl
@[simp] theorem endSignature_sigVersion (s : State) : (endSignature s).sigVersion = s.sigVersion := rfl
@[simp] theorem endSignature_sigChecksum (s : State) : (endSignature s).sigChecksum = s.sigChecksum := rfl
@[simp] theorem endSignature_edgeIrqEn (s : State) : (endSignature s).edgeIrqEn = true := rfl
@[simp] theorem endSignature_tickCount (s : State) : (endSignature s).tickCount = s.tickCount := rfl
@[simp] theorem endSignature_sigCountdown (s : State) : (endSignature s).sigCountdown = s.par.sigPeriod := rfl
@[simp] theorem endSignature_outRemaining (s : State) : (endSignature s).outRemaining = s.outRemaining := rfl
@[simp] theorem endSignature_recvingSince (s : State) : (endSignature s).recvingSince = s.recvingSince := rfl
@[simp] theorem endSignature_wdtMissed (s : State) : (endSignature s).wdtMissed = s.wdtMissed := rfl
@[simp] theorem endSignature_pinSnapshotRx (s : State) : (endSignature s).pinSnapshotRx = s.pinSnapshotRx := rfl
@[simp] theorem endSignature_pinSnapshotCtl (s : State) : (endSignature s).pinSnapshotCtl = s.pinSnapshotCtl := rfl
@[simp] theorem endSignature_pcPending (s : State) : (endSignature s).pcPending = s.pcPending := rfl
@[simp] theorem endSignature_lpPending (s : State) : (endSignature s).lpPending = s.lpPending := rfl
@[simp] theorem endSignature_lpCount (s : State) : (endSignature s).lpCount = s.lpCount := rfl
@[simp] theorem endSignature_sigActive (s : State) : (endSignature s).sigActive = false := rfl
@[simp] theorem endSignature_sigRep (s : State) : (endSignature s).sigRep = 0 := rfl
@[simp] theorem endSignature_sigPos (s : State) : (endSignature s).sigPos = 0 := rfl
@[simp] theorem endSignature_rb (s : State) : (endSignature s).rb = s.rb := rfl
@[simp] theorem endSignature_rbWrite (s : State) : (endSignature s).rbWrite = s.rbWrite := rfl
@[simp] theorem endSignature_rbRead (s : State) : (endSignature s).rbRead = s.rbRead := rfl
@[simp] theorem endSignature_rbTrainStart (s : State) : (endSignature s).rbTrainStart = s.rbTrainStart := rfl
@[simp] theorem endSignature_trainLen (s : State) : (endSignature s).trainLen = s.trainLen := rfl
@[simp] theorem endSignature_ldShift (s : State) : (endSignature s).ldShift = s.ldShift := rfl
@[simp] theorem endSignature_tsIdx (s : State) : (endSignature s).tsIdx = s.tsIdx := rfl
@[simp] theorem endSignature_ctlState (s : State) : (endSignature s).ctlState = s.ctlState := rfl
@[simp] theorem endSignature_ctlActive (s : State) : (endSignature s).ctlActive = s.ctlActive := rfl
@[simp] theorem endSignature_ctlCount (s : State) : (endSignature s).ctlCount = s.ctlCount := rfl
@[simp] theorem endSignature_ctlValue (s : State) : (endSignature s).ctlValue = s.ctlValue := rfl
@[simp] theorem endSignature_ctlPressTick (s : State) : (endSignature s).ctlPressTick = s.ctlPressTick := rfl
@[simp] theorem endSignature_ctlReleaseTick (s : State) : (endSignature s).ctlReleaseTick = s.ctlReleaseTick := rfl
@[simp] theorem endSignature_nv (s : State) : (endSignature s).nv = s.nv := rfl
@[simp] theorem endSignature_log (s : State) : (endSignature s).log = s.log := rfl
@[simp] theorem endSignature_faultWdt (s : State) : (endSignature s).faultWdt = s.faultWdt := rfl
@[simp] theorem endSignature_refused (s : State) : (endSignature s).refused = s.refused := rfl
@[simp] theorem endSignature_outTrace (s : State) : (endSignature s).outTrace = s.outTrace := rfl
@[simp] theorem endSignature_trace (s : State) : (endSignature s).trace = s.trace := rfl
@[simp] theorem endSignature_envIndex (s : State) : (endSignature s).envIndex = s.envIndex := rfl

/-! ## lowpassArm: an armed deferral -/

@[simp] theorem lowpassArm_par (s : State) : (lowpassArm s).par = s.par := rfl
@[simp] theorem lowpassArm_rxLevel (s : State) : (lowpassArm s).rxLevel = s.rxLevel := rfl
@[simp] theorem lowpassArm_ctlLevel (s : State) : (lowpassArm s).ctlLevel = s.ctlLevel := rfl
@[simp] theorem lowpassArm_outLevel (s : State) : (lowpassArm s).outLevel = s.outLevel := rfl
@[simp] theorem lowpassArm_cfgFilter (s : State) : (lowpassArm s).cfgFilter = s.cfgFilter := rfl
@[simp] theorem lowpassArm_cfgLowpass (s : State) : (lowpassArm s).cfgLowpass = s.cfgLowpass := rfl
@[simp] theorem lowpassArm_cfgNvsum (s : State) : (lowpassArm s).cfgNvsum = s.cfgNvsum := rfl
@[simp] theorem lowpassArm_sigVersion (s : State) : (lowpassArm s).sigVersion = s.sigVersion := rfl
@[simp] theorem lowpassArm_sigChecksum (s : State) : (lowpassArm s).sigChecksum = s.sigChecksum := rfl
@[simp] theorem lowpassArm_edgeIrqEn (s : State) : (lowpassArm s).edgeIrqEn = s.edgeIrqEn := rfl
@[simp] theorem lowpassArm_tickCount (s : State) : (lowpassArm s).tickCount = s.tickCount := rfl
@[simp] theorem lowpassArm_sigCountdown (s : State) : (lowpassArm s).sigCountdown = s.sigCountdown := rfl
@[simp] theorem lowpassArm_outRemaining (s : State) : (lowpassArm s).outRemaining = s.outRemaining := rfl
@[simp] theorem lowpassArm_recvingSince (s : State) : (lowpassArm s).recvingSince = s.recvingSince := rfl
@[simp] theorem lowpassArm_wdtMissed (s : State) : (lowpassArm s).wdtMissed = s.wdtMissed := rfl
@[simp] theorem lowpassArm_pinSnapshotRx (s : State) : (lowpassArm s).pinSnapshotRx = s.pinSnapshotRx := rfl
@[simp] theorem lowpassArm_pinSnapshotCtl (s : State) : (lowpassArm s).pinSnapshotCtl = s.pinSnapshotCtl := rfl
@[simp] theorem lowpassArm_pcPending (s : State) : (lowpassArm s).pcPending = s.pcPending := rfl
@[simp] theorem lowpassArm_lpPending (s : State) : (lowpassArm s).lpPending = true := rfl
@[simp] theorem lowpassArm_lpCount (s : State) : (lowpassArm s).lpCount = s.par.lpDelay := rfl
@[simp] theorem lowpassArm_sigActive (s : State) : (lowpassArm s).sigActive = s.sigActive := rfl
@[simp] theorem lowpassArm_sigRep (s : State) : (lowpassArm s).sigRep = s.sigRep := rfl
@[simp] theorem lowpassArm_sigPos (s : State) : (lowpassArm s).sigPos = s.sigPos := rfl
@[simp] theorem lowpassArm_rb (s : State) : (lowpassArm s).rb = s.rb := rfl
@[simp] theorem lowpassArm_rbWrite (s : State) : (lowpassArm s).rbWrite = s.rbWrite := rfl
@[simp] theorem lowpassArm_rbRead (s : State) : (lowpassArm s).rbRead = s.rbRead := rfl
@[simp] theorem lowpassArm_rbTrainStart (s : State) : (lowpassArm s).rbTrainStart = s.rbTrainStart := rfl
@[simp] theorem lowpassArm_trainLen (s : State) : (lowpassArm s).trainLen = s.trainLen := rfl
@[simp] theorem lowpassArm_ldShift (s : State) : (lowpassArm s).ldShift = s.ldShift := rfl
@[simp] theorem lowpassArm_tsIdx (s : State) : (lowpassArm s).tsIdx = s.tsIdx := rfl
@[simp] theorem lowpassArm_ctlState (s : State) : (lowpassArm s).ctlState = s.ctlState := rfl
@[simp] theorem lowpassArm_ctlActive (s : State) : (lowpassArm s).ctlActive = s.ctlActive := rfl
@[simp] theorem lowpassArm_ctlCount (s : State) : (lowpassArm s).ctlCount = s.ctlCount := rfl
@[simp] theorem lowpassArm_ctlValue (s : State) : (lowpassArm s).ctlValue = s.ctlValue := rfl
@[simp] theorem lowpassArm_ctlPressTick (s : State) : (lowpassArm s).ctlPressTick = s.ctlPressTick := rfl
@[simp] theorem lowpassArm_ctlReleaseTick (s : State) : (lowpassArm s).ctlReleaseTick = s.ctlReleaseTick := rfl
@[simp] theorem lowpassArm_nv (s : State) : (lowpassArm s).nv = s.nv := rfl
@[simp] theorem lowpassArm_log (s : State) : (lowpassArm s).log = s.log := rfl
@[simp] theorem lowpassArm_faultWdt (s : State) : (lowpassArm s).faultWdt = s.faultWdt := rfl
@[simp] theorem lowpassArm_refused (s : State) : (lowpassArm s).refused = s.refused := rfl
@[simp] theorem lowpassArm_outTrace (s : State) : (lowpassArm s).outTrace = s.outTrace := rfl
@[simp] theorem lowpassArm_trace (s : State) : (lowpassArm s).trace = s.trace := rfl
@[simp] theorem lowpassArm_envIndex (s : State) : (lowpassArm s).envIndex = s.envIndex := rfl

/-! ## lowpassCancel: a cancelled deferral -/

@[simp] theorem lowpassCancel_par (s : State) : (lowpassCancel s).par = s.par := rfl
@[simp] theorem lowpassCancel_rxLevel (s : State) : (lowpassCancel s).rxLevel = s.rxLevel := rfl
@[simp] theorem lowpassCancel_ctlLevel (s : State) : (lowpassCancel s).ctlLevel = s.ctlLevel := rfl
@[simp] theorem lowpassCancel_outLevel (s : State) : (lowpassCancel s).outLevel = s.outLevel := rfl
@[simp] theorem lowpassCancel_cfgFilter (s : State) : (lowpassCancel s).cfgFilter = s.cfgFilter := rfl
@[simp] theorem lowpassCancel_cfgLowpass (s : State) : (lowpassCancel s).cfgLowpass = s.cfgLowpass := rfl
@[simp] theorem lowpassCancel_cfgNvsum (s : State) : (lowpassCancel s).cfgNvsum = s.cfgNvsum := rfl
@[simp] theorem lowpassCancel_sigVersion (s : State) : (lowpassCancel s).sigVersion = s.sigVersion := rfl
@[simp] theorem lowpassCancel_sigChecksum (s : State) : (lowpassCancel s).sigChecksum = s.sigChecksum := rfl
@[simp] theorem lowpassCancel_edgeIrqEn (s : State) : (lowpassCancel s).edgeIrqEn = s.edgeIrqEn := rfl
@[simp] theorem lowpassCancel_tickCount (s : State) : (lowpassCancel s).tickCount = s.tickCount := rfl
@[simp] theorem lowpassCancel_sigCountdown (s : State) : (lowpassCancel s).sigCountdown = s.sigCountdown := rfl
@[simp] theorem lowpassCancel_outRemaining (s : State) : (lowpassCancel s).outRemaining = s.outRemaining := rfl
@[simp] theorem lowpassCancel_recvingSince (s : State) : (lowpassCancel s).recvingSince = s.recvingSince := rfl
@[simp] theorem lowpassCancel_wdtMissed (s : State) : (lowpassCancel s).wdtMissed = s.wdtMissed := rfl
@[simp] theorem lowpassCancel_pinSnapshotRx (s : State) : (lowpassCancel s).pinSnapshotRx = s.pinSnapshotRx := rfl
@[simp] theorem lowpassCancel_pinSnapshotCtl (s : State) : (lowpassCancel s).pinSnapshotCtl = s.pinSnapshotCtl := rfl
@[simp] theorem lowpassCancel_pcPending (s : State) : (lowpassCancel s).pcPending = s.pcPending := rfl
@[simp] theorem lowpassCancel_lpPending (s : State) : (lowpassCancel s).lpPending = false := rfl
@[simp] theorem lowpassCancel_lpCount (s : State) : (lowpassCancel s).lpCount = 0 := rfl
@[simp] theorem lowpassCancel_sigActive (s : State) : (lowpassCancel s).sigActive = s.sigActive := rfl
@[simp] theorem lowpassCancel_sigRep (s : State) : (lowpassCancel s).sigRep = s.sigRep := rfl
@[simp] theorem lowpassCancel_sigPos (s : State) : (lowpassCancel s).sigPos = s.sigPos := rfl
@[simp] theorem lowpassCancel_rb (s : State) : (lowpassCancel s).rb = s.rb := rfl
@[simp] theorem lowpassCancel_rbWrite (s : State) : (lowpassCancel s).rbWrite = s.rbWrite := rfl
@[simp] theorem lowpassCancel_rbRead (s : State) : (lowpassCancel s).rbRead = s.rbRead := rfl
@[simp] theorem lowpassCancel_rbTrainStart (s : State) : (lowpassCancel s).rbTrainStart = s.rbTrainStart := rfl
@[simp] theorem lowpassCancel_trainLen (s : State) : (lowpassCancel s).trainLen = s.trainLen := rfl
@[simp] theorem lowpassCancel_ldShift (s : State) : (lowpassCancel s).ldShift = s.ldShift := rfl
@[simp] theorem lowpassCancel_tsIdx (s : State) : (lowpassCancel s).tsIdx = s.tsIdx := rfl
@[simp] theorem lowpassCancel_ctlState (s : State) : (lowpassCancel s).ctlState = s.ctlState := rfl
@[simp] theorem lowpassCancel_ctlActive (s : State) : (lowpassCancel s).ctlActive = s.ctlActive := rfl
@[simp] theorem lowpassCancel_ctlCount (s : State) : (lowpassCancel s).ctlCount = s.ctlCount := rfl
@[simp] theorem lowpassCancel_ctlValue (s : State) : (lowpassCancel s).ctlValue = s.ctlValue := rfl
@[simp] theorem lowpassCancel_ctlPressTick (s : State) : (lowpassCancel s).ctlPressTick = s.ctlPressTick := rfl
@[simp] theorem lowpassCancel_ctlReleaseTick (s : State) : (lowpassCancel s).ctlReleaseTick = s.ctlReleaseTick := rfl
@[simp] theorem lowpassCancel_nv (s : State) : (lowpassCancel s).nv = s.nv := rfl
@[simp] theorem lowpassCancel_log (s : State) : (lowpassCancel s).log = s.log ++ [.spikeCancelled s.tickCount] := rfl
@[simp] theorem lowpassCancel_faultWdt (s : State) : (lowpassCancel s).faultWdt = s.faultWdt := rfl
@[simp] theorem lowpassCancel_refused (s : State) : (lowpassCancel s).refused = s.refused := rfl
@[simp] theorem lowpassCancel_outTrace (s : State) : (lowpassCancel s).outTrace = s.outTrace := rfl
@[simp] theorem lowpassCancel_trace (s : State) : (lowpassCancel s).trace = s.trace := rfl
@[simp] theorem lowpassCancel_envIndex (s : State) : (lowpassCancel s).envIndex = s.envIndex := rfl

/-! ## tickPrologue: steps 1, 2 and the decrement of step 3 of a tick -/

@[simp] theorem tickPrologue_par (s : State) : (tickPrologue s).par = s.par := rfl
@[simp] theorem tickPrologue_rxLevel (s : State) : (tickPrologue s).rxLevel = s.rxLevel := rfl
@[simp] theorem tickPrologue_ctlLevel (s : State) : (tickPrologue s).ctlLevel = s.ctlLevel := rfl
@[simp] theorem tickPrologue_outLevel (s : State) : (tickPrologue s).outLevel = s.outLevel := rfl
@[simp] theorem tickPrologue_cfgFilter (s : State) : (tickPrologue s).cfgFilter = s.cfgFilter := rfl
@[simp] theorem tickPrologue_cfgLowpass (s : State) : (tickPrologue s).cfgLowpass = s.cfgLowpass := rfl
@[simp] theorem tickPrologue_cfgNvsum (s : State) : (tickPrologue s).cfgNvsum = s.cfgNvsum := rfl
@[simp] theorem tickPrologue_sigVersion (s : State) : (tickPrologue s).sigVersion = s.sigVersion := rfl
@[simp] theorem tickPrologue_sigChecksum (s : State) : (tickPrologue s).sigChecksum = s.sigChecksum := rfl
@[simp] theorem tickPrologue_edgeIrqEn (s : State) : (tickPrologue s).edgeIrqEn = s.edgeIrqEn := rfl
@[simp] theorem tickPrologue_tickCount (s : State) : (tickPrologue s).tickCount = s.tickCount + 1 := rfl
@[simp] theorem tickPrologue_sigCountdown (s : State) : (tickPrologue s).sigCountdown = s.sigCountdown - 1 := rfl
@[simp] theorem tickPrologue_outRemaining (s : State) : (tickPrologue s).outRemaining = if s.outRemaining = 0 then 0 else s.outRemaining - 1 := rfl
@[simp] theorem tickPrologue_recvingSince (s : State) : (tickPrologue s).recvingSince = saturatingTick s.recvingSince := rfl
@[simp] theorem tickPrologue_wdtMissed (s : State) : (tickPrologue s).wdtMissed = 0 := rfl
@[simp] theorem tickPrologue_pinSnapshotRx (s : State) : (tickPrologue s).pinSnapshotRx = s.pinSnapshotRx := rfl
@[simp] theorem tickPrologue_pinSnapshotCtl (s : State) : (tickPrologue s).pinSnapshotCtl = s.pinSnapshotCtl := rfl
@[simp] theorem tickPrologue_pcPending (s : State) : (tickPrologue s).pcPending = s.pcPending := rfl
@[simp] theorem tickPrologue_lpPending (s : State) : (tickPrologue s).lpPending = s.lpPending := rfl
@[simp] theorem tickPrologue_lpCount (s : State) : (tickPrologue s).lpCount = s.lpCount := rfl
@[simp] theorem tickPrologue_sigActive (s : State) : (tickPrologue s).sigActive = s.sigActive := rfl
@[simp] theorem tickPrologue_sigRep (s : State) : (tickPrologue s).sigRep = s.sigRep := rfl
@[simp] theorem tickPrologue_sigPos (s : State) : (tickPrologue s).sigPos = s.sigPos := rfl
@[simp] theorem tickPrologue_rb (s : State) : (tickPrologue s).rb = s.rb := rfl
@[simp] theorem tickPrologue_rbWrite (s : State) : (tickPrologue s).rbWrite = s.rbWrite := rfl
@[simp] theorem tickPrologue_rbRead (s : State) : (tickPrologue s).rbRead = s.rbRead := rfl
@[simp] theorem tickPrologue_rbTrainStart (s : State) : (tickPrologue s).rbTrainStart = s.rbTrainStart := rfl
@[simp] theorem tickPrologue_trainLen (s : State) : (tickPrologue s).trainLen = s.trainLen := rfl
@[simp] theorem tickPrologue_ldShift (s : State) : (tickPrologue s).ldShift = s.ldShift := rfl
@[simp] theorem tickPrologue_tsIdx (s : State) : (tickPrologue s).tsIdx = s.tsIdx := rfl
@[simp] theorem tickPrologue_ctlState (s : State) : (tickPrologue s).ctlState = s.ctlState := rfl
@[simp] theorem tickPrologue_ctlActive (s : State) : (tickPrologue s).ctlActive = s.ctlActive := rfl
@[simp] theorem tickPrologue_ctlCount (s : State) : (tickPrologue s).ctlCount = s.ctlCount := rfl
@[simp] theorem tickPrologue_ctlValue (s : State) : (tickPrologue s).ctlValue = s.ctlValue := rfl
@[simp] theorem tickPrologue_ctlPressTick (s : State) : (tickPrologue s).ctlPressTick = s.ctlPressTick := rfl
@[simp] theorem tickPrologue_ctlReleaseTick (s : State) : (tickPrologue s).ctlReleaseTick = s.ctlReleaseTick := rfl
@[simp] theorem tickPrologue_nv (s : State) : (tickPrologue s).nv = s.nv := rfl
@[simp] theorem tickPrologue_log (s : State) : (tickPrologue s).log = s.log := rfl
@[simp] theorem tickPrologue_faultWdt (s : State) : (tickPrologue s).faultWdt = s.faultWdt := rfl
@[simp] theorem tickPrologue_refused (s : State) : (tickPrologue s).refused = s.refused := rfl
@[simp] theorem tickPrologue_outTrace (s : State) : (tickPrologue s).outTrace = s.outTrace := rfl
@[simp] theorem tickPrologue_trace (s : State) : (tickPrologue s).trace = s.trace := rfl
@[simp] theorem tickPrologue_envIndex (s : State) : (tickPrologue s).envIndex = s.envIndex := rfl

/-! ## countMiss: a missed tick -/

@[simp] theorem countMiss_par (s : State) : (countMiss s).par = s.par := rfl
@[simp] theorem countMiss_rxLevel (s : State) : (countMiss s).rxLevel = s.rxLevel := rfl
@[simp] theorem countMiss_ctlLevel (s : State) : (countMiss s).ctlLevel = s.ctlLevel := rfl
@[simp] theorem countMiss_outLevel (s : State) : (countMiss s).outLevel = s.outLevel := rfl
@[simp] theorem countMiss_cfgFilter (s : State) : (countMiss s).cfgFilter = s.cfgFilter := rfl
@[simp] theorem countMiss_cfgLowpass (s : State) : (countMiss s).cfgLowpass = s.cfgLowpass := rfl
@[simp] theorem countMiss_cfgNvsum (s : State) : (countMiss s).cfgNvsum = s.cfgNvsum := rfl
@[simp] theorem countMiss_sigVersion (s : State) : (countMiss s).sigVersion = s.sigVersion := rfl
@[simp] theorem countMiss_sigChecksum (s : State) : (countMiss s).sigChecksum = s.sigChecksum := rfl
@[simp] theorem countMiss_edgeIrqEn (s : State) : (countMiss s).edgeIrqEn = s.edgeIrqEn := rfl
@[simp] theorem countMiss_tickCount (s : State) : (countMiss s).tickCount = s.tickCount := rfl
@[simp] theorem countMiss_sigCountdown (s : State) : (countMiss s).sigCountdown = s.sigCountdown := rfl
@[simp] theorem countMiss_outRemaining (s : State) : (countMiss s).outRemaining = s.outRemaining := rfl
@[simp] theorem countMiss_recvingSince (s : State) : (countMiss s).recvingSince = s.recvingSince := rfl
@[simp] theorem countMiss_wdtMissed (s : State) : (countMiss s).wdtMissed = s.wdtMissed + 1 := rfl
@[simp] theorem countMiss_pinSnapshotRx (s : State) : (countMiss s).pinSnapshotRx = s.pinSnapshotRx := rfl
@[simp] theorem countMiss_pinSnapshotCtl (s : State) : (countMiss s).pinSnapshotCtl = s.pinSnapshotCtl := rfl
@[simp] theorem countMiss_pcPending (s : State) : (countMiss s).pcPending = s.pcPending := rfl
@[simp] theorem countMiss_lpPending (s : State) : (countMiss s).lpPending = s.lpPending := rfl
@[simp] theorem countMiss_lpCount (s : State) : (countMiss s).lpCount = s.lpCount := rfl
@[simp] theorem countMiss_sigActive (s : State) : (countMiss s).sigActive = s.sigActive := rfl
@[simp] theorem countMiss_sigRep (s : State) : (countMiss s).sigRep = s.sigRep := rfl
@[simp] theorem countMiss_sigPos (s : State) : (countMiss s).sigPos = s.sigPos := rfl
@[simp] theorem countMiss_rb (s : State) : (countMiss s).rb = s.rb := rfl
@[simp] theorem countMiss_rbWrite (s : State) : (countMiss s).rbWrite = s.rbWrite := rfl
@[simp] theorem countMiss_rbRead (s : State) : (countMiss s).rbRead = s.rbRead := rfl
@[simp] theorem countMiss_rbTrainStart (s : State) : (countMiss s).rbTrainStart = s.rbTrainStart := rfl
@[simp] theorem countMiss_trainLen (s : State) : (countMiss s).trainLen = s.trainLen := rfl
@[simp] theorem countMiss_ldShift (s : State) : (countMiss s).ldShift = s.ldShift := rfl
@[simp] theorem countMiss_tsIdx (s : State) : (countMiss s).tsIdx = s.tsIdx := rfl
@[simp] theorem countMiss_ctlState (s : State) : (countMiss s).ctlState = s.ctlState := rfl
@[simp] theorem countMiss_ctlActive (s : State) : (countMiss s).ctlActive = s.ctlActive := rfl
@[simp] theorem countMiss_ctlCount (s : State) : (countMiss s).ctlCount = s.ctlCount := rfl
@[simp] theorem countMiss_ctlValue (s : State) : (countMiss s).ctlValue = s.ctlValue := rfl
@[simp] theorem countMiss_ctlPressTick (s : State) : (countMiss s).ctlPressTick = s.ctlPressTick := rfl
@[simp] theorem countMiss_ctlReleaseTick (s : State) : (countMiss s).ctlReleaseTick = s.ctlReleaseTick := rfl
@[simp] theorem countMiss_nv (s : State) : (countMiss s).nv = s.nv := rfl
@[simp] theorem countMiss_log (s : State) : (countMiss s).log = s.log := rfl
@[simp] theorem countMiss_faultWdt (s : State) : (countMiss s).faultWdt = s.faultWdt := rfl
@[simp] theorem countMiss_refused (s : State) : (countMiss s).refused = s.refused := rfl
@[simp] theorem countMiss_outTrace (s : State) : (countMiss s).outTrace = s.outTrace := rfl
@[simp] theorem countMiss_trace (s : State) : (countMiss s).trace = s.trace := rfl
@[simp] theorem countMiss_envIndex (s : State) : (countMiss s).envIndex = s.envIndex := rfl

/-! ## placeEvent: a placed event word -/

@[simp] theorem placeEvent_par (w : Byte) (s : State) : (placeEvent w s).par = s.par := rfl
@[simp] theorem placeEvent_rxLevel (w : Byte) (s : State) : (placeEvent w s).rxLevel = s.rxLevel := rfl
@[simp] theorem placeEvent_ctlLevel (w : Byte) (s : State) : (placeEvent w s).ctlLevel = s.ctlLevel := rfl
@[simp] theorem placeEvent_outLevel (w : Byte) (s : State) : (placeEvent w s).outLevel = s.outLevel := rfl
@[simp] theorem placeEvent_cfgFilter (w : Byte) (s : State) : (placeEvent w s).cfgFilter = s.cfgFilter := rfl
@[simp] theorem placeEvent_cfgLowpass (w : Byte) (s : State) : (placeEvent w s).cfgLowpass = s.cfgLowpass := rfl
@[simp] theorem placeEvent_cfgNvsum (w : Byte) (s : State) : (placeEvent w s).cfgNvsum = s.cfgNvsum := rfl
@[simp] theorem placeEvent_sigVersion (w : Byte) (s : State) : (placeEvent w s).sigVersion = s.sigVersion := rfl
@[simp] theorem placeEvent_sigChecksum (w : Byte) (s : State) : (placeEvent w s).sigChecksum = s.sigChecksum := rfl
@[simp] theorem placeEvent_edgeIrqEn (w : Byte) (s : State) : (placeEvent w s).edgeIrqEn = s.edgeIrqEn := rfl
@[simp] theorem placeEvent_tickCount (w : Byte) (s : State) : (placeEvent w s).tickCount = s.tickCount := rfl
@[simp] theorem placeEvent_sigCountdown (w : Byte) (s : State) : (placeEvent w s).sigCountdown = s.sigCountdown := rfl
@[simp] theorem placeEvent_outRemaining (w : Byte) (s : State) : (placeEvent w s).outRemaining = s.outRemaining := rfl
@[simp] theorem placeEvent_recvingSince (w : Byte) (s : State) : (placeEvent w s).recvingSince = s.recvingSince := rfl
@[simp] theorem placeEvent_wdtMissed (w : Byte) (s : State) : (placeEvent w s).wdtMissed = s.wdtMissed := rfl
@[simp] theorem placeEvent_pinSnapshotRx (w : Byte) (s : State) : (placeEvent w s).pinSnapshotRx = s.pinSnapshotRx := rfl
@[simp] theorem placeEvent_pinSnapshotCtl (w : Byte) (s : State) : (placeEvent w s).pinSnapshotCtl = s.pinSnapshotCtl := rfl
@[simp] theorem placeEvent_pcPending (w : Byte) (s : State) : (placeEvent w s).pcPending = s.pcPending := rfl
@[simp] theorem placeEvent_lpPending (w : Byte) (s : State) : (placeEvent w s).lpPending = s.lpPending := rfl
@[simp] theorem placeEvent_lpCount (w : Byte) (s : State) : (placeEvent w s).lpCount = s.lpCount := rfl
@[simp] theorem placeEvent_sigActive (w : Byte) (s : State) : (placeEvent w s).sigActive = s.sigActive := rfl
@[simp] theorem placeEvent_sigRep (w : Byte) (s : State) : (placeEvent w s).sigRep = s.sigRep := rfl
@[simp] theorem placeEvent_sigPos (w : Byte) (s : State) : (placeEvent w s).sigPos = s.sigPos := rfl
@[simp] theorem placeEvent_rb (w : Byte) (s : State) : (placeEvent w s).rb = s.rb := rfl
@[simp] theorem placeEvent_rbWrite (w : Byte) (s : State) : (placeEvent w s).rbWrite = s.rbWrite := rfl
@[simp] theorem placeEvent_rbRead (w : Byte) (s : State) : (placeEvent w s).rbRead = s.rbRead := rfl
@[simp] theorem placeEvent_rbTrainStart (w : Byte) (s : State) : (placeEvent w s).rbTrainStart = s.rbTrainStart := rfl
@[simp] theorem placeEvent_trainLen (w : Byte) (s : State) : (placeEvent w s).trainLen = s.trainLen := rfl
@[simp] theorem placeEvent_ldShift (w : Byte) (s : State) : (placeEvent w s).ldShift = s.ldShift := rfl
@[simp] theorem placeEvent_tsIdx (w : Byte) (s : State) : (placeEvent w s).tsIdx = s.tsIdx := rfl
@[simp] theorem placeEvent_ctlState (w : Byte) (s : State) : (placeEvent w s).ctlState = s.ctlState := rfl
@[simp] theorem placeEvent_ctlActive (w : Byte) (s : State) : (placeEvent w s).ctlActive = s.ctlActive := rfl
@[simp] theorem placeEvent_ctlCount (w : Byte) (s : State) : (placeEvent w s).ctlCount = s.ctlCount := rfl
@[simp] theorem placeEvent_ctlValue (w : Byte) (s : State) : (placeEvent w s).ctlValue = s.ctlValue := rfl
@[simp] theorem placeEvent_ctlPressTick (w : Byte) (s : State) : (placeEvent w s).ctlPressTick = s.ctlPressTick := rfl
@[simp] theorem placeEvent_ctlReleaseTick (w : Byte) (s : State) : (placeEvent w s).ctlReleaseTick = s.ctlReleaseTick := rfl
@[simp] theorem placeEvent_nv (w : Byte) (s : State) : (placeEvent w s).nv = s.nv := rfl
@[simp] theorem placeEvent_log (w : Byte) (s : State) : (placeEvent w s).log = s.log := rfl
@[simp] theorem placeEvent_faultWdt (w : Byte) (s : State) : (placeEvent w s).faultWdt = s.faultWdt := rfl
@[simp] theorem placeEvent_refused (w : Byte) (s : State) : (placeEvent w s).refused = s.refused := rfl
@[simp] theorem placeEvent_outTrace (w : Byte) (s : State) : (placeEvent w s).outTrace = s.outTrace := rfl
@[simp] theorem placeEvent_trace (w : Byte) (s : State) : (placeEvent w s).trace = w :: s.trace := rfl
@[simp] theorem placeEvent_envIndex (w : Byte) (s : State) : (placeEvent w s).envIndex = s.envIndex := rfl

/-! ## clearEngine: the writes of a reset before its boot load -/

@[simp] theorem clearEngine_par (s : State) : (clearEngine s).par = s.par := rfl
@[simp] theorem clearEngine_rxLevel (s : State) : (clearEngine s).rxLevel = s.rxLevel := rfl
@[simp] theorem clearEngine_ctlLevel (s : State) : (clearEngine s).ctlLevel = s.ctlLevel := rfl
@[simp] theorem clearEngine_outLevel (s : State) : (clearEngine s).outLevel = false := rfl
@[simp] theorem clearEngine_cfgFilter (s : State) : (clearEngine s).cfgFilter = s.cfgFilter := rfl
@[simp] theorem clearEngine_cfgLowpass (s : State) : (clearEngine s).cfgLowpass = s.cfgLowpass := rfl
@[simp] theorem clearEngine_cfgNvsum (s : State) : (clearEngine s).cfgNvsum = s.cfgNvsum := rfl
@[simp] theorem clearEngine_sigVersion (s : State) : (clearEngine s).sigVersion = s.sigVersion := rfl
@[simp] theorem clearEngine_sigChecksum (s : State) : (clearEngine s).sigChecksum = s.sigChecksum := rfl
@[simp] theorem clearEngine_edgeIrqEn (s : State) : (clearEngine s).edgeIrqEn = true := rfl
@[simp] theorem clearEngine_tickCount (s : State) : (clearEngine s).tickCount = 0 := rfl
@[simp] theorem clearEngine_sigCountdown (s : State) : (clearEngine s).sigCountdown = s.par.sigInitial := rfl
@[simp] theorem clearEngine_outRemaining (s : State) : (clearEngine s).outRemaining = 0 := rfl
@[simp] theorem clearEngine_recvingSince (s : State) : (clearEngine s).recvingSince = 0 := rfl
@[simp] theorem clearEngine_wdtMissed (s : State) : (clearEngine s).wdtMissed = 0 := rfl
@[simp] theorem clearEngine_pinSnapshotRx (s : State) : (clearEngine s).pinSnapshotRx = s.rxLevel := rfl
@[simp] theorem clearEngine_pinSnapshotCtl (s : State) : (clearEngine s).pinSnapshotCtl = s.ctlLevel := rfl
@[simp] theorem clearEngine_pcPending (s : State) : (clearEngine s).pcPending = false := rfl
@[simp] theorem clearEngine_lpPending (s : State) : (clearEngine s).lpPending = false := rfl
@[simp] theorem clearEngine_lpCount (s : State) : (clearEngine s).lpCount = 0 := rfl
@[simp] theorem clearEngine_sigActive (s : State) : (clearEngine s).sigActive = false := rfl
@[simp] theorem clearEngine_sigRep (s : State) : (clearEngine s).sigRep = 0 := rfl
@[simp] theorem clearEngine_sigPos (s : State) : (clearEngine s).sigPos = 0 := rfl
@[simp] theorem clearEngine_rb (s : State) : (clearEngine s).rb = [] := rfl
@[simp] theorem clearEngine_rbWrite (s : State) : (clearEngine s).rbWrite = 0 := rfl
@[simp] theorem clearEngine_rbRead (s : State) : (clearEngine s).rbRead = 0 := rfl
@[simp] theorem clearEngine_rbTrainStart (s : State) : (clearEngine s).rbTrainStart = 0 := rfl
@[simp] theorem clearEngine_trainLen (s : State) : (clearEngine s).trainLen = 0 := rfl
@[simp] theorem clearEngine_ldShift (s : State) : (clearEngine s).ldShift = 0 := rfl
@[simp] theorem clearEngine_tsIdx (s : State) : (clearEngine s).tsIdx = 0 := rfl
@[simp] theorem clearEngine_ctlState (s : State) : (clearEngine s).ctlState = .idle := rfl
@[simp] theorem clearEngine_ctlActive (s : State) : (clearEngine s).ctlActive = false := rfl
@[simp] theorem clearEngine_ctlCount (s : State) : (clearEngine s).ctlCount = 0 := rfl
@[simp] theorem clearEngine_ctlValue (s : State) : (clearEngine s).ctlValue = 0 := rfl
@[simp] theorem clearEngine_ctlPressTick (s : State) : (clearEngine s).ctlPressTick = 0 := rfl
@[simp] theorem clearEngine_ctlReleaseTick (s : State) : (clearEngine s).ctlReleaseTick = 0 := rfl
@[simp] theorem clearEngine_nv (s : State) : (clearEngine s).nv = s.nv := rfl
@[simp] theorem clearEngine_log (s : State) : (clearEngine s).log = s.log := rfl
@[simp] theorem clearEngine_faultWdt (s : State) : (clearEngine s).faultWdt = s.faultWdt := rfl
@[simp] theorem clearEngine_refused (s : State) : (clearEngine s).refused = s.refused := rfl
@[simp] theorem clearEngine_outTrace (s : State) : (clearEngine s).outTrace = s.outTrace ++ [(s.tickCount, false)] := rfl
@[simp] theorem clearEngine_trace (s : State) : (clearEngine s).trace = s.trace := rfl
@[simp] theorem clearEngine_envIndex (s : State) : (clearEngine s).envIndex = s.envIndex := rfl

end Sys2Proof.Machine
end

