-- ==== Sys2Proof/Laws/Frames.lean ====
section
/-!
SUPPORT. The frames of the composite operations: for each, one lemma per field it never writes. They say once, for every path
through the operation, what it leaves alone.
-/

namespace Sys2Proof.Machine

@[simp] theorem nopApply_eq (pc : Bool) (s : State) : nopApply pc s = s := rfl

/-! ## testsigApply: Test-Signal -/

@[simp] theorem testsigApply_par (pc : Bool) (s : State) : (testsigApply pc s).par = s.par := by cases pc <;> rfl
@[simp] theorem testsigApply_rxLevel (pc : Bool) (s : State) : (testsigApply pc s).rxLevel = s.rxLevel := by cases pc <;> rfl
@[simp] theorem testsigApply_ctlLevel (pc : Bool) (s : State) : (testsigApply pc s).ctlLevel = s.ctlLevel := by cases pc <;> rfl
@[simp] theorem testsigApply_cfgFilter (pc : Bool) (s : State) : (testsigApply pc s).cfgFilter = s.cfgFilter := by cases pc <;> rfl
@[simp] theorem testsigApply_cfgLowpass (pc : Bool) (s : State) : (testsigApply pc s).cfgLowpass = s.cfgLowpass := by cases pc <;> rfl
@[simp] theorem testsigApply_cfgNvsum (pc : Bool) (s : State) : (testsigApply pc s).cfgNvsum = s.cfgNvsum := by cases pc <;> rfl
@[simp] theorem testsigApply_sigVersion (pc : Bool) (s : State) : (testsigApply pc s).sigVersion = s.sigVersion := by cases pc <;> rfl
@[simp] theorem testsigApply_sigChecksum (pc : Bool) (s : State) : (testsigApply pc s).sigChecksum = s.sigChecksum := by cases pc <;> rfl
@[simp] theorem testsigApply_edgeIrqEn (pc : Bool) (s : State) : (testsigApply pc s).edgeIrqEn = s.edgeIrqEn := by cases pc <;> rfl
@[simp] theorem testsigApply_tickCount (pc : Bool) (s : State) : (testsigApply pc s).tickCount = s.tickCount := by cases pc <;> rfl
@[simp] theorem testsigApply_sigCountdown (pc : Bool) (s : State) : (testsigApply pc s).sigCountdown = s.sigCountdown := by cases pc <;> rfl
@[simp] theorem testsigApply_recvingSince (pc : Bool) (s : State) : (testsigApply pc s).recvingSince = s.recvingSince := by cases pc <;> rfl
@[simp] theorem testsigApply_wdtMissed (pc : Bool) (s : State) : (testsigApply pc s).wdtMissed = s.wdtMissed := by cases pc <;> rfl
@[simp] theorem testsigApply_pinSnapshotRx (pc : Bool) (s : State) : (testsigApply pc s).pinSnapshotRx = s.pinSnapshotRx := by cases pc <;> rfl
@[simp] theorem testsigApply_pinSnapshotCtl (pc : Bool) (s : State) : (testsigApply pc s).pinSnapshotCtl = s.pinSnapshotCtl := by cases pc <;> rfl
@[simp] theorem testsigApply_pcPending (pc : Bool) (s : State) : (testsigApply pc s).pcPending = s.pcPending := by cases pc <;> rfl
@[simp] theorem testsigApply_lpPending (pc : Bool) (s : State) : (testsigApply pc s).lpPending = s.lpPending := by cases pc <;> rfl
@[simp] theorem testsigApply_lpCount (pc : Bool) (s : State) : (testsigApply pc s).lpCount = s.lpCount := by cases pc <;> rfl
@[simp] theorem testsigApply_sigActive (pc : Bool) (s : State) : (testsigApply pc s).sigActive = s.sigActive := by cases pc <;> rfl
@[simp] theorem testsigApply_sigRep (pc : Bool) (s : State) : (testsigApply pc s).sigRep = s.sigRep := by cases pc <;> rfl
@[simp] theorem testsigApply_sigPos (pc : Bool) (s : State) : (testsigApply pc s).sigPos = s.sigPos := by cases pc <;> rfl
@[simp] theorem testsigApply_rb (pc : Bool) (s : State) : (testsigApply pc s).rb = s.rb := by cases pc <;> rfl
@[simp] theorem testsigApply_rbWrite (pc : Bool) (s : State) : (testsigApply pc s).rbWrite = s.rbWrite := by cases pc <;> rfl
@[simp] theorem testsigApply_rbRead (pc : Bool) (s : State) : (testsigApply pc s).rbRead = s.rbRead := by cases pc <;> rfl
@[simp] theorem testsigApply_rbTrainStart (pc : Bool) (s : State) : (testsigApply pc s).rbTrainStart = s.rbTrainStart := by cases pc <;> rfl
@[simp] theorem testsigApply_trainLen (pc : Bool) (s : State) : (testsigApply pc s).trainLen = s.trainLen := by cases pc <;> rfl
@[simp] theorem testsigApply_ldShift (pc : Bool) (s : State) : (testsigApply pc s).ldShift = s.ldShift := by cases pc <;> rfl
@[simp] theorem testsigApply_ctlState (pc : Bool) (s : State) : (testsigApply pc s).ctlState = s.ctlState := by cases pc <;> rfl
@[simp] theorem testsigApply_ctlActive (pc : Bool) (s : State) : (testsigApply pc s).ctlActive = s.ctlActive := by cases pc <;> rfl
@[simp] theorem testsigApply_ctlCount (pc : Bool) (s : State) : (testsigApply pc s).ctlCount = s.ctlCount := by cases pc <;> rfl
@[simp] theorem testsigApply_ctlValue (pc : Bool) (s : State) : (testsigApply pc s).ctlValue = s.ctlValue := by cases pc <;> rfl
@[simp] theorem testsigApply_ctlPressTick (pc : Bool) (s : State) : (testsigApply pc s).ctlPressTick = s.ctlPressTick := by cases pc <;> rfl
@[simp] theorem testsigApply_ctlReleaseTick (pc : Bool) (s : State) : (testsigApply pc s).ctlReleaseTick = s.ctlReleaseTick := by cases pc <;> rfl
@[simp] theorem testsigApply_nv (pc : Bool) (s : State) : (testsigApply pc s).nv = s.nv := by cases pc <;> rfl
@[simp] theorem testsigApply_log (pc : Bool) (s : State) : (testsigApply pc s).log = s.log := by cases pc <;> rfl
@[simp] theorem testsigApply_faultWdt (pc : Bool) (s : State) : (testsigApply pc s).faultWdt = s.faultWdt := by cases pc <;> rfl
@[simp] theorem testsigApply_refused (pc : Bool) (s : State) : (testsigApply pc s).refused = s.refused := by cases pc <;> rfl
@[simp] theorem testsigApply_trace (pc : Bool) (s : State) : (testsigApply pc s).trace = s.trace := by cases pc <;> rfl
@[simp] theorem testsigApply_envIndex (pc : Bool) (s : State) : (testsigApply pc s).envIndex = s.envIndex := by cases pc <;> rfl

/-! ## legacyEdge: the pin-change entry of the Legacy filter -/

@[simp] theorem legacyEdge_par (s : State) : (legacyEdge s).par = s.par := by simp only [legacyEdge]; split <;> rfl
@[simp] theorem legacyEdge_rxLevel (s : State) : (legacyEdge s).rxLevel = s.rxLevel := by simp only [legacyEdge]; split <;> rfl
@[simp] theorem legacyEdge_ctlLevel (s : State) : (legacyEdge s).ctlLevel = s.ctlLevel := by simp only [legacyEdge]; split <;> rfl
@[simp] theorem legacyEdge_cfgFilter (s : State) : (legacyEdge s).cfgFilter = s.cfgFilter := by simp only [legacyEdge]; split <;> rfl
@[simp] theorem legacyEdge_cfgLowpass (s : State) : (legacyEdge s).cfgLowpass = s.cfgLowpass := by simp only [legacyEdge]; split <;> rfl
@[simp] theorem legacyEdge_cfgNvsum (s : State) : (legacyEdge s).cfgNvsum = s.cfgNvsum := by simp only [legacyEdge]; split <;> rfl
@[simp] theorem legacyEdge_sigVersion (s : State) : (legacyEdge s).sigVersion = s.sigVersion := by simp only [legacyEdge]; split <;> rfl
@[simp] theorem legacyEdge_sigChecksum (s : State) : (legacyEdge s).sigChecksum = s.sigChecksum := by simp only [legacyEdge]; split <;> rfl
@[simp] theorem legacyEdge_edgeIrqEn (s : State) : (legacyEdge s).edgeIrqEn = s.edgeIrqEn := by simp only [legacyEdge]; split <;> rfl
@[simp] theorem legacyEdge_tickCount (s : State) : (legacyEdge s).tickCount = s.tickCount := by simp only [legacyEdge]; split <;> rfl
@[simp] theorem legacyEdge_sigCountdown (s : State) : (legacyEdge s).sigCountdown = s.sigCountdown := by simp only [legacyEdge]; split <;> rfl
@[simp] theorem legacyEdge_outRemaining (s : State) : (legacyEdge s).outRemaining = s.outRemaining := by simp only [legacyEdge]; split <;> rfl
@[simp] theorem legacyEdge_recvingSince (s : State) : (legacyEdge s).recvingSince = s.recvingSince := by simp only [legacyEdge]; split <;> rfl
@[simp] theorem legacyEdge_wdtMissed (s : State) : (legacyEdge s).wdtMissed = s.wdtMissed := by simp only [legacyEdge]; split <;> rfl
@[simp] theorem legacyEdge_pinSnapshotRx (s : State) : (legacyEdge s).pinSnapshotRx = s.pinSnapshotRx := by simp only [legacyEdge]; split <;> rfl
@[simp] theorem legacyEdge_pinSnapshotCtl (s : State) : (legacyEdge s).pinSnapshotCtl = s.pinSnapshotCtl := by simp only [legacyEdge]; split <;> rfl
@[simp] theorem legacyEdge_pcPending (s : State) : (legacyEdge s).pcPending = s.pcPending := by simp only [legacyEdge]; split <;> rfl
@[simp] theorem legacyEdge_lpPending (s : State) : (legacyEdge s).lpPending = s.lpPending := by simp only [legacyEdge]; split <;> rfl
@[simp] theorem legacyEdge_lpCount (s : State) : (legacyEdge s).lpCount = s.lpCount := by simp only [legacyEdge]; split <;> rfl
@[simp] theorem legacyEdge_sigActive (s : State) : (legacyEdge s).sigActive = s.sigActive := by simp only [legacyEdge]; split <;> rfl
@[simp] theorem legacyEdge_sigRep (s : State) : (legacyEdge s).sigRep = s.sigRep := by simp only [legacyEdge]; split <;> rfl
@[simp] theorem legacyEdge_sigPos (s : State) : (legacyEdge s).sigPos = s.sigPos := by simp only [legacyEdge]; split <;> rfl
@[simp] theorem legacyEdge_rb (s : State) : (legacyEdge s).rb = s.rb := by simp only [legacyEdge]; split <;> rfl
@[simp] theorem legacyEdge_rbWrite (s : State) : (legacyEdge s).rbWrite = s.rbWrite := by simp only [legacyEdge]; split <;> rfl
@[simp] theorem legacyEdge_rbRead (s : State) : (legacyEdge s).rbRead = s.rbRead := by simp only [legacyEdge]; split <;> rfl
@[simp] theorem legacyEdge_rbTrainStart (s : State) : (legacyEdge s).rbTrainStart = s.rbTrainStart := by simp only [legacyEdge]; split <;> rfl
@[simp] theorem legacyEdge_trainLen (s : State) : (legacyEdge s).trainLen = s.trainLen := by simp only [legacyEdge]; split <;> rfl
@[simp] theorem legacyEdge_tsIdx (s : State) : (legacyEdge s).tsIdx = s.tsIdx := by simp only [legacyEdge]; split <;> rfl
@[simp] theorem legacyEdge_ctlState (s : State) : (legacyEdge s).ctlState = s.ctlState := by simp only [legacyEdge]; split <;> rfl
@[simp] theorem legacyEdge_ctlActive (s : State) : (legacyEdge s).ctlActive = s.ctlActive := by simp only [legacyEdge]; split <;> rfl
@[simp] theorem legacyEdge_ctlCount (s : State) : (legacyEdge s).ctlCount = s.ctlCount := by simp only [legacyEdge]; split <;> rfl
@[simp] theorem legacyEdge_ctlValue (s : State) : (legacyEdge s).ctlValue = s.ctlValue := by simp only [legacyEdge]; split <;> rfl
@[simp] theorem legacyEdge_ctlPressTick (s : State) : (legacyEdge s).ctlPressTick = s.ctlPressTick := by simp only [legacyEdge]; split <;> rfl
@[simp] theorem legacyEdge_ctlReleaseTick (s : State) : (legacyEdge s).ctlReleaseTick = s.ctlReleaseTick := by simp only [legacyEdge]; split <;> rfl
@[simp] theorem legacyEdge_nv (s : State) : (legacyEdge s).nv = s.nv := by simp only [legacyEdge]; split <;> rfl
@[simp] theorem legacyEdge_log (s : State) : (legacyEdge s).log = s.log := by simp only [legacyEdge]; split <;> rfl
@[simp] theorem legacyEdge_faultWdt (s : State) : (legacyEdge s).faultWdt = s.faultWdt := by simp only [legacyEdge]; split <;> rfl
@[simp] theorem legacyEdge_refused (s : State) : (legacyEdge s).refused = s.refused := by simp only [legacyEdge]; split <;> rfl
@[simp] theorem legacyEdge_trace (s : State) : (legacyEdge s).trace = s.trace := by simp only [legacyEdge]; split <;> rfl
@[simp] theorem legacyEdge_envIndex (s : State) : (legacyEdge s).envIndex = s.envIndex := by simp only [legacyEdge]; split <;> rfl

/-! ## legacyApply: Legacy Debounce -/

@[simp] theorem legacyApply_par (pc : Bool) (s : State) : (legacyApply pc s).par = s.par := by cases pc <;> simp [legacyApply]
@[simp] theorem legacyApply_rxLevel (pc : Bool) (s : State) : (legacyApply pc s).rxLevel = s.rxLevel := by cases pc <;> simp [legacyApply]
@[simp] theorem legacyApply_ctlLevel (pc : Bool) (s : State) : (legacyApply pc s).ctlLevel = s.ctlLevel := by cases pc <;> simp [legacyApply]
@[simp] theorem legacyApply_cfgFilter (pc : Bool) (s : State) : (legacyApply pc s).cfgFilter = s.cfgFilter := by cases pc <;> simp [legacyApply]
@[simp] theorem legacyApply_cfgLowpass (pc : Bool) (s : State) : (legacyApply pc s).cfgLowpass = s.cfgLowpass := by cases pc <;> simp [legacyApply]
@[simp] theorem legacyApply_cfgNvsum (pc : Bool) (s : State) : (legacyApply pc s).cfgNvsum = s.cfgNvsum := by cases pc <;> simp [legacyApply]
@[simp] theorem legacyApply_sigVersion (pc : Bool) (s : State) : (legacyApply pc s).sigVersion = s.sigVersion := by cases pc <;> simp [legacyApply]
@[simp] theorem legacyApply_sigChecksum (pc : Bool) (s : State) : (legacyApply pc s).sigChecksum = s.sigChecksum := by cases pc <;> simp [legacyApply]
@[simp] theorem legacyApply_edgeIrqEn (pc : Bool) (s : State) : (legacyApply pc s).edgeIrqEn = s.edgeIrqEn := by cases pc <;> simp [legacyApply]
@[simp] theorem legacyApply_tickCount (pc : Bool) (s : State) : (legacyApply pc s).tickCount = s.tickCount := by cases pc <;> simp [legacyApply]
@[simp] theorem legacyApply_sigCountdown (pc : Bool) (s : State) : (legacyApply pc s).sigCountdown = s.sigCountdown := by cases pc <;> simp [legacyApply]
@[simp] theorem legacyApply_outRemaining (pc : Bool) (s : State) : (legacyApply pc s).outRemaining = s.outRemaining := by cases pc <;> simp [legacyApply]
@[simp] theorem legacyApply_recvingSince (pc : Bool) (s : State) : (legacyApply pc s).recvingSince = s.recvingSince := by cases pc <;> simp [legacyApply]
@[simp] theorem legacyApply_wdtMissed (pc : Bool) (s : State) : (legacyApply pc s).wdtMissed = s.wdtMissed := by cases pc <;> simp [legacyApply]
@[simp] theorem legacyApply_pinSnapshotRx (pc : Bool) (s : State) : (legacyApply pc s).pinSnapshotRx = s.pinSnapshotRx := by cases pc <;> simp [legacyApply]
@[simp] theorem legacyApply_pinSnapshotCtl (pc : Bool) (s : State) : (legacyApply pc s).pinSnapshotCtl = s.pinSnapshotCtl := by cases pc <;> simp [legacyApply]
@[simp] theorem legacyApply_pcPending (pc : Bool) (s : State) : (legacyApply pc s).pcPending = s.pcPending := by cases pc <;> simp [legacyApply]
@[simp] theorem legacyApply_lpPending (pc : Bool) (s : State) : (legacyApply pc s).lpPending = s.lpPending := by cases pc <;> simp [legacyApply]
@[simp] theorem legacyApply_lpCount (pc : Bool) (s : State) : (legacyApply pc s).lpCount = s.lpCount := by cases pc <;> simp [legacyApply]
@[simp] theorem legacyApply_sigActive (pc : Bool) (s : State) : (legacyApply pc s).sigActive = s.sigActive := by cases pc <;> simp [legacyApply]
@[simp] theorem legacyApply_sigRep (pc : Bool) (s : State) : (legacyApply pc s).sigRep = s.sigRep := by cases pc <;> simp [legacyApply]
@[simp] theorem legacyApply_sigPos (pc : Bool) (s : State) : (legacyApply pc s).sigPos = s.sigPos := by cases pc <;> simp [legacyApply]
@[simp] theorem legacyApply_rb (pc : Bool) (s : State) : (legacyApply pc s).rb = s.rb := by cases pc <;> simp [legacyApply]
@[simp] theorem legacyApply_rbWrite (pc : Bool) (s : State) : (legacyApply pc s).rbWrite = s.rbWrite := by cases pc <;> simp [legacyApply]
@[simp] theorem legacyApply_rbRead (pc : Bool) (s : State) : (legacyApply pc s).rbRead = s.rbRead := by cases pc <;> simp [legacyApply]
@[simp] theorem legacyApply_rbTrainStart (pc : Bool) (s : State) : (legacyApply pc s).rbTrainStart = s.rbTrainStart := by cases pc <;> simp [legacyApply]
@[simp] theorem legacyApply_trainLen (pc : Bool) (s : State) : (legacyApply pc s).trainLen = s.trainLen := by cases pc <;> simp [legacyApply]
@[simp] theorem legacyApply_tsIdx (pc : Bool) (s : State) : (legacyApply pc s).tsIdx = s.tsIdx := by cases pc <;> simp [legacyApply]
@[simp] theorem legacyApply_ctlState (pc : Bool) (s : State) : (legacyApply pc s).ctlState = s.ctlState := by cases pc <;> simp [legacyApply]
@[simp] theorem legacyApply_ctlActive (pc : Bool) (s : State) : (legacyApply pc s).ctlActive = s.ctlActive := by cases pc <;> simp [legacyApply]
@[simp] theorem legacyApply_ctlCount (pc : Bool) (s : State) : (legacyApply pc s).ctlCount = s.ctlCount := by cases pc <;> simp [legacyApply]
@[simp] theorem legacyApply_ctlValue (pc : Bool) (s : State) : (legacyApply pc s).ctlValue = s.ctlValue := by cases pc <;> simp [legacyApply]
@[simp] theorem legacyApply_ctlPressTick (pc : Bool) (s : State) : (legacyApply pc s).ctlPressTick = s.ctlPressTick := by cases pc <;> simp [legacyApply]
@[simp] theorem legacyApply_ctlReleaseTick (pc : Bool) (s : State) : (legacyApply pc s).ctlReleaseTick = s.ctlReleaseTick := by cases pc <;> simp [legacyApply]
@[simp] theorem legacyApply_nv (pc : Bool) (s : State) : (legacyApply pc s).nv = s.nv := by cases pc <;> simp [legacyApply]
@[simp] theorem legacyApply_log (pc : Bool) (s : State) : (legacyApply pc s).log = s.log := by cases pc <;> simp [legacyApply]
@[simp] theorem legacyApply_faultWdt (pc : Bool) (s : State) : (legacyApply pc s).faultWdt = s.faultWdt := by cases pc <;> simp [legacyApply]
@[simp] theorem legacyApply_refused (pc : Bool) (s : State) : (legacyApply pc s).refused = s.refused := by cases pc <;> simp [legacyApply]
@[simp] theorem legacyApply_trace (pc : Bool) (s : State) : (legacyApply pc s).trace = s.trace := by cases pc <;> simp [legacyApply]
@[simp] theorem legacyApply_envIndex (pc : Bool) (s : State) : (legacyApply pc s).envIndex = s.envIndex := by cases pc <;> simp [legacyApply]

/-! ## finishTrain: the end of a train -/

@[simp] theorem finishTrain_par (s : State) : (finishTrain s).par = s.par := by simp only [finishTrain]; split <;> rfl
@[simp] theorem finishTrain_rxLevel (s : State) : (finishTrain s).rxLevel = s.rxLevel := by simp only [finishTrain]; split <;> rfl
@[simp] theorem finishTrain_ctlLevel (s : State) : (finishTrain s).ctlLevel = s.ctlLevel := by simp only [finishTrain]; split <;> rfl
@[simp] theorem finishTrain_outLevel (s : State) : (finishTrain s).outLevel = s.outLevel := by simp only [finishTrain]; split <;> rfl
@[simp] theorem finishTrain_cfgFilter (s : State) : (finishTrain s).cfgFilter = s.cfgFilter := by simp only [finishTrain]; split <;> rfl
@[simp] theorem finishTrain_cfgLowpass (s : State) : (finishTrain s).cfgLowpass = s.cfgLowpass := by simp only [finishTrain]; split <;> rfl
@[simp] theorem finishTrain_cfgNvsum (s : State) : (finishTrain s).cfgNvsum = s.cfgNvsum := by simp only [finishTrain]; split <;> rfl
@[simp] theorem finishTrain_sigVersion (s : State) : (finishTrain s).sigVersion = s.sigVersion := by simp only [finishTrain]; split <;> rfl
@[simp] theorem finishTrain_sigChecksum (s : State) : (finishTrain s).sigChecksum = s.sigChecksum := by simp only [finishTrain]; split <;> rfl
@[simp] theorem finishTrain_edgeIrqEn (s : State) : (finishTrain s).edgeIrqEn = s.edgeIrqEn := by simp only [finishTrain]; split <;> rfl
@[simp] theorem finishTrain_tickCount (s : State) : (finishTrain s).tickCount = s.tickCount := by simp only [finishTrain]; split <;> rfl
@[simp] theorem finishTrain_sigCountdown (s : State) : (finishTrain s).sigCountdown = s.sigCountdown := by simp only [finishTrain]; split <;> rfl
@[simp] theorem finishTrain_outRemaining (s : State) : (finishTrain s).outRemaining = s.outRemaining := by simp only [finishTrain]; split <;> rfl
@[simp] theorem finishTrain_recvingSince (s : State) : (finishTrain s).recvingSince = s.recvingSince := by simp only [finishTrain]; split <;> rfl
@[simp] theorem finishTrain_wdtMissed (s : State) : (finishTrain s).wdtMissed = s.wdtMissed := by simp only [finishTrain]; split <;> rfl
@[simp] theorem finishTrain_pinSnapshotRx (s : State) : (finishTrain s).pinSnapshotRx = s.pinSnapshotRx := by simp only [finishTrain]; split <;> rfl
@[simp] theorem finishTrain_pinSnapshotCtl (s : State) : (finishTrain s).pinSnapshotCtl = s.pinSnapshotCtl := by simp only [finishTrain]; split <;> rfl
@[simp] theorem finishTrain_pcPending (s : State) : (finishTrain s).pcPending = s.pcPending := by simp only [finishTrain]; split <;> rfl
@[simp] theorem finishTrain_lpPending (s : State) : (finishTrain s).lpPending = s.lpPending := by simp only [finishTrain]; split <;> rfl
@[simp] theorem finishTrain_lpCount (s : State) : (finishTrain s).lpCount = s.lpCount := by simp only [finishTrain]; split <;> rfl
@[simp] theorem finishTrain_sigActive (s : State) : (finishTrain s).sigActive = s.sigActive := by simp only [finishTrain]; split <;> rfl
@[simp] theorem finishTrain_sigRep (s : State) : (finishTrain s).sigRep = s.sigRep := by simp only [finishTrain]; split <;> rfl
@[simp] theorem finishTrain_sigPos (s : State) : (finishTrain s).sigPos = s.sigPos := by simp only [finishTrain]; split <;> rfl
@[simp] theorem finishTrain_rb (s : State) : (finishTrain s).rb = s.rb := by simp only [finishTrain]; split <;> rfl
@[simp] theorem finishTrain_rbRead (s : State) : (finishTrain s).rbRead = s.rbRead := by simp only [finishTrain]; split <;> rfl
@[simp] theorem finishTrain_ldShift (s : State) : (finishTrain s).ldShift = s.ldShift := by simp only [finishTrain]; split <;> rfl
@[simp] theorem finishTrain_tsIdx (s : State) : (finishTrain s).tsIdx = s.tsIdx := by simp only [finishTrain]; split <;> rfl
@[simp] theorem finishTrain_ctlState (s : State) : (finishTrain s).ctlState = s.ctlState := by simp only [finishTrain]; split <;> rfl
@[simp] theorem finishTrain_ctlActive (s : State) : (finishTrain s).ctlActive = s.ctlActive := by simp only [finishTrain]; split <;> rfl
@[simp] theorem finishTrain_ctlCount (s : State) : (finishTrain s).ctlCount = s.ctlCount := by simp only [finishTrain]; split <;> rfl
@[simp] theorem finishTrain_ctlValue (s : State) : (finishTrain s).ctlValue = s.ctlValue := by simp only [finishTrain]; split <;> rfl
@[simp] theorem finishTrain_ctlPressTick (s : State) : (finishTrain s).ctlPressTick = s.ctlPressTick := by simp only [finishTrain]; split <;> rfl
@[simp] theorem finishTrain_ctlReleaseTick (s : State) : (finishTrain s).ctlReleaseTick = s.ctlReleaseTick := by simp only [finishTrain]; split <;> rfl
@[simp] theorem finishTrain_nv (s : State) : (finishTrain s).nv = s.nv := by simp only [finishTrain]; split <;> rfl
@[simp] theorem finishTrain_faultWdt (s : State) : (finishTrain s).faultWdt = s.faultWdt := by simp only [finishTrain]; split <;> rfl
@[simp] theorem finishTrain_refused (s : State) : (finishTrain s).refused = s.refused := by simp only [finishTrain]; split <;> rfl
@[simp] theorem finishTrain_outTrace (s : State) : (finishTrain s).outTrace = s.outTrace := by simp only [finishTrain]; split <;> rfl
@[simp] theorem finishTrain_trace (s : State) : (finishTrain s).trace = s.trace := by simp only [finishTrain]; split <;> rfl
@[simp] theorem finishTrain_envIndex (s : State) : (finishTrain s).envIndex = s.envIndex := by simp only [finishTrain]; split <;> rfl

/-! ## extendTrain: a pulse that extends the train -/

@[simp] theorem extendTrain_par (d : Duration) (s : State) : (extendTrain d s).par = s.par := rfl
@[simp] theorem extendTrain_rxLevel (d : Duration) (s : State) : (extendTrain d s).rxLevel = s.rxLevel := rfl
@[simp] theorem extendTrain_ctlLevel (d : Duration) (s : State) : (extendTrain d s).ctlLevel = s.ctlLevel := rfl
@[simp] theorem extendTrain_outLevel (d : Duration) (s : State) : (extendTrain d s).outLevel = s.outLevel := rfl
@[simp] theorem extendTrain_cfgFilter (d : Duration) (s : State) : (extendTrain d s).cfgFilter = s.cfgFilter := rfl
@[simp] theorem extendTrain_cfgLowpass (d : Duration) (s : State) : (extendTrain d s).cfgLowpass = s.cfgLowpass := rfl
@[simp] theorem extendTrain_cfgNvsum (d : Duration) (s : State) : (extendTrain d s).cfgNvsum = s.cfgNvsum := rfl
@[simp] theorem extendTrain_sigVersion (d : Duration) (s : State) : (extendTrain d s).sigVersion = s.sigVersion := rfl
@[simp] theorem extendTrain_sigChecksum (d : Duration) (s : State) : (extendTrain d s).sigChecksum = s.sigChecksum := rfl
@[simp] theorem extendTrain_edgeIrqEn (d : Duration) (s : State) : (extendTrain d s).edgeIrqEn = s.edgeIrqEn := rfl
@[simp] theorem extendTrain_tickCount (d : Duration) (s : State) : (extendTrain d s).tickCount = s.tickCount := rfl
@[simp] theorem extendTrain_sigCountdown (d : Duration) (s : State) : (extendTrain d s).sigCountdown = s.sigCountdown := rfl
@[simp] theorem extendTrain_outRemaining (d : Duration) (s : State) : (extendTrain d s).outRemaining = s.outRemaining := rfl
@[simp] theorem extendTrain_recvingSince (d : Duration) (s : State) : (extendTrain d s).recvingSince = s.recvingSince := rfl
@[simp] theorem extendTrain_wdtMissed (d : Duration) (s : State) : (extendTrain d s).wdtMissed = s.wdtMissed := rfl
@[simp] theorem extendTrain_pinSnapshotRx (d : Duration) (s : State) : (extendTrain d s).pinSnapshotRx = s.pinSnapshotRx := rfl
@[simp] theorem extendTrain_pinSnapshotCtl (d : Duration) (s : State) : (extendTrain d s).pinSnapshotCtl = s.pinSnapshotCtl := rfl
@[simp] theorem extendTrain_pcPending (d : Duration) (s : State) : (extendTrain d s).pcPending = s.pcPending := rfl
@[simp] theorem extendTrain_lpPending (d : Duration) (s : State) : (extendTrain d s).lpPending = s.lpPending := rfl
@[simp] theorem extendTrain_lpCount (d : Duration) (s : State) : (extendTrain d s).lpCount = s.lpCount := rfl
@[simp] theorem extendTrain_sigActive (d : Duration) (s : State) : (extendTrain d s).sigActive = s.sigActive := rfl
@[simp] theorem extendTrain_sigRep (d : Duration) (s : State) : (extendTrain d s).sigRep = s.sigRep := rfl
@[simp] theorem extendTrain_sigPos (d : Duration) (s : State) : (extendTrain d s).sigPos = s.sigPos := rfl
@[simp] theorem extendTrain_rbRead (d : Duration) (s : State) : (extendTrain d s).rbRead = s.rbRead := rfl
@[simp] theorem extendTrain_rbTrainStart (d : Duration) (s : State) : (extendTrain d s).rbTrainStart = s.rbTrainStart := rfl
@[simp] theorem extendTrain_ldShift (d : Duration) (s : State) : (extendTrain d s).ldShift = s.ldShift := rfl
@[simp] theorem extendTrain_tsIdx (d : Duration) (s : State) : (extendTrain d s).tsIdx = s.tsIdx := rfl
@[simp] theorem extendTrain_ctlState (d : Duration) (s : State) : (extendTrain d s).ctlState = s.ctlState := rfl
@[simp] theorem extendTrain_ctlActive (d : Duration) (s : State) : (extendTrain d s).ctlActive = s.ctlActive := rfl
@[simp] theorem extendTrain_ctlCount (d : Duration) (s : State) : (extendTrain d s).ctlCount = s.ctlCount := rfl
@[simp] theorem extendTrain_ctlValue (d : Duration) (s : State) : (extendTrain d s).ctlValue = s.ctlValue := rfl
@[simp] theorem extendTrain_ctlPressTick (d : Duration) (s : State) : (extendTrain d s).ctlPressTick = s.ctlPressTick := rfl
@[simp] theorem extendTrain_ctlReleaseTick (d : Duration) (s : State) : (extendTrain d s).ctlReleaseTick = s.ctlReleaseTick := rfl
@[simp] theorem extendTrain_nv (d : Duration) (s : State) : (extendTrain d s).nv = s.nv := rfl
@[simp] theorem extendTrain_log (d : Duration) (s : State) : (extendTrain d s).log = s.log := rfl
@[simp] theorem extendTrain_faultWdt (d : Duration) (s : State) : (extendTrain d s).faultWdt = s.faultWdt := rfl
@[simp] theorem extendTrain_refused (d : Duration) (s : State) : (extendTrain d s).refused = s.refused := rfl
@[simp] theorem extendTrain_outTrace (d : Duration) (s : State) : (extendTrain d s).outTrace = s.outTrace := rfl
@[simp] theorem extendTrain_trace (d : Duration) (s : State) : (extendTrain d s).trace = s.trace := rfl
@[simp] theorem extendTrain_envIndex (d : Duration) (s : State) : (extendTrain d s).envIndex = s.envIndex := rfl

/-! ## trainEdge: the pin-change entry of the Train-Buffer filter -/

@[simp] theorem trainEdge_par (d : Duration) (s : State) : (trainEdge d s).par = s.par := by simp only [trainEdge]; repeat (first | split | simp)
@[simp] theorem trainEdge_rxLevel (d : Duration) (s : State) : (trainEdge d s).rxLevel = s.rxLevel := by simp only [trainEdge]; repeat (first | split | simp)
@[simp] theorem trainEdge_ctlLevel (d : Duration) (s : State) : (trainEdge d s).ctlLevel = s.ctlLevel := by simp only [trainEdge]; repeat (first | split | simp)
@[simp] theorem trainEdge_outLevel (d : Duration) (s : State) : (trainEdge d s).outLevel = s.outLevel := by simp only [trainEdge]; repeat (first | split | simp)
@[simp] theorem trainEdge_cfgFilter (d : Duration) (s : State) : (trainEdge d s).cfgFilter = s.cfgFilter := by simp only [trainEdge]; repeat (first | split | simp)
@[simp] theorem trainEdge_cfgLowpass (d : Duration) (s : State) : (trainEdge d s).cfgLowpass = s.cfgLowpass := by simp only [trainEdge]; repeat (first | split | simp)
@[simp] theorem trainEdge_cfgNvsum (d : Duration) (s : State) : (trainEdge d s).cfgNvsum = s.cfgNvsum := by simp only [trainEdge]; repeat (first | split | simp)
@[simp] theorem trainEdge_sigVersion (d : Duration) (s : State) : (trainEdge d s).sigVersion = s.sigVersion := by simp only [trainEdge]; repeat (first | split | simp)
@[simp] theorem trainEdge_sigChecksum (d : Duration) (s : State) : (trainEdge d s).sigChecksum = s.sigChecksum := by simp only [trainEdge]; repeat (first | split | simp)
@[simp] theorem trainEdge_edgeIrqEn (d : Duration) (s : State) : (trainEdge d s).edgeIrqEn = s.edgeIrqEn := by simp only [trainEdge]; repeat (first | split | simp)
@[simp] theorem trainEdge_tickCount (d : Duration) (s : State) : (trainEdge d s).tickCount = s.tickCount := by simp only [trainEdge]; repeat (first | split | simp)
@[simp] theorem trainEdge_sigCountdown (d : Duration) (s : State) : (trainEdge d s).sigCountdown = s.sigCountdown := by simp only [trainEdge]; repeat (first | split | simp)
@[simp] theorem trainEdge_outRemaining (d : Duration) (s : State) : (trainEdge d s).outRemaining = s.outRemaining := by simp only [trainEdge]; repeat (first | split | simp)
@[simp] theorem trainEdge_recvingSince (d : Duration) (s : State) : (trainEdge d s).recvingSince = s.recvingSince := by simp only [trainEdge]; repeat (first | split | simp)
@[simp] theorem trainEdge_wdtMissed (d : Duration) (s : State) : (trainEdge d s).wdtMissed = s.wdtMissed := by simp only [trainEdge]; repeat (first | split | simp)
@[simp] theorem trainEdge_pinSnapshotRx (d : Duration) (s : State) : (trainEdge d s).pinSnapshotRx = s.pinSnapshotRx := by simp only [trainEdge]; repeat (first | split | simp)
@[simp] theorem trainEdge_pinSnapshotCtl (d : Duration) (s : State) : (trainEdge d s).pinSnapshotCtl = s.pinSnapshotCtl := by simp only [trainEdge]; repeat (first | split | simp)
@[simp] theorem trainEdge_pcPending (d : Duration) (s : State) : (trainEdge d s).pcPending = s.pcPending := by simp only [trainEdge]; repeat (first | split | simp)
@[simp] theorem trainEdge_lpPending (d : Duration) (s : State) : (trainEdge d s).lpPending = s.lpPending := by simp only [trainEdge]; repeat (first | split | simp)
@[simp] theorem trainEdge_lpCount (d : Duration) (s : State) : (trainEdge d s).lpCount = s.lpCount := by simp only [trainEdge]; repeat (first | split | simp)
@[simp] theorem trainEdge_sigActive (d : Duration) (s : State) : (trainEdge d s).sigActive = s.sigActive := by simp only [trainEdge]; repeat (first | split | simp)
@[simp] theorem trainEdge_sigRep (d : Duration) (s : State) : (trainEdge d s).sigRep = s.sigRep := by simp only [trainEdge]; repeat (first | split | simp)
@[simp] theorem trainEdge_sigPos (d : Duration) (s : State) : (trainEdge d s).sigPos = s.sigPos := by simp only [trainEdge]; repeat (first | split | simp)
@[simp] theorem trainEdge_rbRead (d : Duration) (s : State) : (trainEdge d s).rbRead = s.rbRead := by simp only [trainEdge]; repeat (first | split | simp)
@[simp] theorem trainEdge_ldShift (d : Duration) (s : State) : (trainEdge d s).ldShift = s.ldShift := by simp only [trainEdge]; repeat (first | split | simp)
@[simp] theorem trainEdge_tsIdx (d : Duration) (s : State) : (trainEdge d s).tsIdx = s.tsIdx := by simp only [trainEdge]; repeat (first | split | simp)
@[simp] theorem trainEdge_ctlState (d : Duration) (s : State) : (trainEdge d s).ctlState = s.ctlState := by simp only [trainEdge]; repeat (first | split | simp)
@[simp] theorem trainEdge_ctlActive (d : Duration) (s : State) : (trainEdge d s).ctlActive = s.ctlActive := by simp only [trainEdge]; repeat (first | split | simp)
@[simp] theorem trainEdge_ctlCount (d : Duration) (s : State) : (trainEdge d s).ctlCount = s.ctlCount := by simp only [trainEdge]; repeat (first | split | simp)
@[simp] theorem trainEdge_ctlValue (d : Duration) (s : State) : (trainEdge d s).ctlValue = s.ctlValue := by simp only [trainEdge]; repeat (first | split | simp)
@[simp] theorem trainEdge_ctlPressTick (d : Duration) (s : State) : (trainEdge d s).ctlPressTick = s.ctlPressTick := by simp only [trainEdge]; repeat (first | split | simp)
@[simp] theorem trainEdge_ctlReleaseTick (d : Duration) (s : State) : (trainEdge d s).ctlReleaseTick = s.ctlReleaseTick := by simp only [trainEdge]; repeat (first | split | simp)
@[simp] theorem trainEdge_nv (d : Duration) (s : State) : (trainEdge d s).nv = s.nv := by simp only [trainEdge]; repeat (first | split | simp)
@[simp] theorem trainEdge_faultWdt (d : Duration) (s : State) : (trainEdge d s).faultWdt = s.faultWdt := by simp only [trainEdge]; repeat (first | split | simp)
@[simp] theorem trainEdge_refused (d : Duration) (s : State) : (trainEdge d s).refused = s.refused := by simp only [trainEdge]; repeat (first | split | simp)
@[simp] theorem trainEdge_outTrace (d : Duration) (s : State) : (trainEdge d s).outTrace = s.outTrace := by simp only [trainEdge]; repeat (first | split | simp)
@[simp] theorem trainEdge_trace (d : Duration) (s : State) : (trainEdge d s).trace = s.trace := by simp only [trainEdge]; repeat (first | split | simp)
@[simp] theorem trainEdge_envIndex (d : Duration) (s : State) : (trainEdge d s).envIndex = s.envIndex := by simp only [trainEdge]; repeat (first | split | simp)

/-! ## trainTick: the periodic entry of the Train-Buffer filter -/

@[simp] theorem trainTick_par (s : State) : (trainTick s).par = s.par := by simp only [trainTick]; split <;> rfl
@[simp] theorem trainTick_rxLevel (s : State) : (trainTick s).rxLevel = s.rxLevel := by simp only [trainTick]; split <;> rfl
@[simp] theorem trainTick_ctlLevel (s : State) : (trainTick s).ctlLevel = s.ctlLevel := by simp only [trainTick]; split <;> rfl
@[simp] theorem trainTick_cfgFilter (s : State) : (trainTick s).cfgFilter = s.cfgFilter := by simp only [trainTick]; split <;> rfl
@[simp] theorem trainTick_cfgLowpass (s : State) : (trainTick s).cfgLowpass = s.cfgLowpass := by simp only [trainTick]; split <;> rfl
@[simp] theorem trainTick_cfgNvsum (s : State) : (trainTick s).cfgNvsum = s.cfgNvsum := by simp only [trainTick]; split <;> rfl
@[simp] theorem trainTick_sigVersion (s : State) : (trainTick s).sigVersion = s.sigVersion := by simp only [trainTick]; split <;> rfl
@[simp] theorem trainTick_sigChecksum (s : State) : (trainTick s).sigChecksum = s.sigChecksum := by simp only [trainTick]; split <;> rfl
@[simp] theorem trainTick_edgeIrqEn (s : State) : (trainTick s).edgeIrqEn = s.edgeIrqEn := by simp only [trainTick]; split <;> rfl
@[simp] theorem trainTick_tickCount (s : State) : (trainTick s).tickCount = s.tickCount := by simp only [trainTick]; split <;> rfl
@[simp] theorem trainTick_sigCountdown (s : State) : (trainTick s).sigCountdown = s.sigCountdown := by simp only [trainTick]; split <;> rfl
@[simp] theorem trainTick_recvingSince (s : State) : (trainTick s).recvingSince = s.recvingSince := by simp only [trainTick]; split <;> rfl
@[simp] theorem trainTick_wdtMissed (s : State) : (trainTick s).wdtMissed = s.wdtMissed := by simp only [trainTick]; split <;> rfl
@[simp] theorem trainTick_pinSnapshotRx (s : State) : (trainTick s).pinSnapshotRx = s.pinSnapshotRx := by simp only [trainTick]; split <;> rfl
@[simp] theorem trainTick_pinSnapshotCtl (s : State) : (trainTick s).pinSnapshotCtl = s.pinSnapshotCtl := by simp only [trainTick]; split <;> rfl
@[simp] theorem trainTick_pcPending (s : State) : (trainTick s).pcPending = s.pcPending := by simp only [trainTick]; split <;> rfl
@[simp] theorem trainTick_lpPending (s : State) : (trainTick s).lpPending = s.lpPending := by simp only [trainTick]; split <;> rfl
@[simp] theorem trainTick_lpCount (s : State) : (trainTick s).lpCount = s.lpCount := by simp only [trainTick]; split <;> rfl
@[simp] theorem trainTick_sigActive (s : State) : (trainTick s).sigActive = s.sigActive := by simp only [trainTick]; split <;> rfl
@[simp] theorem trainTick_sigRep (s : State) : (trainTick s).sigRep = s.sigRep := by simp only [trainTick]; split <;> rfl
@[simp] theorem trainTick_sigPos (s : State) : (trainTick s).sigPos = s.sigPos := by simp only [trainTick]; split <;> rfl
@[simp] theorem trainTick_rb (s : State) : (trainTick s).rb = s.rb := by simp only [trainTick]; split <;> rfl
@[simp] theorem trainTick_rbWrite (s : State) : (trainTick s).rbWrite = s.rbWrite := by simp only [trainTick]; split <;> rfl
@[simp] theorem trainTick_rbTrainStart (s : State) : (trainTick s).rbTrainStart = s.rbTrainStart := by simp only [trainTick]; split <;> rfl
@[simp] theorem trainTick_trainLen (s : State) : (trainTick s).trainLen = s.trainLen := by simp only [trainTick]; split <;> rfl
@[simp] theorem trainTick_ldShift (s : State) : (trainTick s).ldShift = s.ldShift := by simp only [trainTick]; split <;> rfl
@[simp] theorem trainTick_tsIdx (s : State) : (trainTick s).tsIdx = s.tsIdx := by simp only [trainTick]; split <;> rfl
@[simp] theorem trainTick_ctlState (s : State) : (trainTick s).ctlState = s.ctlState := by simp only [trainTick]; split <;> rfl
@[simp] theorem trainTick_ctlActive (s : State) : (trainTick s).ctlActive = s.ctlActive := by simp only [trainTick]; split <;> rfl
@[simp] theorem trainTick_ctlCount (s : State) : (trainTick s).ctlCount = s.ctlCount := by simp only [trainTick]; split <;> rfl
@[simp] theorem trainTick_ctlValue (s : State) : (trainTick s).ctlValue = s.ctlValue := by simp only [trainTick]; split <;> rfl
@[simp] theorem trainTick_ctlPressTick (s : State) : (trainTick s).ctlPressTick = s.ctlPressTick := by simp only [trainTick]; split <;> rfl
@[simp] theorem trainTick_ctlReleaseTick (s : State) : (trainTick s).ctlReleaseTick = s.ctlReleaseTick := by simp only [trainTick]; split <;> rfl
@[simp] theorem trainTick_nv (s : State) : (trainTick s).nv = s.nv := by simp only [trainTick]; split <;> rfl
@[simp] theorem trainTick_log (s : State) : (trainTick s).log = s.log := by simp only [trainTick]; split <;> rfl
@[simp] theorem trainTick_faultWdt (s : State) : (trainTick s).faultWdt = s.faultWdt := by simp only [trainTick]; split <;> rfl
@[simp] theorem trainTick_refused (s : State) : (trainTick s).refused = s.refused := by simp only [trainTick]; split <;> rfl
@[simp] theorem trainTick_trace (s : State) : (trainTick s).trace = s.trace := by simp only [trainTick]; split <;> rfl
@[simp] theorem trainTick_envIndex (s : State) : (trainTick s).envIndex = s.envIndex := by simp only [trainTick]; split <;> rfl

/-! ## trainApply: Train-Buffer -/

@[simp] theorem trainApply_par (pc : Bool) (s : State) : (trainApply pc s).par = s.par := by cases pc <;> simp [trainApply]
@[simp] theorem trainApply_rxLevel (pc : Bool) (s : State) : (trainApply pc s).rxLevel = s.rxLevel := by cases pc <;> simp [trainApply]
@[simp] theorem trainApply_ctlLevel (pc : Bool) (s : State) : (trainApply pc s).ctlLevel = s.ctlLevel := by cases pc <;> simp [trainApply]
@[simp] theorem trainApply_cfgFilter (pc : Bool) (s : State) : (trainApply pc s).cfgFilter = s.cfgFilter := by cases pc <;> simp [trainApply]
@[simp] theorem trainApply_cfgLowpass (pc : Bool) (s : State) : (trainApply pc s).cfgLowpass = s.cfgLowpass := by cases pc <;> simp [trainApply]
@[simp] theorem trainApply_cfgNvsum (pc : Bool) (s : State) : (trainApply pc s).cfgNvsum = s.cfgNvsum := by cases pc <;> simp [trainApply]
@[simp] theorem trainApply_sigVersion (pc : Bool) (s : State) : (trainApply pc s).sigVersion = s.sigVersion := by cases pc <;> simp [trainApply]
@[simp] theorem trainApply_sigChecksum (pc : Bool) (s : State) : (trainApply pc s).sigChecksum = s.sigChecksum := by cases pc <;> simp [trainApply]
@[simp] theorem trainApply_edgeIrqEn (pc : Bool) (s : State) : (trainApply pc s).edgeIrqEn = s.edgeIrqEn := by cases pc <;> simp [trainApply]
@[simp] theorem trainApply_tickCount (pc : Bool) (s : State) : (trainApply pc s).tickCount = s.tickCount := by cases pc <;> simp [trainApply]
@[simp] theorem trainApply_sigCountdown (pc : Bool) (s : State) : (trainApply pc s).sigCountdown = s.sigCountdown := by cases pc <;> simp [trainApply]
@[simp] theorem trainApply_recvingSince (pc : Bool) (s : State) : (trainApply pc s).recvingSince = s.recvingSince := by cases pc <;> simp [trainApply]
@[simp] theorem trainApply_wdtMissed (pc : Bool) (s : State) : (trainApply pc s).wdtMissed = s.wdtMissed := by cases pc <;> simp [trainApply]
@[simp] theorem trainApply_pinSnapshotRx (pc : Bool) (s : State) : (trainApply pc s).pinSnapshotRx = s.pinSnapshotRx := by cases pc <;> simp [trainApply]
@[simp] theorem trainApply_pinSnapshotCtl (pc : Bool) (s : State) : (trainApply pc s).pinSnapshotCtl = s.pinSnapshotCtl := by cases pc <;> simp [trainApply]
@[simp] theorem trainApply_pcPending (pc : Bool) (s : State) : (trainApply pc s).pcPending = s.pcPending := by cases pc <;> simp [trainApply]
@[simp] theorem trainApply_lpPending (pc : Bool) (s : State) : (trainApply pc s).lpPending = s.lpPending := by cases pc <;> simp [trainApply]
@[simp] theorem trainApply_lpCount (pc : Bool) (s : State) : (trainApply pc s).lpCount = s.lpCount := by cases pc <;> simp [trainApply]
@[simp] theorem trainApply_sigActive (pc : Bool) (s : State) : (trainApply pc s).sigActive = s.sigActive := by cases pc <;> simp [trainApply]
@[simp] theorem trainApply_sigRep (pc : Bool) (s : State) : (trainApply pc s).sigRep = s.sigRep := by cases pc <;> simp [trainApply]
@[simp] theorem trainApply_sigPos (pc : Bool) (s : State) : (trainApply pc s).sigPos = s.sigPos := by cases pc <;> simp [trainApply]
@[simp] theorem trainApply_ldShift (pc : Bool) (s : State) : (trainApply pc s).ldShift = s.ldShift := by cases pc <;> simp [trainApply]
@[simp] theorem trainApply_tsIdx (pc : Bool) (s : State) : (trainApply pc s).tsIdx = s.tsIdx := by cases pc <;> simp [trainApply]
@[simp] theorem trainApply_ctlState (pc : Bool) (s : State) : (trainApply pc s).ctlState = s.ctlState := by cases pc <;> simp [trainApply]
@[simp] theorem trainApply_ctlActive (pc : Bool) (s : State) : (trainApply pc s).ctlActive = s.ctlActive := by cases pc <;> simp [trainApply]
@[simp] theorem trainApply_ctlCount (pc : Bool) (s : State) : (trainApply pc s).ctlCount = s.ctlCount := by cases pc <;> simp [trainApply]
@[simp] theorem trainApply_ctlValue (pc : Bool) (s : State) : (trainApply pc s).ctlValue = s.ctlValue := by cases pc <;> simp [trainApply]
@[simp] theorem trainApply_ctlPressTick (pc : Bool) (s : State) : (trainApply pc s).ctlPressTick = s.ctlPressTick := by cases pc <;> simp [trainApply]
@[simp] theorem trainApply_ctlReleaseTick (pc : Bool) (s : State) : (trainApply pc s).ctlReleaseTick = s.ctlReleaseTick := by cases pc <;> simp [trainApply]
@[simp] theorem trainApply_nv (pc : Bool) (s : State) : (trainApply pc s).nv = s.nv := by cases pc <;> simp [trainApply]
@[simp] theorem trainApply_faultWdt (pc : Bool) (s : State) : (trainApply pc s).faultWdt = s.faultWdt := by cases pc <;> simp [trainApply]
@[simp] theorem trainApply_refused (pc : Bool) (s : State) : (trainApply pc s).refused = s.refused := by cases pc <;> simp [trainApply]
@[simp] theorem trainApply_trace (pc : Bool) (s : State) : (trainApply pc s).trace = s.trace := by cases pc <;> simp [trainApply]
@[simp] theorem trainApply_envIndex (pc : Bool) (s : State) : (trainApply pc s).envIndex = s.envIndex := by cases pc <;> simp [trainApply]

/-! ## passApply: Passthrough -/

@[simp] theorem passApply_par (pc : Bool) (s : State) : (passApply pc s).par = s.par := rfl
@[simp] theorem passApply_rxLevel (pc : Bool) (s : State) : (passApply pc s).rxLevel = s.rxLevel := rfl
@[simp] theorem passApply_ctlLevel (pc : Bool) (s : State) : (passApply pc s).ctlLevel = s.ctlLevel := rfl
@[simp] theorem passApply_cfgFilter (pc : Bool) (s : State) : (passApply pc s).cfgFilter = s.cfgFilter := rfl
@[simp] theorem passApply_cfgLowpass (pc : Bool) (s : State) : (passApply pc s).cfgLowpass = s.cfgLowpass := rfl
@[simp] theorem passApply_cfgNvsum (pc : Bool) (s : State) : (passApply pc s).cfgNvsum = s.cfgNvsum := rfl
@[simp] theorem passApply_sigVersion (pc : Bool) (s : State) : (passApply pc s).sigVersion = s.sigVersion := rfl
@[simp] theorem passApply_sigChecksum (pc : Bool) (s : State) : (passApply pc s).sigChecksum = s.sigChecksum := rfl
@[simp] theorem passApply_edgeIrqEn (pc : Bool) (s : State) : (passApply pc s).edgeIrqEn = s.edgeIrqEn := rfl
@[simp] theorem passApply_tickCount (pc : Bool) (s : State) : (passApply pc s).tickCount = s.tickCount := rfl
@[simp] theorem passApply_sigCountdown (pc : Bool) (s : State) : (passApply pc s).sigCountdown = s.sigCountdown := rfl
@[simp] theorem passApply_outRemaining (pc : Bool) (s : State) : (passApply pc s).outRemaining = s.outRemaining := rfl
@[simp] theorem passApply_recvingSince (pc : Bool) (s : State) : (passApply pc s).recvingSince = s.recvingSince := rfl
@[simp] theorem passApply_wdtMissed (pc : Bool) (s : State) : (passApply pc s).wdtMissed = s.wdtMissed := rfl
@[simp] theorem passApply_pinSnapshotRx (pc : Bool) (s : State) : (passApply pc s).pinSnapshotRx = s.pinSnapshotRx := rfl
@[simp] theorem passApply_pinSnapshotCtl (pc : Bool) (s : State) : (passApply pc s).pinSnapshotCtl = s.pinSnapshotCtl := rfl
@[simp] theorem passApply_pcPending (pc : Bool) (s : State) : (passApply pc s).pcPending = s.pcPending := rfl
@[simp] theorem passApply_lpPending (pc : Bool) (s : State) : (passApply pc s).lpPending = s.lpPending := rfl
@[simp] theorem passApply_lpCount (pc : Bool) (s : State) : (passApply pc s).lpCount = s.lpCount := rfl
@[simp] theorem passApply_sigActive (pc : Bool) (s : State) : (passApply pc s).sigActive = s.sigActive := rfl
@[simp] theorem passApply_sigRep (pc : Bool) (s : State) : (passApply pc s).sigRep = s.sigRep := rfl
@[simp] theorem passApply_sigPos (pc : Bool) (s : State) : (passApply pc s).sigPos = s.sigPos := rfl
@[simp] theorem passApply_rb (pc : Bool) (s : State) : (passApply pc s).rb = s.rb := rfl
@[simp] theorem passApply_rbWrite (pc : Bool) (s : State) : (passApply pc s).rbWrite = s.rbWrite := rfl
@[simp] theorem passApply_rbRead (pc : Bool) (s : State) : (passApply pc s).rbRead = s.rbRead := rfl
@[simp] theorem passApply_rbTrainStart (pc : Bool) (s : State) : (passApply pc s).rbTrainStart = s.rbTrainStart := rfl
@[simp] theorem passApply_trainLen (pc : Bool) (s : State) : (passApply pc s).trainLen = s.trainLen := rfl
@[simp] theorem passApply_ldShift (pc : Bool) (s : State) : (passApply pc s).ldShift = s.ldShift := rfl
@[simp] theorem passApply_tsIdx (pc : Bool) (s : State) : (passApply pc s).tsIdx = s.tsIdx := rfl
@[simp] theorem passApply_ctlState (pc : Bool) (s : State) : (passApply pc s).ctlState = s.ctlState := rfl
@[simp] theorem passApply_ctlActive (pc : Bool) (s : State) : (passApply pc s).ctlActive = s.ctlActive := rfl
@[simp] theorem passApply_ctlCount (pc : Bool) (s : State) : (passApply pc s).ctlCount = s.ctlCount := rfl
@[simp] theorem passApply_ctlValue (pc : Bool) (s : State) : (passApply pc s).ctlValue = s.ctlValue := rfl
@[simp] theorem passApply_ctlPressTick (pc : Bool) (s : State) : (passApply pc s).ctlPressTick = s.ctlPressTick := rfl
@[simp] theorem passApply_ctlReleaseTick (pc : Bool) (s : State) : (passApply pc s).ctlReleaseTick = s.ctlReleaseTick := rfl
@[simp] theorem passApply_nv (pc : Bool) (s : State) : (passApply pc s).nv = s.nv := rfl
@[simp] theorem passApply_log (pc : Bool) (s : State) : (passApply pc s).log = s.log := rfl
@[simp] theorem passApply_faultWdt (pc : Bool) (s : State) : (passApply pc s).faultWdt = s.faultWdt := rfl
@[simp] theorem passApply_refused (pc : Bool) (s : State) : (passApply pc s).refused = s.refused := rfl
@[simp] theorem passApply_trace (pc : Bool) (s : State) : (passApply pc s).trace = s.trace := rfl
@[simp] theorem passApply_envIndex (pc : Bool) (s : State) : (passApply pc s).envIndex = s.envIndex := rfl

/-! ## applyFilter: the active filter -/

@[simp] theorem applyFilter_par (pc : Bool) (s : State) : (applyFilter pc s).par = s.par := by simp only [applyFilter]; split <;> simp [nopApply]
@[simp] theorem applyFilter_rxLevel (pc : Bool) (s : State) : (applyFilter pc s).rxLevel = s.rxLevel := by simp only [applyFilter]; split <;> simp [nopApply]
@[simp] theorem applyFilter_ctlLevel (pc : Bool) (s : State) : (applyFilter pc s).ctlLevel = s.ctlLevel := by simp only [applyFilter]; split <;> simp [nopApply]
@[simp] theorem applyFilter_cfgFilter (pc : Bool) (s : State) : (applyFilter pc s).cfgFilter = s.cfgFilter := by simp only [applyFilter]; split <;> simp [nopApply]
@[simp] theorem applyFilter_cfgLowpass (pc : Bool) (s : State) : (applyFilter pc s).cfgLowpass = s.cfgLowpass := by simp only [applyFilter]; split <;> simp [nopApply]
@[simp] theorem applyFilter_cfgNvsum (pc : Bool) (s : State) : (applyFilter pc s).cfgNvsum = s.cfgNvsum := by simp only [applyFilter]; split <;> simp [nopApply]
@[simp] theorem applyFilter_sigVersion (pc : Bool) (s : State) : (applyFilter pc s).sigVersion = s.sigVersion := by simp only [applyFilter]; split <;> simp [nopApply]
@[simp] theorem applyFilter_sigChecksum (pc : Bool) (s : State) : (applyFilter pc s).sigChecksum = s.sigChecksum := by simp only [applyFilter]; split <;> simp [nopApply]
@[simp] theorem applyFilter_edgeIrqEn (pc : Bool) (s : State) : (applyFilter pc s).edgeIrqEn = s.edgeIrqEn := by simp only [applyFilter]; split <;> simp [nopApply]
@[simp] theorem applyFilter_tickCount (pc : Bool) (s : State) : (applyFilter pc s).tickCount = s.tickCount := by simp only [applyFilter]; split <;> simp [nopApply]
@[simp] theorem applyFilter_sigCountdown (pc : Bool) (s : State) : (applyFilter pc s).sigCountdown = s.sigCountdown := by simp only [applyFilter]; split <;> simp [nopApply]
@[simp] theorem applyFilter_recvingSince (pc : Bool) (s : State) : (applyFilter pc s).recvingSince = s.recvingSince := by simp only [applyFilter]; split <;> simp [nopApply]
@[simp] theorem applyFilter_wdtMissed (pc : Bool) (s : State) : (applyFilter pc s).wdtMissed = s.wdtMissed := by simp only [applyFilter]; split <;> simp [nopApply]
@[simp] theorem applyFilter_pinSnapshotRx (pc : Bool) (s : State) : (applyFilter pc s).pinSnapshotRx = s.pinSnapshotRx := by simp only [applyFilter]; split <;> simp [nopApply]
@[simp] theorem applyFilter_pinSnapshotCtl (pc : Bool) (s : State) : (applyFilter pc s).pinSnapshotCtl = s.pinSnapshotCtl := by simp only [applyFilter]; split <;> simp [nopApply]
@[simp] theorem applyFilter_pcPending (pc : Bool) (s : State) : (applyFilter pc s).pcPending = s.pcPending := by simp only [applyFilter]; split <;> simp [nopApply]
@[simp] theorem applyFilter_lpPending (pc : Bool) (s : State) : (applyFilter pc s).lpPending = s.lpPending := by simp only [applyFilter]; split <;> simp [nopApply]
@[simp] theorem applyFilter_lpCount (pc : Bool) (s : State) : (applyFilter pc s).lpCount = s.lpCount := by simp only [applyFilter]; split <;> simp [nopApply]
@[simp] theorem applyFilter_sigActive (pc : Bool) (s : State) : (applyFilter pc s).sigActive = s.sigActive := by simp only [applyFilter]; split <;> simp [nopApply]
@[simp] theorem applyFilter_sigRep (pc : Bool) (s : State) : (applyFilter pc s).sigRep = s.sigRep := by simp only [applyFilter]; split <;> simp [nopApply]
@[simp] theorem applyFilter_sigPos (pc : Bool) (s : State) : (applyFilter pc s).sigPos = s.sigPos := by simp only [applyFilter]; split <;> simp [nopApply]
@[simp] theorem applyFilter_ctlState (pc : Bool) (s : State) : (applyFilter pc s).ctlState = s.ctlState := by simp only [applyFilter]; split <;> simp [nopApply]
@[simp] theorem applyFilter_ctlActive (pc : Bool) (s : State) : (applyFilter pc s).ctlActive = s.ctlActive := by simp only [applyFilter]; split <;> simp [nopApply]
@[simp] theorem applyFilter_ctlCount (pc : Bool) (s : State) : (applyFilter pc s).ctlCount = s.ctlCount := by simp only [applyFilter]; split <;> simp [nopApply]
@[simp] theorem applyFilter_ctlValue (pc : Bool) (s : State) : (applyFilter pc s).ctlValue = s.ctlValue := by simp only [applyFilter]; split <;> simp [nopApply]
@[simp] theorem applyFilter_ctlPressTick (pc : Bool) (s : State) : (applyFilter pc s).ctlPressTick = s.ctlPressTick := by simp only [applyFilter]; split <;> simp [nopApply]
@[simp] theorem applyFilter_ctlReleaseTick (pc : Bool) (s : State) : (applyFilter pc s).ctlReleaseTick = s.ctlReleaseTick := by simp only [applyFilter]; split <;> simp [nopApply]
@[simp] theorem applyFilter_nv (pc : Bool) (s : State) : (applyFilter pc s).nv = s.nv := by simp only [applyFilter]; split <;> simp [nopApply]
@[simp] theorem applyFilter_faultWdt (pc : Bool) (s : State) : (applyFilter pc s).faultWdt = s.faultWdt := by simp only [applyFilter]; split <;> simp [nopApply]
@[simp] theorem applyFilter_refused (pc : Bool) (s : State) : (applyFilter pc s).refused = s.refused := by simp only [applyFilter]; split <;> simp [nopApply]
@[simp] theorem applyFilter_trace (pc : Bool) (s : State) : (applyFilter pc s).trace = s.trace := by simp only [applyFilter]; split <;> simp [nopApply]
@[simp] theorem applyFilter_envIndex (pc : Bool) (s : State) : (applyFilter pc s).envIndex = s.envIndex := by simp only [applyFilter]; split <;> simp [nopApply]

/-! ## applyFilter true: the pin-change entries schedule no pulse, replay nothing and emit no test pulse -/

@[simp] theorem applyFilter_true_outRemaining (s : State) : (applyFilter true s).outRemaining = s.outRemaining := by
  simp only [applyFilter]; split <;> simp [testsigApply, legacyApply, trainApply]
@[simp] theorem applyFilter_true_rbRead (s : State) : (applyFilter true s).rbRead = s.rbRead := by
  simp only [applyFilter]; split <;> simp [testsigApply, legacyApply, trainApply]
@[simp] theorem applyFilter_true_tsIdx (s : State) : (applyFilter true s).tsIdx = s.tsIdx := by
  simp only [applyFilter]; split <;> simp [testsigApply, legacyApply, trainApply]

/-! ## deliverEdge: a delivered edge -/

@[simp] theorem deliverEdge_par (s : State) : (deliverEdge s).par = s.par := by simp [deliverEdge]
@[simp] theorem deliverEdge_rxLevel (s : State) : (deliverEdge s).rxLevel = s.rxLevel := by simp [deliverEdge]
@[simp] theorem deliverEdge_ctlLevel (s : State) : (deliverEdge s).ctlLevel = s.ctlLevel := by simp [deliverEdge]
@[simp] theorem deliverEdge_cfgFilter (s : State) : (deliverEdge s).cfgFilter = s.cfgFilter := by simp [deliverEdge]
@[simp] theorem deliverEdge_cfgLowpass (s : State) : (deliverEdge s).cfgLowpass = s.cfgLowpass := by simp [deliverEdge]
@[simp] theorem deliverEdge_cfgNvsum (s : State) : (deliverEdge s).cfgNvsum = s.cfgNvsum := by simp [deliverEdge]
@[simp] theorem deliverEdge_sigVersion (s : State) : (deliverEdge s).sigVersion = s.sigVersion := by simp [deliverEdge]
@[simp] theorem deliverEdge_sigChecksum (s : State) : (deliverEdge s).sigChecksum = s.sigChecksum := by simp [deliverEdge]
@[simp] theorem deliverEdge_edgeIrqEn (s : State) : (deliverEdge s).edgeIrqEn = s.edgeIrqEn := by simp [deliverEdge]
@[simp] theorem deliverEdge_tickCount (s : State) : (deliverEdge s).tickCount = s.tickCount := by simp [deliverEdge]
@[simp] theorem deliverEdge_sigCountdown (s : State) : (deliverEdge s).sigCountdown = s.sigCountdown := by simp [deliverEdge]
@[simp] theorem deliverEdge_outRemaining (s : State) : (deliverEdge s).outRemaining = s.outRemaining := by simp [deliverEdge]
@[simp] theorem deliverEdge_wdtMissed (s : State) : (deliverEdge s).wdtMissed = s.wdtMissed := by simp [deliverEdge]
@[simp] theorem deliverEdge_pinSnapshotRx (s : State) : (deliverEdge s).pinSnapshotRx = s.pinSnapshotRx := by simp [deliverEdge]
@[simp] theorem deliverEdge_pinSnapshotCtl (s : State) : (deliverEdge s).pinSnapshotCtl = s.pinSnapshotCtl := by simp [deliverEdge]
@[simp] theorem deliverEdge_pcPending (s : State) : (deliverEdge s).pcPending = s.pcPending := by simp [deliverEdge]
@[simp] theorem deliverEdge_lpPending (s : State) : (deliverEdge s).lpPending = s.lpPending := by simp [deliverEdge]
@[simp] theorem deliverEdge_lpCount (s : State) : (deliverEdge s).lpCount = s.lpCount := by simp [deliverEdge]
@[simp] theorem deliverEdge_sigActive (s : State) : (deliverEdge s).sigActive = s.sigActive := by simp [deliverEdge]
@[simp] theorem deliverEdge_sigRep (s : State) : (deliverEdge s).sigRep = s.sigRep := by simp [deliverEdge]
@[simp] theorem deliverEdge_sigPos (s : State) : (deliverEdge s).sigPos = s.sigPos := by simp [deliverEdge]
@[simp] theorem deliverEdge_rbRead (s : State) : (deliverEdge s).rbRead = s.rbRead := by simp [deliverEdge]
@[simp] theorem deliverEdge_tsIdx (s : State) : (deliverEdge s).tsIdx = s.tsIdx := by simp [deliverEdge]
@[simp] theorem deliverEdge_ctlState (s : State) : (deliverEdge s).ctlState = s.ctlState := by simp [deliverEdge]
@[simp] theorem deliverEdge_ctlActive (s : State) : (deliverEdge s).ctlActive = s.ctlActive := by simp [deliverEdge]
@[simp] theorem deliverEdge_ctlCount (s : State) : (deliverEdge s).ctlCount = s.ctlCount := by simp [deliverEdge]
@[simp] theorem deliverEdge_ctlValue (s : State) : (deliverEdge s).ctlValue = s.ctlValue := by simp [deliverEdge]
@[simp] theorem deliverEdge_ctlPressTick (s : State) : (deliverEdge s).ctlPressTick = s.ctlPressTick := by simp [deliverEdge]
@[simp] theorem deliverEdge_ctlReleaseTick (s : State) : (deliverEdge s).ctlReleaseTick = s.ctlReleaseTick := by simp [deliverEdge]
@[simp] theorem deliverEdge_nv (s : State) : (deliverEdge s).nv = s.nv := by simp [deliverEdge]
@[simp] theorem deliverEdge_faultWdt (s : State) : (deliverEdge s).faultWdt = s.faultWdt := by simp [deliverEdge]
@[simp] theorem deliverEdge_refused (s : State) : (deliverEdge s).refused = s.refused := by simp [deliverEdge]
@[simp] theorem deliverEdge_trace (s : State) : (deliverEdge s).trace = s.trace := by simp [deliverEdge]
@[simp] theorem deliverEdge_envIndex (s : State) : (deliverEdge s).envIndex = s.envIndex := by simp [deliverEdge]

/-! ## lowpassStep: one advance of the delay unit -/

@[simp] theorem lowpassStep_par (s : State) : (lowpassStep s).par = s.par := by simp only [lowpassStep]; repeat (first | rfl | split | simp)
@[simp] theorem lowpassStep_rxLevel (s : State) : (lowpassStep s).rxLevel = s.rxLevel := by simp only [lowpassStep]; repeat (first | rfl | split | simp)
@[simp] theorem lowpassStep_ctlLevel (s : State) : (lowpassStep s).ctlLevel = s.ctlLevel := by simp only [lowpassStep]; repeat (first | rfl | split | simp)
@[simp] theorem lowpassStep_cfgFilter (s : State) : (lowpassStep s).cfgFilter = s.cfgFilter := by simp only [lowpassStep]; repeat (first | rfl | split | simp)
@[simp] theorem lowpassStep_cfgLowpass (s : State) : (lowpassStep s).cfgLowpass = s.cfgLowpass := by simp only [lowpassStep]; repeat (first | rfl | split | simp)
@[simp] theorem lowpassStep_cfgNvsum (s : State) : (lowpassStep s).cfgNvsum = s.cfgNvsum := by simp only [lowpassStep]; repeat (first | rfl | split | simp)
@[simp] theorem lowpassStep_sigVersion (s : State) : (lowpassStep s).sigVersion = s.sigVersion := by simp only [lowpassStep]; repeat (first | rfl | split | simp)
@[simp] theorem lowpassStep_sigChecksum (s : State) : (lowpassStep s).sigChecksum = s.sigChecksum := by simp only [lowpassStep]; repeat (first | rfl | split | simp)
@[simp] theorem lowpassStep_edgeIrqEn (s : State) : (lowpassStep s).edgeIrqEn = s.edgeIrqEn := by simp only [lowpassStep]; repeat (first | rfl | split | simp)
@[simp] theorem lowpassStep_tickCount (s : State) : (lowpassStep s).tickCount = s.tickCount := by simp only [lowpassStep]; repeat (first | rfl | split | simp)
@[simp] theorem lowpassStep_sigCountdown (s : State) : (lowpassStep s).sigCountdown = s.sigCountdown := by simp only [lowpassStep]; repeat (first | rfl | split | simp)
@[simp] theorem lowpassStep_outRemaining (s : State) : (lowpassStep s).outRemaining = s.outRemaining := by simp only [lowpassStep]; repeat (first | rfl | split | simp)
@[simp] theorem lowpassStep_wdtMissed (s : State) : (lowpassStep s).wdtMissed = s.wdtMissed := by simp only [lowpassStep]; repeat (first | rfl | split | simp)
@[simp] theorem lowpassStep_pinSnapshotRx (s : State) : (lowpassStep s).pinSnapshotRx = s.pinSnapshotRx := by simp only [lowpassStep]; repeat (first | rfl | split | simp)
@[simp] theorem lowpassStep_pinSnapshotCtl (s : State) : (lowpassStep s).pinSnapshotCtl = s.pinSnapshotCtl := by simp only [lowpassStep]; repeat (first | rfl | split | simp)
@[simp] theorem lowpassStep_pcPending (s : State) : (lowpassStep s).pcPending = s.pcPending := by simp only [lowpassStep]; repeat (first | rfl | split | simp)
@[simp] theorem lowpassStep_sigActive (s : State) : (lowpassStep s).sigActive = s.sigActive := by simp only [lowpassStep]; repeat (first | rfl | split | simp)
@[simp] theorem lowpassStep_sigRep (s : State) : (lowpassStep s).sigRep = s.sigRep := by simp only [lowpassStep]; repeat (first | rfl | split | simp)
@[simp] theorem lowpassStep_sigPos (s : State) : (lowpassStep s).sigPos = s.sigPos := by simp only [lowpassStep]; repeat (first | rfl | split | simp)
@[simp] theorem lowpassStep_rbRead (s : State) : (lowpassStep s).rbRead = s.rbRead := by simp only [lowpassStep]; repeat (first | rfl | split | simp)
@[simp] theorem lowpassStep_tsIdx (s : State) : (lowpassStep s).tsIdx = s.tsIdx := by simp only [lowpassStep]; repeat (first | rfl | split | simp)
@[simp] theorem lowpassStep_ctlState (s : State) : (lowpassStep s).ctlState = s.ctlState := by simp only [lowpassStep]; repeat (first | rfl | split | simp)
@[simp] theorem lowpassStep_ctlActive (s : State) : (lowpassStep s).ctlActive = s.ctlActive := by simp only [lowpassStep]; repeat (first | rfl | split | simp)
@[simp] theorem lowpassStep_ctlCount (s : State) : (lowpassStep s).ctlCount = s.ctlCount := by simp only [lowpassStep]; repeat (first | rfl | split | simp)
@[simp] theorem lowpassStep_ctlValue (s : State) : (lowpassStep s).ctlValue = s.ctlValue := by simp only [lowpassStep]; repeat (first | rfl | split | simp)
@[simp] theorem lowpassStep_ctlPressTick (s : State) : (lowpassStep s).ctlPressTick = s.ctlPressTick := by simp only [lowpassStep]; repeat (first | rfl | split | simp)
@[simp] theorem lowpassStep_ctlReleaseTick (s : State) : (lowpassStep s).ctlReleaseTick = s.ctlReleaseTick := by simp only [lowpassStep]; repeat (first | rfl | split | simp)
@[simp] theorem lowpassStep_nv (s : State) : (lowpassStep s).nv = s.nv := by simp only [lowpassStep]; repeat (first | rfl | split | simp)
@[simp] theorem lowpassStep_faultWdt (s : State) : (lowpassStep s).faultWdt = s.faultWdt := by simp only [lowpassStep]; repeat (first | rfl | split | simp)
@[simp] theorem lowpassStep_refused (s : State) : (lowpassStep s).refused = s.refused := by simp only [lowpassStep]; repeat (first | rfl | split | simp)
@[simp] theorem lowpassStep_trace (s : State) : (lowpassStep s).trace = s.trace := by simp only [lowpassStep]; repeat (first | rfl | split | simp)
@[simp] theorem lowpassStep_envIndex (s : State) : (lowpassStep s).envIndex = s.envIndex := by simp only [lowpassStep]; repeat (first | rfl | split | simp)

/-! ## rxEdge: a receiver edge -/

@[simp] theorem rxEdge_par (s : State) : (rxEdge s).par = s.par := by simp only [rxEdge]; repeat (first | rfl | split | simp)
@[simp] theorem rxEdge_rxLevel (s : State) : (rxEdge s).rxLevel = s.rxLevel := by simp only [rxEdge]; repeat (first | rfl | split | simp)
@[simp] theorem rxEdge_ctlLevel (s : State) : (rxEdge s).ctlLevel = s.ctlLevel := by simp only [rxEdge]; repeat (first | rfl | split | simp)
@[simp] theorem rxEdge_cfgFilter (s : State) : (rxEdge s).cfgFilter = s.cfgFilter := by simp only [rxEdge]; repeat (first | rfl | split | simp)
@[simp] theorem rxEdge_cfgLowpass (s : State) : (rxEdge s).cfgLowpass = s.cfgLowpass := by simp only [rxEdge]; repeat (first | rfl | split | simp)
@[simp] theorem rxEdge_cfgNvsum (s : State) : (rxEdge s).cfgNvsum = s.cfgNvsum := by simp only [rxEdge]; repeat (first | rfl | split | simp)
@[simp] theorem rxEdge_sigVersion (s : State) : (rxEdge s).sigVersion = s.sigVersion := by simp only [rxEdge]; repeat (first | rfl | split | simp)
@[simp] theorem rxEdge_sigChecksum (s : State) : (rxEdge s).sigChecksum = s.sigChecksum := by simp only [rxEdge]; repeat (first | rfl | split | simp)
@[simp] theorem rxEdge_edgeIrqEn (s : State) : (rxEdge s).edgeIrqEn = s.edgeIrqEn := by simp only [rxEdge]; repeat (first | rfl | split | simp)
@[simp] theorem rxEdge_tickCount (s : State) : (rxEdge s).tickCount = s.tickCount := by simp only [rxEdge]; repeat (first | rfl | split | simp)
@[simp] theorem rxEdge_sigCountdown (s : State) : (rxEdge s).sigCountdown = s.sigCountdown := by simp only [rxEdge]; repeat (first | rfl | split | simp)
@[simp] theorem rxEdge_outRemaining (s : State) : (rxEdge s).outRemaining = s.outRemaining := by simp only [rxEdge]; repeat (first | rfl | split | simp)
@[simp] theorem rxEdge_wdtMissed (s : State) : (rxEdge s).wdtMissed = s.wdtMissed := by simp only [rxEdge]; repeat (first | rfl | split | simp)
@[simp] theorem rxEdge_pinSnapshotRx (s : State) : (rxEdge s).pinSnapshotRx = s.pinSnapshotRx := by simp only [rxEdge]; repeat (first | rfl | split | simp)
@[simp] theorem rxEdge_pinSnapshotCtl (s : State) : (rxEdge s).pinSnapshotCtl = s.pinSnapshotCtl := by simp only [rxEdge]; repeat (first | rfl | split | simp)
@[simp] theorem rxEdge_pcPending (s : State) : (rxEdge s).pcPending = s.pcPending := by simp only [rxEdge]; repeat (first | rfl | split | simp)
@[simp] theorem rxEdge_sigActive (s : State) : (rxEdge s).sigActive = s.sigActive := by simp only [rxEdge]; repeat (first | rfl | split | simp)
@[simp] theorem rxEdge_sigRep (s : State) : (rxEdge s).sigRep = s.sigRep := by simp only [rxEdge]; repeat (first | rfl | split | simp)
@[simp] theorem rxEdge_sigPos (s : State) : (rxEdge s).sigPos = s.sigPos := by simp only [rxEdge]; repeat (first | rfl | split | simp)
@[simp] theorem rxEdge_rbRead (s : State) : (rxEdge s).rbRead = s.rbRead := by simp only [rxEdge]; repeat (first | rfl | split | simp)
@[simp] theorem rxEdge_tsIdx (s : State) : (rxEdge s).tsIdx = s.tsIdx := by simp only [rxEdge]; repeat (first | rfl | split | simp)
@[simp] theorem rxEdge_ctlState (s : State) : (rxEdge s).ctlState = s.ctlState := by simp only [rxEdge]; repeat (first | rfl | split | simp)
@[simp] theorem rxEdge_ctlActive (s : State) : (rxEdge s).ctlActive = s.ctlActive := by simp only [rxEdge]; repeat (first | rfl | split | simp)
@[simp] theorem rxEdge_ctlCount (s : State) : (rxEdge s).ctlCount = s.ctlCount := by simp only [rxEdge]; repeat (first | rfl | split | simp)
@[simp] theorem rxEdge_ctlValue (s : State) : (rxEdge s).ctlValue = s.ctlValue := by simp only [rxEdge]; repeat (first | rfl | split | simp)
@[simp] theorem rxEdge_ctlPressTick (s : State) : (rxEdge s).ctlPressTick = s.ctlPressTick := by simp only [rxEdge]; repeat (first | rfl | split | simp)
@[simp] theorem rxEdge_ctlReleaseTick (s : State) : (rxEdge s).ctlReleaseTick = s.ctlReleaseTick := by simp only [rxEdge]; repeat (first | rfl | split | simp)
@[simp] theorem rxEdge_nv (s : State) : (rxEdge s).nv = s.nv := by simp only [rxEdge]; repeat (first | rfl | split | simp)
@[simp] theorem rxEdge_faultWdt (s : State) : (rxEdge s).faultWdt = s.faultWdt := by simp only [rxEdge]; repeat (first | rfl | split | simp)
@[simp] theorem rxEdge_refused (s : State) : (rxEdge s).refused = s.refused := by simp only [rxEdge]; repeat (first | rfl | split | simp)
@[simp] theorem rxEdge_trace (s : State) : (rxEdge s).trace = s.trace := by simp only [rxEdge]; repeat (first | rfl | split | simp)
@[simp] theorem rxEdge_envIndex (s : State) : (rxEdge s).envIndex = s.envIndex := by simp only [rxEdge]; repeat (first | rfl | split | simp)

/-! ## dispatchRx: the receiver's part of a dispatch -/

@[simp] theorem dispatchRx_par (s : State) : (dispatchRx s).par = s.par := by simp only [dispatchRx]; split <;> simp
@[simp] theorem dispatchRx_rxLevel (s : State) : (dispatchRx s).rxLevel = s.rxLevel := by simp only [dispatchRx]; split <;> simp
@[simp] theorem dispatchRx_ctlLevel (s : State) : (dispatchRx s).ctlLevel = s.ctlLevel := by simp only [dispatchRx]; split <;> simp
@[simp] theorem dispatchRx_cfgFilter (s : State) : (dispatchRx s).cfgFilter = s.cfgFilter := by simp only [dispatchRx]; split <;> simp
@[simp] theorem dispatchRx_cfgLowpass (s : State) : (dispatchRx s).cfgLowpass = s.cfgLowpass := by simp only [dispatchRx]; split <;> simp
@[simp] theorem dispatchRx_cfgNvsum (s : State) : (dispatchRx s).cfgNvsum = s.cfgNvsum := by simp only [dispatchRx]; split <;> simp
@[simp] theorem dispatchRx_sigVersion (s : State) : (dispatchRx s).sigVersion = s.sigVersion := by simp only [dispatchRx]; split <;> simp
@[simp] theorem dispatchRx_sigChecksum (s : State) : (dispatchRx s).sigChecksum = s.sigChecksum := by simp only [dispatchRx]; split <;> simp
@[simp] theorem dispatchRx_edgeIrqEn (s : State) : (dispatchRx s).edgeIrqEn = s.edgeIrqEn := by simp only [dispatchRx]; split <;> simp
@[simp] theorem dispatchRx_tickCount (s : State) : (dispatchRx s).tickCount = s.tickCount := by simp only [dispatchRx]; split <;> simp
@[simp] theorem dispatchRx_sigCountdown (s : State) : (dispatchRx s).sigCountdown = s.sigCountdown := by simp only [dispatchRx]; split <;> simp
@[simp] theorem dispatchRx_outRemaining (s : State) : (dispatchRx s).outRemaining = s.outRemaining := by simp only [dispatchRx]; split <;> simp
@[simp] theorem dispatchRx_wdtMissed (s : State) : (dispatchRx s).wdtMissed = s.wdtMissed := by simp only [dispatchRx]; split <;> simp
@[simp] theorem dispatchRx_sigActive (s : State) : (dispatchRx s).sigActive = s.sigActive := by simp only [dispatchRx]; split <;> simp
@[simp] theorem dispatchRx_sigRep (s : State) : (dispatchRx s).sigRep = s.sigRep := by simp only [dispatchRx]; split <;> simp
@[simp] theorem dispatchRx_sigPos (s : State) : (dispatchRx s).sigPos = s.sigPos := by simp only [dispatchRx]; split <;> simp
@[simp] theorem dispatchRx_rbRead (s : State) : (dispatchRx s).rbRead = s.rbRead := by simp only [dispatchRx]; split <;> simp
@[simp] theorem dispatchRx_tsIdx (s : State) : (dispatchRx s).tsIdx = s.tsIdx := by simp only [dispatchRx]; split <;> simp
@[simp] theorem dispatchRx_ctlState (s : State) : (dispatchRx s).ctlState = s.ctlState := by simp only [dispatchRx]; split <;> simp
@[simp] theorem dispatchRx_ctlActive (s : State) : (dispatchRx s).ctlActive = s.ctlActive := by simp only [dispatchRx]; split <;> simp
@[simp] theorem dispatchRx_ctlCount (s : State) : (dispatchRx s).ctlCount = s.ctlCount := by simp only [dispatchRx]; split <;> simp
@[simp] theorem dispatchRx_ctlValue (s : State) : (dispatchRx s).ctlValue = s.ctlValue := by simp only [dispatchRx]; split <;> simp
@[simp] theorem dispatchRx_ctlPressTick (s : State) : (dispatchRx s).ctlPressTick = s.ctlPressTick := by simp only [dispatchRx]; split <;> simp
@[simp] theorem dispatchRx_ctlReleaseTick (s : State) : (dispatchRx s).ctlReleaseTick = s.ctlReleaseTick := by simp only [dispatchRx]; split <;> simp
@[simp] theorem dispatchRx_nv (s : State) : (dispatchRx s).nv = s.nv := by simp only [dispatchRx]; split <;> simp
@[simp] theorem dispatchRx_faultWdt (s : State) : (dispatchRx s).faultWdt = s.faultWdt := by simp only [dispatchRx]; split <;> simp
@[simp] theorem dispatchRx_refused (s : State) : (dispatchRx s).refused = s.refused := by simp only [dispatchRx]; split <;> simp
@[simp] theorem dispatchRx_trace (s : State) : (dispatchRx s).trace = s.trace := by simp only [dispatchRx]; split <;> simp
@[simp] theorem dispatchRx_envIndex (s : State) : (dispatchRx s).envIndex = s.envIndex := by simp only [dispatchRx]; split <;> simp

/-! ## advancePos: the next position of the frame -/

@[simp] theorem advancePos_par (s : State) : (advancePos s).par = s.par := by simp only [advancePos]; split <;> rfl
@[simp] theorem advancePos_rxLevel (s : State) : (advancePos s).rxLevel = s.rxLevel := by simp only [advancePos]; split <;> rfl
@[simp] theorem advancePos_ctlLevel (s : State) : (advancePos s).ctlLevel = s.ctlLevel := by simp only [advancePos]; split <;> rfl
@[simp] theorem advancePos_outLevel (s : State) : (advancePos s).outLevel = s.outLevel := by simp only [advancePos]; split <;> rfl
@[simp] theorem advancePos_cfgFilter (s : State) : (advancePos s).cfgFilter = s.cfgFilter := by simp only [advancePos]; split <;> rfl
@[simp] theorem advancePos_cfgLowpass (s : State) : (advancePos s).cfgLowpass = s.cfgLowpass := by simp only [advancePos]; split <;> rfl
@[simp] theorem advancePos_cfgNvsum (s : State) : (advancePos s).cfgNvsum = s.cfgNvsum := by simp only [advancePos]; split <;> rfl
@[simp] theorem advancePos_sigVersion (s : State) : (advancePos s).sigVersion = s.sigVersion := by simp only [advancePos]; split <;> rfl
@[simp] theorem advancePos_sigChecksum (s : State) : (advancePos s).sigChecksum = s.sigChecksum := by simp only [advancePos]; split <;> rfl
@[simp] theorem advancePos_edgeIrqEn (s : State) : (advancePos s).edgeIrqEn = s.edgeIrqEn := by simp only [advancePos]; split <;> rfl
@[simp] theorem advancePos_tickCount (s : State) : (advancePos s).tickCount = s.tickCount := by simp only [advancePos]; split <;> rfl
@[simp] theorem advancePos_sigCountdown (s : State) : (advancePos s).sigCountdown = s.sigCountdown := by simp only [advancePos]; split <;> rfl
@[simp] theorem advancePos_outRemaining (s : State) : (advancePos s).outRemaining = s.outRemaining := by simp only [advancePos]; split <;> rfl
@[simp] theorem advancePos_recvingSince (s : State) : (advancePos s).recvingSince = s.recvingSince := by simp only [advancePos]; split <;> rfl
@[simp] theorem advancePos_wdtMissed (s : State) : (advancePos s).wdtMissed = s.wdtMissed := by simp only [advancePos]; split <;> rfl
@[simp] theorem advancePos_pinSnapshotRx (s : State) : (advancePos s).pinSnapshotRx = s.pinSnapshotRx := by simp only [advancePos]; split <;> rfl
@[simp] theorem advancePos_pinSnapshotCtl (s : State) : (advancePos s).pinSnapshotCtl = s.pinSnapshotCtl := by simp only [advancePos]; split <;> rfl
@[simp] theorem advancePos_pcPending (s : State) : (advancePos s).pcPending = s.pcPending := by simp only [advancePos]; split <;> rfl
@[simp] theorem advancePos_lpPending (s : State) : (advancePos s).lpPending = s.lpPending := by simp only [advancePos]; split <;> rfl
@[simp] theorem advancePos_lpCount (s : State) : (advancePos s).lpCount = s.lpCount := by simp only [advancePos]; split <;> rfl
@[simp] theorem advancePos_sigActive (s : State) : (advancePos s).sigActive = s.sigActive := by simp only [advancePos]; split <;> rfl
@[simp] theorem advancePos_rb (s : State) : (advancePos s).rb = s.rb := by simp only [advancePos]; split <;> rfl
@[simp] theorem advancePos_rbWrite (s : State) : (advancePos s).rbWrite = s.rbWrite := by simp only [advancePos]; split <;> rfl
@[simp] theorem advancePos_rbRead (s : State) : (advancePos s).rbRead = s.rbRead := by simp only [advancePos]; split <;> rfl
@[simp] theorem advancePos_rbTrainStart (s : State) : (advancePos s).rbTrainStart = s.rbTrainStart := by simp only [advancePos]; split <;> rfl
@[simp] theorem advancePos_trainLen (s : State) : (advancePos s).trainLen = s.trainLen := by simp only [advancePos]; split <;> rfl
@[simp] theorem advancePos_ldShift (s : State) : (advancePos s).ldShift = s.ldShift := by simp only [advancePos]; split <;> rfl
@[simp] theorem advancePos_tsIdx (s : State) : (advancePos s).tsIdx = s.tsIdx := by simp only [advancePos]; split <;> rfl
@[simp] theorem advancePos_ctlState (s : State) : (advancePos s).ctlState = s.ctlState := by simp only [advancePos]; split <;> rfl
@[simp] theorem advancePos_ctlActive (s : State) : (advancePos s).ctlActive = s.ctlActive := by simp only [advancePos]; split <;> rfl
@[simp] theorem advancePos_ctlCount (s : State) : (advancePos s).ctlCount = s.ctlCount := by simp only [advancePos]; split <;> rfl
@[simp] theorem advancePos_ctlValue (s : State) : (advancePos s).ctlValue = s.ctlValue := by simp only [advancePos]; split <;> rfl
@[simp] theorem advancePos_ctlPressTick (s : State) : (advancePos s).ctlPressTick = s.ctlPressTick := by simp only [advancePos]; split <;> rfl
@[simp] theorem advancePos_ctlReleaseTick (s : State) : (advancePos s).ctlReleaseTick = s.ctlReleaseTick := by simp only [advancePos]; split <;> rfl
@[simp] theorem advancePos_nv (s : State) : (advancePos s).nv = s.nv := by simp only [advancePos]; split <;> rfl
@[simp] theorem advancePos_log (s : State) : (advancePos s).log = s.log := by simp only [advancePos]; split <;> rfl
@[simp] theorem advancePos_faultWdt (s : State) : (advancePos s).faultWdt = s.faultWdt := by simp only [advancePos]; split <;> rfl
@[simp] theorem advancePos_refused (s : State) : (advancePos s).refused = s.refused := by simp only [advancePos]; split <;> rfl
@[simp] theorem advancePos_outTrace (s : State) : (advancePos s).outTrace = s.outTrace := by simp only [advancePos]; split <;> rfl
@[simp] theorem advancePos_trace (s : State) : (advancePos s).trace = s.trace := by simp only [advancePos]; split <;> rfl
@[simp] theorem advancePos_envIndex (s : State) : (advancePos s).envIndex = s.envIndex := by simp only [advancePos]; split <;> rfl

/-! ## emitPulse: one pulse of the frame -/

@[simp] theorem emitPulse_par (d : Duration) (s : State) : (emitPulse d s).par = s.par := by simp [emitPulse]
@[simp] theorem emitPulse_rxLevel (d : Duration) (s : State) : (emitPulse d s).rxLevel = s.rxLevel := by simp [emitPulse]
@[simp] theorem emitPulse_ctlLevel (d : Duration) (s : State) : (emitPulse d s).ctlLevel = s.ctlLevel := by simp [emitPulse]
@[simp] theorem emitPulse_cfgFilter (d : Duration) (s : State) : (emitPulse d s).cfgFilter = s.cfgFilter := by simp [emitPulse]
@[simp] theorem emitPulse_cfgLowpass (d : Duration) (s : State) : (emitPulse d s).cfgLowpass = s.cfgLowpass := by simp [emitPulse]
@[simp] theorem emitPulse_cfgNvsum (d : Duration) (s : State) : (emitPulse d s).cfgNvsum = s.cfgNvsum := by simp [emitPulse]
@[simp] theorem emitPulse_sigVersion (d : Duration) (s : State) : (emitPulse d s).sigVersion = s.sigVersion := by simp [emitPulse]
@[simp] theorem emitPulse_sigChecksum (d : Duration) (s : State) : (emitPulse d s).sigChecksum = s.sigChecksum := by simp [emitPulse]
@[simp] theorem emitPulse_edgeIrqEn (d : Duration) (s : State) : (emitPulse d s).edgeIrqEn = s.edgeIrqEn := by simp [emitPulse]
@[simp] theorem emitPulse_tickCount (d : Duration) (s : State) : (emitPulse d s).tickCount = s.tickCount := by simp [emitPulse]
@[simp] theorem emitPulse_sigCountdown (d : Duration) (s : State) : (emitPulse d s).sigCountdown = s.sigCountdown := by simp [emitPulse]
@[simp] theorem emitPulse_recvingSince (d : Duration) (s : State) : (emitPulse d s).recvingSince = s.recvingSince := by simp [emitPulse]
@[simp] theorem emitPulse_wdtMissed (d : Duration) (s : State) : (emitPulse d s).wdtMissed = s.wdtMissed := by simp [emitPulse]
@[simp] theorem emitPulse_pinSnapshotRx (d : Duration) (s : State) : (emitPulse d s).pinSnapshotRx = s.pinSnapshotRx := by simp [emitPulse]
@[simp] theorem emitPulse_pinSnapshotCtl (d : Duration) (s : State) : (emitPulse d s).pinSnapshotCtl = s.pinSnapshotCtl := by simp [emitPulse]
@[simp] theorem emitPulse_pcPending (d : Duration) (s : State) : (emitPulse d s).pcPending = s.pcPending := by simp [emitPulse]
@[simp] theorem emitPulse_lpPending (d : Duration) (s : State) : (emitPulse d s).lpPending = s.lpPending := by simp [emitPulse]
@[simp] theorem emitPulse_lpCount (d : Duration) (s : State) : (emitPulse d s).lpCount = s.lpCount := by simp [emitPulse]
@[simp] theorem emitPulse_sigActive (d : Duration) (s : State) : (emitPulse d s).sigActive = s.sigActive := by simp [emitPulse]
@[simp] theorem emitPulse_rb (d : Duration) (s : State) : (emitPulse d s).rb = s.rb := by simp [emitPulse]
@[simp] theorem emitPulse_rbWrite (d : Duration) (s : State) : (emitPulse d s).rbWrite = s.rbWrite := by simp [emitPulse]
@[simp] theorem emitPulse_rbRead (d : Duration) (s : State) : (emitPulse d s).rbRead = s.rbRead := by simp [emitPulse]
@[simp] theorem emitPulse_rbTrainStart (d : Duration) (s : State) : (emitPulse d s).rbTrainStart = s.rbTrainStart := by simp [emitPulse]
@[simp] theorem emitPulse_trainLen (d : Duration) (s : State) : (emitPulse d s).trainLen = s.trainLen := by simp [emitPulse]
@[simp] theorem emitPulse_ldShift (d : Duration) (s : State) : (emitPulse d s).ldShift = s.ldShift := by simp [emitPulse]
@[simp] theorem emitPulse_tsIdx (d : Duration) (s : State) : (emitPulse d s).tsIdx = s.tsIdx := by simp [emitPulse]
@[simp] theorem emitPulse_ctlState (d : Duration) (s : State) : (emitPulse d s).ctlState = s.ctlState := by simp [emitPulse]
@[simp] theorem emitPulse_ctlActive (d : Duration) (s : State) : (emitPulse d s).ctlActive = s.ctlActive := by simp [emitPulse]
@[simp] theorem emitPulse_ctlCount (d : Duration) (s : State) : (emitPulse d s).ctlCount = s.ctlCount := by simp [emitPulse]
@[simp] theorem emitPulse_ctlValue (d : Duration) (s : State) : (emitPulse d s).ctlValue = s.ctlValue := by simp [emitPulse]
@[simp] theorem emitPulse_ctlPressTick (d : Duration) (s : State) : (emitPulse d s).ctlPressTick = s.ctlPressTick := by simp [emitPulse]
@[simp] theorem emitPulse_ctlReleaseTick (d : Duration) (s : State) : (emitPulse d s).ctlReleaseTick = s.ctlReleaseTick := by simp [emitPulse]
@[simp] theorem emitPulse_nv (d : Duration) (s : State) : (emitPulse d s).nv = s.nv := by simp [emitPulse]
@[simp] theorem emitPulse_log (d : Duration) (s : State) : (emitPulse d s).log = s.log := by simp [emitPulse]
@[simp] theorem emitPulse_faultWdt (d : Duration) (s : State) : (emitPulse d s).faultWdt = s.faultWdt := by simp [emitPulse]
@[simp] theorem emitPulse_refused (d : Duration) (s : State) : (emitPulse d s).refused = s.refused := by simp [emitPulse]
@[simp] theorem emitPulse_trace (d : Duration) (s : State) : (emitPulse d s).trace = s.trace := by simp [emitPulse]
@[simp] theorem emitPulse_envIndex (d : Duration) (s : State) : (emitPulse d s).envIndex = s.envIndex := by simp [emitPulse]

/-! ## symbolPulse: one sub-pulse of a symbol -/

@[simp] theorem symbolPulse_par (c : Bool) (k : BitVec 2) (s : State) : (symbolPulse c k s).par = s.par := by simp [symbolPulse]
@[simp] theorem symbolPulse_rxLevel (c : Bool) (k : BitVec 2) (s : State) : (symbolPulse c k s).rxLevel = s.rxLevel := by simp [symbolPulse]
@[simp] theorem symbolPulse_ctlLevel (c : Bool) (k : BitVec 2) (s : State) : (symbolPulse c k s).ctlLevel = s.ctlLevel := by simp [symbolPulse]
@[simp] theorem symbolPulse_cfgFilter (c : Bool) (k : BitVec 2) (s : State) : (symbolPulse c k s).cfgFilter = s.cfgFilter := by simp [symbolPulse]
@[simp] theorem symbolPulse_cfgLowpass (c : Bool) (k : BitVec 2) (s : State) : (symbolPulse c k s).cfgLowpass = s.cfgLowpass := by simp [symbolPulse]
@[simp] theorem symbolPulse_cfgNvsum (c : Bool) (k : BitVec 2) (s : State) : (symbolPulse c k s).cfgNvsum = s.cfgNvsum := by simp [symbolPulse]
@[simp] theorem symbolPulse_sigVersion (c : Bool) (k : BitVec 2) (s : State) : (symbolPulse c k s).sigVersion = s.sigVersion := by simp [symbolPulse]
@[simp] theorem symbolPulse_sigChecksum (c : Bool) (k : BitVec 2) (s : State) : (symbolPulse c k s).sigChecksum = s.sigChecksum := by simp [symbolPulse]
@[simp] theorem symbolPulse_edgeIrqEn (c : Bool) (k : BitVec 2) (s : State) : (symbolPulse c k s).edgeIrqEn = s.edgeIrqEn := by simp [symbolPulse]
@[simp] theorem symbolPulse_tickCount (c : Bool) (k : BitVec 2) (s : State) : (symbolPulse c k s).tickCount = s.tickCount := by simp [symbolPulse]
@[simp] theorem symbolPulse_sigCountdown (c : Bool) (k : BitVec 2) (s : State) : (symbolPulse c k s).sigCountdown = s.sigCountdown := by simp [symbolPulse]
@[simp] theorem symbolPulse_recvingSince (c : Bool) (k : BitVec 2) (s : State) : (symbolPulse c k s).recvingSince = s.recvingSince := by simp [symbolPulse]
@[simp] theorem symbolPulse_wdtMissed (c : Bool) (k : BitVec 2) (s : State) : (symbolPulse c k s).wdtMissed = s.wdtMissed := by simp [symbolPulse]
@[simp] theorem symbolPulse_pinSnapshotRx (c : Bool) (k : BitVec 2) (s : State) : (symbolPulse c k s).pinSnapshotRx = s.pinSnapshotRx := by simp [symbolPulse]
@[simp] theorem symbolPulse_pinSnapshotCtl (c : Bool) (k : BitVec 2) (s : State) : (symbolPulse c k s).pinSnapshotCtl = s.pinSnapshotCtl := by simp [symbolPulse]
@[simp] theorem symbolPulse_pcPending (c : Bool) (k : BitVec 2) (s : State) : (symbolPulse c k s).pcPending = s.pcPending := by simp [symbolPulse]
@[simp] theorem symbolPulse_lpPending (c : Bool) (k : BitVec 2) (s : State) : (symbolPulse c k s).lpPending = s.lpPending := by simp [symbolPulse]
@[simp] theorem symbolPulse_lpCount (c : Bool) (k : BitVec 2) (s : State) : (symbolPulse c k s).lpCount = s.lpCount := by simp [symbolPulse]
@[simp] theorem symbolPulse_sigActive (c : Bool) (k : BitVec 2) (s : State) : (symbolPulse c k s).sigActive = s.sigActive := by simp [symbolPulse]
@[simp] theorem symbolPulse_rb (c : Bool) (k : BitVec 2) (s : State) : (symbolPulse c k s).rb = s.rb := by simp [symbolPulse]
@[simp] theorem symbolPulse_rbWrite (c : Bool) (k : BitVec 2) (s : State) : (symbolPulse c k s).rbWrite = s.rbWrite := by simp [symbolPulse]
@[simp] theorem symbolPulse_rbRead (c : Bool) (k : BitVec 2) (s : State) : (symbolPulse c k s).rbRead = s.rbRead := by simp [symbolPulse]
@[simp] theorem symbolPulse_rbTrainStart (c : Bool) (k : BitVec 2) (s : State) : (symbolPulse c k s).rbTrainStart = s.rbTrainStart := by simp [symbolPulse]
@[simp] theorem symbolPulse_trainLen (c : Bool) (k : BitVec 2) (s : State) : (symbolPulse c k s).trainLen = s.trainLen := by simp [symbolPulse]
@[simp] theorem symbolPulse_ldShift (c : Bool) (k : BitVec 2) (s : State) : (symbolPulse c k s).ldShift = s.ldShift := by simp [symbolPulse]
@[simp] theorem symbolPulse_tsIdx (c : Bool) (k : BitVec 2) (s : State) : (symbolPulse c k s).tsIdx = s.tsIdx := by simp [symbolPulse]
@[simp] theorem symbolPulse_ctlState (c : Bool) (k : BitVec 2) (s : State) : (symbolPulse c k s).ctlState = s.ctlState := by simp [symbolPulse]
@[simp] theorem symbolPulse_ctlActive (c : Bool) (k : BitVec 2) (s : State) : (symbolPulse c k s).ctlActive = s.ctlActive := by simp [symbolPulse]
@[simp] theorem symbolPulse_ctlCount (c : Bool) (k : BitVec 2) (s : State) : (symbolPulse c k s).ctlCount = s.ctlCount := by simp [symbolPulse]
@[simp] theorem symbolPulse_ctlValue (c : Bool) (k : BitVec 2) (s : State) : (symbolPulse c k s).ctlValue = s.ctlValue := by simp [symbolPulse]
@[simp] theorem symbolPulse_ctlPressTick (c : Bool) (k : BitVec 2) (s : State) : (symbolPulse c k s).ctlPressTick = s.ctlPressTick := by simp [symbolPulse]
@[simp] theorem symbolPulse_ctlReleaseTick (c : Bool) (k : BitVec 2) (s : State) : (symbolPulse c k s).ctlReleaseTick = s.ctlReleaseTick := by simp [symbolPulse]
@[simp] theorem symbolPulse_nv (c : Bool) (k : BitVec 2) (s : State) : (symbolPulse c k s).nv = s.nv := by simp [symbolPulse]
@[simp] theorem symbolPulse_log (c : Bool) (k : BitVec 2) (s : State) : (symbolPulse c k s).log = s.log := by simp [symbolPulse]
@[simp] theorem symbolPulse_faultWdt (c : Bool) (k : BitVec 2) (s : State) : (symbolPulse c k s).faultWdt = s.faultWdt := by simp [symbolPulse]
@[simp] theorem symbolPulse_refused (c : Bool) (k : BitVec 2) (s : State) : (symbolPulse c k s).refused = s.refused := by simp [symbolPulse]
@[simp] theorem symbolPulse_trace (c : Bool) (k : BitVec 2) (s : State) : (symbolPulse c k s).trace = s.trace := by simp [symbolPulse]
@[simp] theorem symbolPulse_envIndex (c : Bool) (k : BitVec 2) (s : State) : (symbolPulse c k s).envIndex = s.envIndex := by simp [symbolPulse]

/-! ## framePulse: the next pulse of the frame -/

@[simp] theorem framePulse_par (s : State) : (framePulse s).par = s.par := by simp only [framePulse]; split <;> simp
@[simp] theorem framePulse_rxLevel (s : State) : (framePulse s).rxLevel = s.rxLevel := by simp only [framePulse]; split <;> simp
@[simp] theorem framePulse_ctlLevel (s : State) : (framePulse s).ctlLevel = s.ctlLevel := by simp only [framePulse]; split <;> simp
@[simp] theorem framePulse_cfgFilter (s : State) : (framePulse s).cfgFilter = s.cfgFilter := by simp only [framePulse]; split <;> simp
@[simp] theorem framePulse_cfgLowpass (s : State) : (framePulse s).cfgLowpass = s.cfgLowpass := by simp only [framePulse]; split <;> simp
@[simp] theorem framePulse_cfgNvsum (s : State) : (framePulse s).cfgNvsum = s.cfgNvsum := by simp only [framePulse]; split <;> simp
@[simp] theorem framePulse_sigVersion (s : State) : (framePulse s).sigVersion = s.sigVersion := by simp only [framePulse]; split <;> simp
@[simp] theorem framePulse_sigChecksum (s : State) : (framePulse s).sigChecksum = s.sigChecksum := by simp only [framePulse]; split <;> simp
@[simp] theorem framePulse_edgeIrqEn (s : State) : (framePulse s).edgeIrqEn = s.edgeIrqEn := by simp only [framePulse]; split <;> simp
@[simp] theorem framePulse_tickCount (s : State) : (framePulse s).tickCount = s.tickCount := by simp only [framePulse]; split <;> simp
@[simp] theorem framePulse_sigCountdown (s : State) : (framePulse s).sigCountdown = s.sigCountdown := by simp only [framePulse]; split <;> simp
@[simp] theorem framePulse_recvingSince (s : State) : (framePulse s).recvingSince = s.recvingSince := by simp only [framePulse]; split <;> simp
@[simp] theorem framePulse_wdtMissed (s : State) : (framePulse s).wdtMissed = s.wdtMissed := by simp only [framePulse]; split <;> simp
@[simp] theorem framePulse_pinSnapshotRx (s : State) : (framePulse s).pinSnapshotRx = s.pinSnapshotRx := by simp only [framePulse]; split <;> simp
@[simp] theorem framePulse_pinSnapshotCtl (s : State) : (framePulse s).pinSnapshotCtl = s.pinSnapshotCtl := by simp only [framePulse]; split <;> simp
@[simp] theorem framePulse_pcPending (s : State) : (framePulse s).pcPending = s.pcPending := by simp only [framePulse]; split <;> simp
@[simp] theorem framePulse_lpPending (s : State) : (framePulse s).lpPending = s.lpPending := by simp only [framePulse]; split <;> simp
@[simp] theorem framePulse_lpCount (s : State) : (framePulse s).lpCount = s.lpCount := by simp only [framePulse]; split <;> simp
@[simp] theorem framePulse_sigActive (s : State) : (framePulse s).sigActive = s.sigActive := by simp only [framePulse]; split <;> simp
@[simp] theorem framePulse_rb (s : State) : (framePulse s).rb = s.rb := by simp only [framePulse]; split <;> simp
@[simp] theorem framePulse_rbWrite (s : State) : (framePulse s).rbWrite = s.rbWrite := by simp only [framePulse]; split <;> simp
@[simp] theorem framePulse_rbRead (s : State) : (framePulse s).rbRead = s.rbRead := by simp only [framePulse]; split <;> simp
@[simp] theorem framePulse_rbTrainStart (s : State) : (framePulse s).rbTrainStart = s.rbTrainStart := by simp only [framePulse]; split <;> simp
@[simp] theorem framePulse_trainLen (s : State) : (framePulse s).trainLen = s.trainLen := by simp only [framePulse]; split <;> simp
@[simp] theorem framePulse_ldShift (s : State) : (framePulse s).ldShift = s.ldShift := by simp only [framePulse]; split <;> simp
@[simp] theorem framePulse_tsIdx (s : State) : (framePulse s).tsIdx = s.tsIdx := by simp only [framePulse]; split <;> simp
@[simp] theorem framePulse_ctlState (s : State) : (framePulse s).ctlState = s.ctlState := by simp only [framePulse]; split <;> simp
@[simp] theorem framePulse_ctlActive (s : State) : (framePulse s).ctlActive = s.ctlActive := by simp only [framePulse]; split <;> simp
@[simp] theorem framePulse_ctlCount (s : State) : (framePulse s).ctlCount = s.ctlCount := by simp only [framePulse]; split <;> simp
@[simp] theorem framePulse_ctlValue (s : State) : (framePulse s).ctlValue = s.ctlValue := by simp only [framePulse]; split <;> simp
@[simp] theorem framePulse_ctlPressTick (s : State) : (framePulse s).ctlPressTick = s.ctlPressTick := by simp only [framePulse]; split <;> simp
@[simp] theorem framePulse_ctlReleaseTick (s : State) : (framePulse s).ctlReleaseTick = s.ctlReleaseTick := by simp only [framePulse]; split <;> simp
@[simp] theorem framePulse_nv (s : State) : (framePulse s).nv = s.nv := by simp only [framePulse]; split <;> simp
@[simp] theorem framePulse_log (s : State) : (framePulse s).log = s.log := by simp only [framePulse]; split <;> simp
@[simp] theorem framePulse_faultWdt (s : State) : (framePulse s).faultWdt = s.faultWdt := by simp only [framePulse]; split <;> simp
@[simp] theorem framePulse_refused (s : State) : (framePulse s).refused = s.refused := by simp only [framePulse]; split <;> simp
@[simp] theorem framePulse_trace (s : State) : (framePulse s).trace = s.trace := by simp only [framePulse]; split <;> simp
@[simp] theorem framePulse_envIndex (s : State) : (framePulse s).envIndex = s.envIndex := by simp only [framePulse]; split <;> simp

/-! ## signatureStep: one step of the encoder -/

@[simp] theorem signatureStep_par (s : State) : (signatureStep s).par = s.par := by simp only [signatureStep]; split <;> simp
@[simp] theorem signatureStep_rxLevel (s : State) : (signatureStep s).rxLevel = s.rxLevel := by simp only [signatureStep]; split <;> simp
@[simp] theorem signatureStep_ctlLevel (s : State) : (signatureStep s).ctlLevel = s.ctlLevel := by simp only [signatureStep]; split <;> simp
@[simp] theorem signatureStep_cfgFilter (s : State) : (signatureStep s).cfgFilter = s.cfgFilter := by simp only [signatureStep]; split <;> simp
@[simp] theorem signatureStep_cfgLowpass (s : State) : (signatureStep s).cfgLowpass = s.cfgLowpass := by simp only [signatureStep]; split <;> simp
@[simp] theorem signatureStep_cfgNvsum (s : State) : (signatureStep s).cfgNvsum = s.cfgNvsum := by simp only [signatureStep]; split <;> simp
@[simp] theorem signatureStep_sigVersion (s : State) : (signatureStep s).sigVersion = s.sigVersion := by simp only [signatureStep]; split <;> simp
@[simp] theorem signatureStep_sigChecksum (s : State) : (signatureStep s).sigChecksum = s.sigChecksum := by simp only [signatureStep]; split <;> simp
@[simp] theorem signatureStep_tickCount (s : State) : (signatureStep s).tickCount = s.tickCount := by simp only [signatureStep]; split <;> simp
@[simp] theorem signatureStep_recvingSince (s : State) : (signatureStep s).recvingSince = s.recvingSince := by simp only [signatureStep]; split <;> simp
@[simp] theorem signatureStep_wdtMissed (s : State) : (signatureStep s).wdtMissed = s.wdtMissed := by simp only [signatureStep]; split <;> simp
@[simp] theorem signatureStep_pinSnapshotRx (s : State) : (signatureStep s).pinSnapshotRx = s.pinSnapshotRx := by simp only [signatureStep]; split <;> simp
@[simp] theorem signatureStep_pinSnapshotCtl (s : State) : (signatureStep s).pinSnapshotCtl = s.pinSnapshotCtl := by simp only [signatureStep]; split <;> simp
@[simp] theorem signatureStep_pcPending (s : State) : (signatureStep s).pcPending = s.pcPending := by simp only [signatureStep]; split <;> simp
@[simp] theorem signatureStep_lpPending (s : State) : (signatureStep s).lpPending = s.lpPending := by simp only [signatureStep]; split <;> simp
@[simp] theorem signatureStep_lpCount (s : State) : (signatureStep s).lpCount = s.lpCount := by simp only [signatureStep]; split <;> simp
@[simp] theorem signatureStep_rb (s : State) : (signatureStep s).rb = s.rb := by simp only [signatureStep]; split <;> simp
@[simp] theorem signatureStep_rbWrite (s : State) : (signatureStep s).rbWrite = s.rbWrite := by simp only [signatureStep]; split <;> simp
@[simp] theorem signatureStep_rbRead (s : State) : (signatureStep s).rbRead = s.rbRead := by simp only [signatureStep]; split <;> simp
@[simp] theorem signatureStep_rbTrainStart (s : State) : (signatureStep s).rbTrainStart = s.rbTrainStart := by simp only [signatureStep]; split <;> simp
@[simp] theorem signatureStep_trainLen (s : State) : (signatureStep s).trainLen = s.trainLen := by simp only [signatureStep]; split <;> simp
@[simp] theorem signatureStep_ldShift (s : State) : (signatureStep s).ldShift = s.ldShift := by simp only [signatureStep]; split <;> simp
@[simp] theorem signatureStep_tsIdx (s : State) : (signatureStep s).tsIdx = s.tsIdx := by simp only [signatureStep]; split <;> simp
@[simp] theorem signatureStep_ctlState (s : State) : (signatureStep s).ctlState = s.ctlState := by simp only [signatureStep]; split <;> simp
@[simp] theorem signatureStep_ctlActive (s : State) : (signatureStep s).ctlActive = s.ctlActive := by simp only [signatureStep]; split <;> simp
@[simp] theorem signatureStep_ctlCount (s : State) : (signatureStep s).ctlCount = s.ctlCount := by simp only [signatureStep]; split <;> simp
@[simp] theorem signatureStep_ctlValue (s : State) : (signatureStep s).ctlValue = s.ctlValue := by simp only [signatureStep]; split <;> simp
@[simp] theorem signatureStep_ctlPressTick (s : State) : (signatureStep s).ctlPressTick = s.ctlPressTick := by simp only [signatureStep]; split <;> simp
@[simp] theorem signatureStep_ctlReleaseTick (s : State) : (signatureStep s).ctlReleaseTick = s.ctlReleaseTick := by simp only [signatureStep]; split <;> simp
@[simp] theorem signatureStep_nv (s : State) : (signatureStep s).nv = s.nv := by simp only [signatureStep]; split <;> simp
@[simp] theorem signatureStep_log (s : State) : (signatureStep s).log = s.log := by simp only [signatureStep]; split <;> simp
@[simp] theorem signatureStep_faultWdt (s : State) : (signatureStep s).faultWdt = s.faultWdt := by simp only [signatureStep]; split <;> simp
@[simp] theorem signatureStep_refused (s : State) : (signatureStep s).refused = s.refused := by simp only [signatureStep]; split <;> simp
@[simp] theorem signatureStep_trace (s : State) : (signatureStep s).trace = s.trace := by simp only [signatureStep]; split <;> simp
@[simp] theorem signatureStep_envIndex (s : State) : (signatureStep s).envIndex = s.envIndex := by simp only [signatureStep]; split <;> simp

/-! ## tickBody: steps 3 to 6 of a tick -/

@[simp] theorem tickBody_par (s : State) : (tickBody s).par = s.par := by simp only [tickBody]; repeat (first | split | simp)
@[simp] theorem tickBody_rxLevel (s : State) : (tickBody s).rxLevel = s.rxLevel := by simp only [tickBody]; repeat (first | split | simp)
@[simp] theorem tickBody_ctlLevel (s : State) : (tickBody s).ctlLevel = s.ctlLevel := by simp only [tickBody]; repeat (first | split | simp)
@[simp] theorem tickBody_cfgFilter (s : State) : (tickBody s).cfgFilter = s.cfgFilter := by simp only [tickBody]; repeat (first | split | simp)
@[simp] theorem tickBody_cfgLowpass (s : State) : (tickBody s).cfgLowpass = s.cfgLowpass := by simp only [tickBody]; repeat (first | split | simp)
@[simp] theorem tickBody_cfgNvsum (s : State) : (tickBody s).cfgNvsum = s.cfgNvsum := by simp only [tickBody]; repeat (first | split | simp)
@[simp] theorem tickBody_sigVersion (s : State) : (tickBody s).sigVersion = s.sigVersion := by simp only [tickBody]; repeat (first | split | simp)
@[simp] theorem tickBody_sigChecksum (s : State) : (tickBody s).sigChecksum = s.sigChecksum := by simp only [tickBody]; repeat (first | split | simp)
@[simp] theorem tickBody_tickCount (s : State) : (tickBody s).tickCount = s.tickCount := by simp only [tickBody]; repeat (first | split | simp)
@[simp] theorem tickBody_wdtMissed (s : State) : (tickBody s).wdtMissed = s.wdtMissed := by simp only [tickBody]; repeat (first | split | simp)
@[simp] theorem tickBody_pinSnapshotRx (s : State) : (tickBody s).pinSnapshotRx = s.pinSnapshotRx := by simp only [tickBody]; repeat (first | split | simp)
@[simp] theorem tickBody_pinSnapshotCtl (s : State) : (tickBody s).pinSnapshotCtl = s.pinSnapshotCtl := by simp only [tickBody]; repeat (first | split | simp)
@[simp] theorem tickBody_pcPending (s : State) : (tickBody s).pcPending = s.pcPending := by simp only [tickBody]; repeat (first | split | simp)
@[simp] theorem tickBody_ctlState (s : State) : (tickBody s).ctlState = s.ctlState := by simp only [tickBody]; repeat (first | split | simp)
@[simp] theorem tickBody_ctlActive (s : State) : (tickBody s).ctlActive = s.ctlActive := by simp only [tickBody]; repeat (first | split | simp)
@[simp] theorem tickBody_ctlCount (s : State) : (tickBody s).ctlCount = s.ctlCount := by simp only [tickBody]; repeat (first | split | simp)
@[simp] theorem tickBody_ctlValue (s : State) : (tickBody s).ctlValue = s.ctlValue := by simp only [tickBody]; repeat (first | split | simp)
@[simp] theorem tickBody_ctlPressTick (s : State) : (tickBody s).ctlPressTick = s.ctlPressTick := by simp only [tickBody]; repeat (first | split | simp)
@[simp] theorem tickBody_ctlReleaseTick (s : State) : (tickBody s).ctlReleaseTick = s.ctlReleaseTick := by simp only [tickBody]; repeat (first | split | simp)
@[simp] theorem tickBody_nv (s : State) : (tickBody s).nv = s.nv := by simp only [tickBody]; repeat (first | split | simp)
@[simp] theorem tickBody_faultWdt (s : State) : (tickBody s).faultWdt = s.faultWdt := by simp only [tickBody]; repeat (first | split | simp)
@[simp] theorem tickBody_refused (s : State) : (tickBody s).refused = s.refused := by simp only [tickBody]; repeat (first | split | simp)
@[simp] theorem tickBody_trace (s : State) : (tickBody s).trace = s.trace := by simp only [tickBody]; repeat (first | split | simp)
@[simp] theorem tickBody_envIndex (s : State) : (tickBody s).envIndex = s.envIndex := by simp only [tickBody]; repeat (first | split | simp)

/-! ## ctlPress: a control press -/

@[simp] theorem ctlPress_par (s : State) : (ctlPress s).par = s.par := by simp only [ctlPress]; split <;> rfl
@[simp] theorem ctlPress_rxLevel (s : State) : (ctlPress s).rxLevel = s.rxLevel := by simp only [ctlPress]; split <;> rfl
@[simp] theorem ctlPress_ctlLevel (s : State) : (ctlPress s).ctlLevel = s.ctlLevel := by simp only [ctlPress]; split <;> rfl
@[simp] theorem ctlPress_outLevel (s : State) : (ctlPress s).outLevel = s.outLevel := by simp only [ctlPress]; split <;> rfl
@[simp] theorem ctlPress_cfgFilter (s : State) : (ctlPress s).cfgFilter = s.cfgFilter := by simp only [ctlPress]; split <;> rfl
@[simp] theorem ctlPress_cfgLowpass (s : State) : (ctlPress s).cfgLowpass = s.cfgLowpass := by simp only [ctlPress]; split <;> rfl
@[simp] theorem ctlPress_cfgNvsum (s : State) : (ctlPress s).cfgNvsum = s.cfgNvsum := by simp only [ctlPress]; split <;> rfl
@[simp] theorem ctlPress_sigVersion (s : State) : (ctlPress s).sigVersion = s.sigVersion := by simp only [ctlPress]; split <;> rfl
@[simp] theorem ctlPress_sigChecksum (s : State) : (ctlPress s).sigChecksum = s.sigChecksum := by simp only [ctlPress]; split <;> rfl
@[simp] theorem ctlPress_edgeIrqEn (s : State) : (ctlPress s).edgeIrqEn = s.edgeIrqEn := by simp only [ctlPress]; split <;> rfl
@[simp] theorem ctlPress_tickCount (s : State) : (ctlPress s).tickCount = s.tickCount := by simp only [ctlPress]; split <;> rfl
@[simp] theorem ctlPress_sigCountdown (s : State) : (ctlPress s).sigCountdown = s.sigCountdown := by simp only [ctlPress]; split <;> rfl
@[simp] theorem ctlPress_outRemaining (s : State) : (ctlPress s).outRemaining = s.outRemaining := by simp only [ctlPress]; split <;> rfl
@[simp] theorem ctlPress_recvingSince (s : State) : (ctlPress s).recvingSince = s.recvingSince := by simp only [ctlPress]; split <;> rfl
@[simp] theorem ctlPress_wdtMissed (s : State) : (ctlPress s).wdtMissed = s.wdtMissed := by simp only [ctlPress]; split <;> rfl
@[simp] theorem ctlPress_pinSnapshotRx (s : State) : (ctlPress s).pinSnapshotRx = s.pinSnapshotRx := by simp only [ctlPress]; split <;> rfl
@[simp] theorem ctlPress_pinSnapshotCtl (s : State) : (ctlPress s).pinSnapshotCtl = s.pinSnapshotCtl := by simp only [ctlPress]; split <;> rfl
@[simp] theorem ctlPress_pcPending (s : State) : (ctlPress s).pcPending = s.pcPending := by simp only [ctlPress]; split <;> rfl
@[simp] theorem ctlPress_lpPending (s : State) : (ctlPress s).lpPending = s.lpPending := by simp only [ctlPress]; split <;> rfl
@[simp] theorem ctlPress_lpCount (s : State) : (ctlPress s).lpCount = s.lpCount := by simp only [ctlPress]; split <;> rfl
@[simp] theorem ctlPress_sigActive (s : State) : (ctlPress s).sigActive = s.sigActive := by simp only [ctlPress]; split <;> rfl
@[simp] theorem ctlPress_sigRep (s : State) : (ctlPress s).sigRep = s.sigRep := by simp only [ctlPress]; split <;> rfl
@[simp] theorem ctlPress_sigPos (s : State) : (ctlPress s).sigPos = s.sigPos := by simp only [ctlPress]; split <;> rfl
@[simp] theorem ctlPress_rb (s : State) : (ctlPress s).rb = s.rb := by simp only [ctlPress]; split <;> rfl
@[simp] theorem ctlPress_rbWrite (s : State) : (ctlPress s).rbWrite = s.rbWrite := by simp only [ctlPress]; split <;> rfl
@[simp] theorem ctlPress_rbRead (s : State) : (ctlPress s).rbRead = s.rbRead := by simp only [ctlPress]; split <;> rfl
@[simp] theorem ctlPress_rbTrainStart (s : State) : (ctlPress s).rbTrainStart = s.rbTrainStart := by simp only [ctlPress]; split <;> rfl
@[simp] theorem ctlPress_trainLen (s : State) : (ctlPress s).trainLen = s.trainLen := by simp only [ctlPress]; split <;> rfl
@[simp] theorem ctlPress_ldShift (s : State) : (ctlPress s).ldShift = s.ldShift := by simp only [ctlPress]; split <;> rfl
@[simp] theorem ctlPress_tsIdx (s : State) : (ctlPress s).tsIdx = s.tsIdx := by simp only [ctlPress]; split <;> rfl
@[simp] theorem ctlPress_ctlReleaseTick (s : State) : (ctlPress s).ctlReleaseTick = s.ctlReleaseTick := by simp only [ctlPress]; split <;> rfl
@[simp] theorem ctlPress_nv (s : State) : (ctlPress s).nv = s.nv := by simp only [ctlPress]; split <;> rfl
@[simp] theorem ctlPress_faultWdt (s : State) : (ctlPress s).faultWdt = s.faultWdt := by simp only [ctlPress]; split <;> rfl
@[simp] theorem ctlPress_refused (s : State) : (ctlPress s).refused = s.refused := by simp only [ctlPress]; split <;> rfl
@[simp] theorem ctlPress_outTrace (s : State) : (ctlPress s).outTrace = s.outTrace := by simp only [ctlPress]; split <;> rfl
@[simp] theorem ctlPress_trace (s : State) : (ctlPress s).trace = s.trace := by simp only [ctlPress]; split <;> rfl
@[simp] theorem ctlPress_envIndex (s : State) : (ctlPress s).envIndex = s.envIndex := by simp only [ctlPress]; split <;> rfl

/-! ## bitPulse: a bit pulse -/

@[simp] theorem bitPulse_par (d : Word32) (s : State) : (bitPulse d s).par = s.par := by simp only [bitPulse]; split <;> rfl
@[simp] theorem bitPulse_rxLevel (d : Word32) (s : State) : (bitPulse d s).rxLevel = s.rxLevel := by simp only [bitPulse]; split <;> rfl
@[simp] theorem bitPulse_ctlLevel (d : Word32) (s : State) : (bitPulse d s).ctlLevel = s.ctlLevel := by simp only [bitPulse]; split <;> rfl
@[simp] theorem bitPulse_outLevel (d : Word32) (s : State) : (bitPulse d s).outLevel = s.outLevel := by simp only [bitPulse]; split <;> rfl
@[simp] theorem bitPulse_cfgFilter (d : Word32) (s : State) : (bitPulse d s).cfgFilter = s.cfgFilter := by simp only [bitPulse]; split <;> rfl
@[simp] theorem bitPulse_cfgLowpass (d : Word32) (s : State) : (bitPulse d s).cfgLowpass = s.cfgLowpass := by simp only [bitPulse]; split <;> rfl
@[simp] theorem bitPulse_cfgNvsum (d : Word32) (s : State) : (bitPulse d s).cfgNvsum = s.cfgNvsum := by simp only [bitPulse]; split <;> rfl
@[simp] theorem bitPulse_sigVersion (d : Word32) (s : State) : (bitPulse d s).sigVersion = s.sigVersion := by simp only [bitPulse]; split <;> rfl
@[simp] theorem bitPulse_sigChecksum (d : Word32) (s : State) : (bitPulse d s).sigChecksum = s.sigChecksum := by simp only [bitPulse]; split <;> rfl
@[simp] theorem bitPulse_edgeIrqEn (d : Word32) (s : State) : (bitPulse d s).edgeIrqEn = s.edgeIrqEn := by simp only [bitPulse]; split <;> rfl
@[simp] theorem bitPulse_tickCount (d : Word32) (s : State) : (bitPulse d s).tickCount = s.tickCount := by simp only [bitPulse]; split <;> rfl
@[simp] theorem bitPulse_sigCountdown (d : Word32) (s : State) : (bitPulse d s).sigCountdown = s.sigCountdown := by simp only [bitPulse]; split <;> rfl
@[simp] theorem bitPulse_outRemaining (d : Word32) (s : State) : (bitPulse d s).outRemaining = s.outRemaining := by simp only [bitPulse]; split <;> rfl
@[simp] theorem bitPulse_recvingSince (d : Word32) (s : State) : (bitPulse d s).recvingSince = s.recvingSince := by simp only [bitPulse]; split <;> rfl
@[simp] theorem bitPulse_wdtMissed (d : Word32) (s : State) : (bitPulse d s).wdtMissed = s.wdtMissed := by simp only [bitPulse]; split <;> rfl
@[simp] theorem bitPulse_pinSnapshotRx (d : Word32) (s : State) : (bitPulse d s).pinSnapshotRx = s.pinSnapshotRx := by simp only [bitPulse]; split <;> rfl
@[simp] theorem bitPulse_pinSnapshotCtl (d : Word32) (s : State) : (bitPulse d s).pinSnapshotCtl = s.pinSnapshotCtl := by simp only [bitPulse]; split <;> rfl
@[simp] theorem bitPulse_pcPending (d : Word32) (s : State) : (bitPulse d s).pcPending = s.pcPending := by simp only [bitPulse]; split <;> rfl
@[simp] theorem bitPulse_lpPending (d : Word32) (s : State) : (bitPulse d s).lpPending = s.lpPending := by simp only [bitPulse]; split <;> rfl
@[simp] theorem bitPulse_lpCount (d : Word32) (s : State) : (bitPulse d s).lpCount = s.lpCount := by simp only [bitPulse]; split <;> rfl
@[simp] theorem bitPulse_sigActive (d : Word32) (s : State) : (bitPulse d s).sigActive = s.sigActive := by simp only [bitPulse]; split <;> rfl
@[simp] theorem bitPulse_sigRep (d : Word32) (s : State) : (bitPulse d s).sigRep = s.sigRep := by simp only [bitPulse]; split <;> rfl
@[simp] theorem bitPulse_sigPos (d : Word32) (s : State) : (bitPulse d s).sigPos = s.sigPos := by simp only [bitPulse]; split <;> rfl
@[simp] theorem bitPulse_rb (d : Word32) (s : State) : (bitPulse d s).rb = s.rb := by simp only [bitPulse]; split <;> rfl
@[simp] theorem bitPulse_rbWrite (d : Word32) (s : State) : (bitPulse d s).rbWrite = s.rbWrite := by simp only [bitPulse]; split <;> rfl
@[simp] theorem bitPulse_rbRead (d : Word32) (s : State) : (bitPulse d s).rbRead = s.rbRead := by simp only [bitPulse]; split <;> rfl
@[simp] theorem bitPulse_rbTrainStart (d : Word32) (s : State) : (bitPulse d s).rbTrainStart = s.rbTrainStart := by simp only [bitPulse]; split <;> rfl
@[simp] theorem bitPulse_trainLen (d : Word32) (s : State) : (bitPulse d s).trainLen = s.trainLen := by simp only [bitPulse]; split <;> rfl
@[simp] theorem bitPulse_ldShift (d : Word32) (s : State) : (bitPulse d s).ldShift = s.ldShift := by simp only [bitPulse]; split <;> rfl
@[simp] theorem bitPulse_tsIdx (d : Word32) (s : State) : (bitPulse d s).tsIdx = s.tsIdx := by simp only [bitPulse]; split <;> rfl
@[simp] theorem bitPulse_ctlPressTick (d : Word32) (s : State) : (bitPulse d s).ctlPressTick = s.ctlPressTick := by simp only [bitPulse]; split <;> rfl
@[simp] theorem bitPulse_nv (d : Word32) (s : State) : (bitPulse d s).nv = s.nv := by simp only [bitPulse]; split <;> rfl
@[simp] theorem bitPulse_faultWdt (d : Word32) (s : State) : (bitPulse d s).faultWdt = s.faultWdt := by simp only [bitPulse]; split <;> rfl
@[simp] theorem bitPulse_refused (d : Word32) (s : State) : (bitPulse d s).refused = s.refused := by simp only [bitPulse]; split <;> rfl
@[simp] theorem bitPulse_outTrace (d : Word32) (s : State) : (bitPulse d s).outTrace = s.outTrace := by simp only [bitPulse]; split <;> rfl
@[simp] theorem bitPulse_trace (d : Word32) (s : State) : (bitPulse d s).trace = s.trace := by simp only [bitPulse]; split <;> rfl
@[simp] theorem bitPulse_envIndex (d : Word32) (s : State) : (bitPulse d s).envIndex = s.envIndex := by simp only [bitPulse]; split <;> rfl

/-! ## switchFilter: the filter state a configuration write starts from -/

@[simp] theorem switchFilter_par (nf : FilterMode) (s : State) : (switchFilter nf s).par = s.par := by simp only [switchFilter]; split <;> rfl
@[simp] theorem switchFilter_rxLevel (nf : FilterMode) (s : State) : (switchFilter nf s).rxLevel = s.rxLevel := by simp only [switchFilter]; split <;> rfl
@[simp] theorem switchFilter_ctlLevel (nf : FilterMode) (s : State) : (switchFilter nf s).ctlLevel = s.ctlLevel := by simp only [switchFilter]; split <;> rfl
@[simp] theorem switchFilter_outLevel (nf : FilterMode) (s : State) : (switchFilter nf s).outLevel = s.outLevel := by simp only [switchFilter]; split <;> rfl
@[simp] theorem switchFilter_cfgFilter (nf : FilterMode) (s : State) : (switchFilter nf s).cfgFilter = s.cfgFilter := by simp only [switchFilter]; split <;> rfl
@[simp] theorem switchFilter_cfgLowpass (nf : FilterMode) (s : State) : (switchFilter nf s).cfgLowpass = s.cfgLowpass := by simp only [switchFilter]; split <;> rfl
@[simp] theorem switchFilter_cfgNvsum (nf : FilterMode) (s : State) : (switchFilter nf s).cfgNvsum = s.cfgNvsum := by simp only [switchFilter]; split <;> rfl
@[simp] theorem switchFilter_sigVersion (nf : FilterMode) (s : State) : (switchFilter nf s).sigVersion = s.sigVersion := by simp only [switchFilter]; split <;> rfl
@[simp] theorem switchFilter_sigChecksum (nf : FilterMode) (s : State) : (switchFilter nf s).sigChecksum = s.sigChecksum := by simp only [switchFilter]; split <;> rfl
@[simp] theorem switchFilter_edgeIrqEn (nf : FilterMode) (s : State) : (switchFilter nf s).edgeIrqEn = s.edgeIrqEn := by simp only [switchFilter]; split <;> rfl
@[simp] theorem switchFilter_tickCount (nf : FilterMode) (s : State) : (switchFilter nf s).tickCount = s.tickCount := by simp only [switchFilter]; split <;> rfl
@[simp] theorem switchFilter_sigCountdown (nf : FilterMode) (s : State) : (switchFilter nf s).sigCountdown = s.sigCountdown := by simp only [switchFilter]; split <;> rfl
@[simp] theorem switchFilter_outRemaining (nf : FilterMode) (s : State) : (switchFilter nf s).outRemaining = s.outRemaining := by simp only [switchFilter]; split <;> rfl
@[simp] theorem switchFilter_recvingSince (nf : FilterMode) (s : State) : (switchFilter nf s).recvingSince = s.recvingSince := by simp only [switchFilter]; split <;> rfl
@[simp] theorem switchFilter_wdtMissed (nf : FilterMode) (s : State) : (switchFilter nf s).wdtMissed = s.wdtMissed := by simp only [switchFilter]; split <;> rfl
@[simp] theorem switchFilter_pinSnapshotRx (nf : FilterMode) (s : State) : (switchFilter nf s).pinSnapshotRx = s.pinSnapshotRx := by simp only [switchFilter]; split <;> rfl
@[simp] theorem switchFilter_pinSnapshotCtl (nf : FilterMode) (s : State) : (switchFilter nf s).pinSnapshotCtl = s.pinSnapshotCtl := by simp only [switchFilter]; split <;> rfl
@[simp] theorem switchFilter_pcPending (nf : FilterMode) (s : State) : (switchFilter nf s).pcPending = s.pcPending := by simp only [switchFilter]; split <;> rfl
@[simp] theorem switchFilter_lpPending (nf : FilterMode) (s : State) : (switchFilter nf s).lpPending = s.lpPending := by simp only [switchFilter]; split <;> rfl
@[simp] theorem switchFilter_lpCount (nf : FilterMode) (s : State) : (switchFilter nf s).lpCount = s.lpCount := by simp only [switchFilter]; split <;> rfl
@[simp] theorem switchFilter_sigActive (nf : FilterMode) (s : State) : (switchFilter nf s).sigActive = s.sigActive := by simp only [switchFilter]; split <;> rfl
@[simp] theorem switchFilter_sigRep (nf : FilterMode) (s : State) : (switchFilter nf s).sigRep = s.sigRep := by simp only [switchFilter]; split <;> rfl
@[simp] theorem switchFilter_sigPos (nf : FilterMode) (s : State) : (switchFilter nf s).sigPos = s.sigPos := by simp only [switchFilter]; split <;> rfl
@[simp] theorem switchFilter_rb (nf : FilterMode) (s : State) : (switchFilter nf s).rb = s.rb := by simp only [switchFilter]; split <;> rfl
@[simp] theorem switchFilter_ctlState (nf : FilterMode) (s : State) : (switchFilter nf s).ctlState = s.ctlState := by simp only [switchFilter]; split <;> rfl
@[simp] theorem switchFilter_ctlActive (nf : FilterMode) (s : State) : (switchFilter nf s).ctlActive = s.ctlActive := by simp only [switchFilter]; split <;> rfl
@[simp] theorem switchFilter_ctlCount (nf : FilterMode) (s : State) : (switchFilter nf s).ctlCount = s.ctlCount := by simp only [switchFilter]; split <;> rfl
@[simp] theorem switchFilter_ctlValue (nf : FilterMode) (s : State) : (switchFilter nf s).ctlValue = s.ctlValue := by simp only [switchFilter]; split <;> rfl
@[simp] theorem switchFilter_ctlPressTick (nf : FilterMode) (s : State) : (switchFilter nf s).ctlPressTick = s.ctlPressTick := by simp only [switchFilter]; split <;> rfl
@[simp] theorem switchFilter_ctlReleaseTick (nf : FilterMode) (s : State) : (switchFilter nf s).ctlReleaseTick = s.ctlReleaseTick := by simp only [switchFilter]; split <;> rfl
@[simp] theorem switchFilter_nv (nf : FilterMode) (s : State) : (switchFilter nf s).nv = s.nv := by simp only [switchFilter]; split <;> rfl
@[simp] theorem switchFilter_log (nf : FilterMode) (s : State) : (switchFilter nf s).log = s.log := by simp only [switchFilter]; split <;> rfl
@[simp] theorem switchFilter_faultWdt (nf : FilterMode) (s : State) : (switchFilter nf s).faultWdt = s.faultWdt := by simp only [switchFilter]; split <;> rfl
@[simp] theorem switchFilter_refused (nf : FilterMode) (s : State) : (switchFilter nf s).refused = s.refused := by simp only [switchFilter]; split <;> rfl
@[simp] theorem switchFilter_outTrace (nf : FilterMode) (s : State) : (switchFilter nf s).outTrace = s.outTrace := by simp only [switchFilter]; split <;> rfl
@[simp] theorem switchFilter_trace (nf : FilterMode) (s : State) : (switchFilter nf s).trace = s.trace := by simp only [switchFilter]; split <;> rfl
@[simp] theorem switchFilter_envIndex (nf : FilterMode) (s : State) : (switchFilter nf s).envIndex = s.envIndex := by simp only [switchFilter]; split <;> rfl

/-! ## loadConfig: a boot load -/

@[simp] theorem loadConfig_par (c f l : Byte) (s : State) : (loadConfig c f l s).par = s.par := by simp only [loadConfig]; repeat (first | rfl | split)
@[simp] theorem loadConfig_rxLevel (c f l : Byte) (s : State) : (loadConfig c f l s).rxLevel = s.rxLevel := by simp only [loadConfig]; repeat (first | rfl | split)
@[simp] theorem loadConfig_ctlLevel (c f l : Byte) (s : State) : (loadConfig c f l s).ctlLevel = s.ctlLevel := by simp only [loadConfig]; repeat (first | rfl | split)
@[simp] theorem loadConfig_outLevel (c f l : Byte) (s : State) : (loadConfig c f l s).outLevel = s.outLevel := by simp only [loadConfig]; repeat (first | rfl | split)
@[simp] theorem loadConfig_edgeIrqEn (c f l : Byte) (s : State) : (loadConfig c f l s).edgeIrqEn = s.edgeIrqEn := by simp only [loadConfig]; repeat (first | rfl | split)
@[simp] theorem loadConfig_tickCount (c f l : Byte) (s : State) : (loadConfig c f l s).tickCount = s.tickCount := by simp only [loadConfig]; repeat (first | rfl | split)
@[simp] theorem loadConfig_sigCountdown (c f l : Byte) (s : State) : (loadConfig c f l s).sigCountdown = s.sigCountdown := by simp only [loadConfig]; repeat (first | rfl | split)
@[simp] theorem loadConfig_outRemaining (c f l : Byte) (s : State) : (loadConfig c f l s).outRemaining = s.outRemaining := by simp only [loadConfig]; repeat (first | rfl | split)
@[simp] theorem loadConfig_recvingSince (c f l : Byte) (s : State) : (loadConfig c f l s).recvingSince = s.recvingSince := by simp only [loadConfig]; repeat (first | rfl | split)
@[simp] theorem loadConfig_wdtMissed (c f l : Byte) (s : State) : (loadConfig c f l s).wdtMissed = s.wdtMissed := by simp only [loadConfig]; repeat (first | rfl | split)
@[simp] theorem loadConfig_pinSnapshotRx (c f l : Byte) (s : State) : (loadConfig c f l s).pinSnapshotRx = s.pinSnapshotRx := by simp only [loadConfig]; repeat (first | rfl | split)
@[simp] theorem loadConfig_pinSnapshotCtl (c f l : Byte) (s : State) : (loadConfig c f l s).pinSnapshotCtl = s.pinSnapshotCtl := by simp only [loadConfig]; repeat (first | rfl | split)
@[simp] theorem loadConfig_pcPending (c f l : Byte) (s : State) : (loadConfig c f l s).pcPending = s.pcPending := by simp only [loadConfig]; repeat (first | rfl | split)
@[simp] theorem loadConfig_lpPending (c f l : Byte) (s : State) : (loadConfig c f l s).lpPending = s.lpPending := by simp only [loadConfig]; repeat (first | rfl | split)
@[simp] theorem loadConfig_lpCount (c f l : Byte) (s : State) : (loadConfig c f l s).lpCount = s.lpCount := by simp only [loadConfig]; repeat (first | rfl | split)
@[simp] theorem loadConfig_sigActive (c f l : Byte) (s : State) : (loadConfig c f l s).sigActive = s.sigActive := by simp only [loadConfig]; repeat (first | rfl | split)
@[simp] theorem loadConfig_sigRep (c f l : Byte) (s : State) : (loadConfig c f l s).sigRep = s.sigRep := by simp only [loadConfig]; repeat (first | rfl | split)
@[simp] theorem loadConfig_sigPos (c f l : Byte) (s : State) : (loadConfig c f l s).sigPos = s.sigPos := by simp only [loadConfig]; repeat (first | rfl | split)
@[simp] theorem loadConfig_rb (c f l : Byte) (s : State) : (loadConfig c f l s).rb = s.rb := by simp only [loadConfig]; repeat (first | rfl | split)
@[simp] theorem loadConfig_rbWrite (c f l : Byte) (s : State) : (loadConfig c f l s).rbWrite = s.rbWrite := by simp only [loadConfig]; repeat (first | rfl | split)
@[simp] theorem loadConfig_rbRead (c f l : Byte) (s : State) : (loadConfig c f l s).rbRead = s.rbRead := by simp only [loadConfig]; repeat (first | rfl | split)
@[simp] theorem loadConfig_rbTrainStart (c f l : Byte) (s : State) : (loadConfig c f l s).rbTrainStart = s.rbTrainStart := by simp only [loadConfig]; repeat (first | rfl | split)
@[simp] theorem loadConfig_trainLen (c f l : Byte) (s : State) : (loadConfig c f l s).trainLen = s.trainLen := by simp only [loadConfig]; repeat (first | rfl | split)
@[simp] theorem loadConfig_ldShift (c f l : Byte) (s : State) : (loadConfig c f l s).ldShift = s.ldShift := by simp only [loadConfig]; repeat (first | rfl | split)
@[simp] theorem loadConfig_tsIdx (c f l : Byte) (s : State) : (loadConfig c f l s).tsIdx = s.tsIdx := by simp only [loadConfig]; repeat (first | rfl | split)
@[simp] theorem loadConfig_ctlState (c f l : Byte) (s : State) : (loadConfig c f l s).ctlState = s.ctlState := by simp only [loadConfig]; repeat (first | rfl | split)
@[simp] theorem loadConfig_ctlActive (c f l : Byte) (s : State) : (loadConfig c f l s).ctlActive = s.ctlActive := by simp only [loadConfig]; repeat (first | rfl | split)
@[simp] theorem loadConfig_ctlCount (c f l : Byte) (s : State) : (loadConfig c f l s).ctlCount = s.ctlCount := by simp only [loadConfig]; repeat (first | rfl | split)
@[simp] theorem loadConfig_ctlValue (c f l : Byte) (s : State) : (loadConfig c f l s).ctlValue = s.ctlValue := by simp only [loadConfig]; repeat (first | rfl | split)
@[simp] theorem loadConfig_ctlPressTick (c f l : Byte) (s : State) : (loadConfig c f l s).ctlPressTick = s.ctlPressTick := by simp only [loadConfig]; repeat (first | rfl | split)
@[simp] theorem loadConfig_ctlReleaseTick (c f l : Byte) (s : State) : (loadConfig c f l s).ctlReleaseTick = s.ctlReleaseTick := by simp only [loadConfig]; repeat (first | rfl | split)
@[simp] theorem loadConfig_nv (c f l : Byte) (s : State) : (loadConfig c f l s).nv = s.nv := by simp only [loadConfig]; repeat (first | rfl | split)
@[simp] theorem loadConfig_faultWdt (c f l : Byte) (s : State) : (loadConfig c f l s).faultWdt = s.faultWdt := by simp only [loadConfig]; repeat (first | rfl | split)
@[simp] theorem loadConfig_refused (c f l : Byte) (s : State) : (loadConfig c f l s).refused = s.refused := by simp only [loadConfig]; repeat (first | rfl | split)
@[simp] theorem loadConfig_outTrace (c f l : Byte) (s : State) : (loadConfig c f l s).outTrace = s.outTrace := by simp only [loadConfig]; repeat (first | rfl | split)
@[simp] theorem loadConfig_trace (c f l : Byte) (s : State) : (loadConfig c f l s).trace = s.trace := by simp only [loadConfig]; repeat (first | rfl | split)
@[simp] theorem loadConfig_envIndex (c f l : Byte) (s : State) : (loadConfig c f l s).envIndex = s.envIndex := by simp only [loadConfig]; repeat (first | rfl | split)

end Sys2Proof.Machine
end

