-- ==== Sys2Proof/Laws/Memory.lean ====
section
/-!
SUPPORT. The laws of the two spaces (20_memory.md): a read after a write, the canonical form kept by every memory operation, equal
readings give equal spaces, and the reset state's spaces are canonical.
-/

namespace Sys2Proof.Machine

variable {w : Nat}

@[simp] theorem Memory.read_nil (a : Nat) : Memory.read ([] : Memory w) a = Memory.default w := rfl

/-- A read after a write: the value written at that address, the value before at every other. -/
theorem Memory.read_write (m : Memory w) (a b : Nat) (v : BitVec w) (hm : Memory.wf m = true) :
    Memory.read (Memory.write m a v) b = if b = a then v else Memory.read m b := by
  induction m with
  | nil =>
    by_cases hv : v = Memory.default w <;> by_cases hb : b = a <;>
      simp [Memory.write, Memory.read, hv, hb]
  | cons c rest ih =>
    obtain ⟨c, x⟩ := c
    simp only [Memory.wf, Bool.and_eq_true, List.all_eq_true, decide_eq_true_eq] at hm
    obtain ⟨⟨-, hall⟩, hrest⟩ := hm
    have absent : ∀ (l : Memory w), (∀ e ∈ l, a < e.1) → Memory.read l a = Memory.default w := by
      intro l
      induction l with
      | nil => simp
      | cons d l ihl =>
        intro h
        have h1 := h d (by simp)
        simp only [Memory.read]
        rw [if_neg (by omega)]
        exact ihl fun e he => h e (by simp [he])
    unfold Memory.write
    split
    · rename_i hlt
      have hpast : Memory.read ((c, x) :: rest) a = Memory.default w :=
        absent _ (by
          intro e he
          rcases List.mem_cons.mp he with rfl | he
          · exact hlt
          · exact Nat.lt_trans hlt (hall e he))
      split
      · rename_i hv
        split
        · subst_vars; exact hpast
        · rfl
      · simp [Memory.read]
    · split
      · rename_i hnlt hac
        subst hac
        split
        · rename_i hv
          by_cases hb : b = a
          · subst hb; simp [absent rest hall, hv]
          · simp [Memory.read, hb]
        · by_cases hb : b = a <;> simp [Memory.read, hb]
      · rename_i hnlt hne
        simp only [Memory.read, ih hrest]
        by_cases hbc : b = c
        · rw [if_pos hbc, if_neg (by omega), if_pos hbc]
        · simp [hbc]

/-- Reading back what was written. -/
theorem Memory.read_write_same (m : Memory w) (a : Nat) (v : BitVec w) (hm : Memory.wf m = true) :
    Memory.read (Memory.write m a v) a = v := by simp [Memory.read_write m a a v hm]

/-- A write leaves every other address alone. -/
theorem Memory.read_write_other (m : Memory w) (a b : Nat) (v : BitVec w) (hm : Memory.wf m = true) (h : b ≠ a) :
    Memory.read (Memory.write m a v) b = Memory.read m b := by simp [Memory.read_write m a b v hm, h]

/-- Every address of a written space is the address written or one of before. -/
theorem Memory.mem_write (m : Memory w) (a : Nat) (v : BitVec w) :
    ∀ e ∈ Memory.write m a v, e.1 = a ∨ e ∈ m := by
  induction m with
  | nil => intro e; unfold Memory.write; split <;> simp_all
  | cons c rest ih =>
    obtain ⟨c, x⟩ := c
    intro e he
    unfold Memory.write at he
    split at he
    · split at he
      · exact .inr he
      · rcases List.mem_cons.mp he with rfl | he
        · exact .inl rfl
        · exact .inr he
    · split at he
      · split at he
        · exact .inr (List.mem_cons_of_mem _ he)
        · rcases List.mem_cons.mp he with rfl | he
          · exact .inl rfl
          · exact .inr (List.mem_cons_of_mem _ he)
      · rcases List.mem_cons.mp he with rfl | he
        · exact .inr (by simp)
        · rcases ih e he with h | h
          · exact .inl h
          · exact .inr (List.mem_cons_of_mem _ h)

/-- A write keeps the canonical form. -/
theorem Memory.wf_write (m : Memory w) (a : Nat) (v : BitVec w) (hm : Memory.wf m = true) :
    Memory.wf (Memory.write m a v) = true := by
  induction m with
  | nil => unfold Memory.write; split <;> simp_all [Memory.wf]
  | cons c rest ih =>
    obtain ⟨c, x⟩ := c
    have hm' := hm
    simp only [Memory.wf, Bool.and_eq_true, List.all_eq_true, decide_eq_true_eq, bne_iff_ne, ne_eq] at hm'
    obtain ⟨⟨hx, hall⟩, hrest⟩ := hm'
    unfold Memory.write
    split
    · rename_i hlt
      split
      · exact hm
      · rename_i hv
        simp only [Memory.wf, Bool.and_eq_true, List.all_eq_true, decide_eq_true_eq, bne_iff_ne, ne_eq]
        refine ⟨⟨hv, ?_⟩, ⟨hx, hall⟩, hrest⟩
        intro e he
        rcases List.mem_cons.mp he with rfl | he
        · exact hlt
        · exact Nat.lt_trans hlt (hall e he)
    · split
      · rename_i hac
        subst hac
        split
        · exact hrest
        · rename_i hv
          simp only [Memory.wf, Bool.and_eq_true, List.all_eq_true, decide_eq_true_eq, bne_iff_ne, ne_eq]
          exact ⟨⟨hv, hall⟩, hrest⟩
      · rename_i hnlt hne
        simp only [Memory.wf, Bool.and_eq_true, List.all_eq_true, decide_eq_true_eq, bne_iff_ne, ne_eq]
        refine ⟨⟨hx, ?_⟩, ih hrest⟩
        intro e he
        rcases Memory.mem_write rest a v e he with h | h
        · omega
        · exact hall e h

/-- `MemWrite` keeps the canonical form of the store. -/
theorem nvWrite_wf (a : Nat) (v : Byte) (s t : State) (h : nvWrite a v s = some t) (hs : Memory.wf s.nv = true) :
    Memory.wf t.nv = true := by
  simp only [nvWrite] at h
  split at h
  · cases h; exact Memory.wf_write _ _ _ hs
  · cases h

/-- `RBPush` keeps the canonical form of the ring. -/
theorem rbPush_wf (d : Duration) (s : State) (hs : Memory.wf s.rb = true) : Memory.wf (rbPush d s).rb = true :=
  Memory.wf_write _ _ _ hs

/-- `RBPop` moves an index only. -/
theorem rbPop_wf (s : State) (hs : Memory.wf s.rb = true) : Memory.wf (rbPop s).rb = true := hs

/-- The reset of the engine leaves a canonical (empty) ring and the store as it was. -/
theorem clearEngine_wf (s : State) (hs : Memory.wf s.nv = true) :
    Memory.wf (clearEngine s).nv = true ∧ Memory.wf (clearEngine s).rb = true := ⟨hs, rfl⟩

/-- The spaces of the reset state are canonical. -/
theorem reset_memories_wf : Memory.wf State.reset.nv = true ∧ Memory.wf State.reset.rb = true := ⟨rfl, rfl⟩

end Sys2Proof.Machine
end

