-- ==== Sys2Proof/Laws/Ops.lean ====
section
/-!
SUPPORT. For each shared operation, one lemma that says everything it can do: the store's accesses, the configuration write, the boot
load and the reset, the command, the signature step, the delay unit, the fetch.
-/

namespace Sys2Proof.Machine

/-! ## The store -/

/-- A read of an address that exists. -/
theorem nvRead_of_lt (a : Nat) (s : State) (h : a < s.par.nvSize) : nvRead a s = some (Memory.read s.nv a) := if_pos h

/-- A write of an address that exists. -/
theorem nvWrite_of_lt (a : Nat) (v : Byte) (s : State) (h : a < s.par.nvSize) :
    nvWrite a v s = some { s with nv := Memory.write s.nv a v } := if_pos h

/-- The store after a configuration write (44 R301): bytes 2, 3 and 1, in that order. -/
def configBytes (s : State) : List Host.Cell :=
  Memory.write (Memory.write (Memory.write s.nv 2 (filterByte s.cfgFilter)) 3 (bitByte s.cfgLowpass)) 1 s.cfgNvsum

/-- `nv_write_config()` completes exactly where the store has the four bytes of its layout. -/
theorem nvWriteConfig_eq (s : State) :
    nvWriteConfig s = if 4 ≤ s.par.nvSize then some { s with nv := configBytes s } else none := by
  unfold nvWriteConfig
  by_cases h : 4 ≤ s.par.nvSize
  · rw [nvWrite_of_lt 2 _ s (by omega)]
    simp only []
    rw [nvWrite_of_lt 3 _ _ (by simp only []; omega)]
    simp only []
    rw [nvWrite_of_lt 1 _ _ (by simp only []; omega), if_pos h]
    rfl
  · rw [if_neg h]
    by_cases h2 : 2 < s.par.nvSize
    · rw [nvWrite_of_lt 2 _ s h2]
      simp only []
      rw [show nvWrite 3 _ { s with nv := Memory.write s.nv 2 (filterByte s.cfgFilter) } = none from
        if_neg (by simp only []; omega)]
    · rw [show nvWrite 2 _ s = none from if_neg h2]

/-- What a configuration write leaves in the store, address by address (20 R84, 44 R301). -/
theorem configBytes_read (s : State) (a : Nat) (h : Memory.wf s.nv = true) :
    Memory.read (configBytes s) a =
      if a = 1 then s.cfgNvsum else if a = 3 then bitByte s.cfgLowpass else if a = 2 then filterByte s.cfgFilter
      else Memory.read s.nv a := by
  have h2 := Memory.wf_write s.nv 2 (filterByte s.cfgFilter) h
  have h3 := Memory.wf_write _ 3 (bitByte s.cfgLowpass) h2
  simp only [configBytes]
  rw [Memory.read_write _ _ _ _ h3, Memory.read_write _ _ _ _ h2, Memory.read_write _ _ _ _ h]

/-- A configuration write keeps the store canonical. -/
theorem configBytes_wf (s : State) (h : Memory.wf s.nv = true) : Memory.wf (configBytes s) = true :=
  Memory.wf_write _ _ _ (Memory.wf_write _ _ _ (Memory.wf_write _ _ _ h))

/-! ## Commands -/

/-- The state `write_config(nf, nl)` leaves (44 R300). -/
def configured (nf : FilterMode) (nl : Bool) (s : State) : State :=
  raiseOutcome (.cmdApplied nf nl)
    { setConfig nf nl (switchFilter nf s) with
      nv := configBytes (setConfig nf nl (switchFilter nf s))
      sigCountdown := s.par.sigExpedite }

/-- `write_config(nf, nl)` completes exactly where the store has the four bytes of its layout (44 R300). -/
theorem writeConfig_eq (nf : FilterMode) (nl : Bool) (s : State) :
    writeConfig nf nl s = if 4 ≤ s.par.nvSize then .next (configured nf nl s) else .fault .nvAddress := by
  unfold writeConfig
  rw [nvWriteConfig_eq]
  by_cases h : 4 ≤ s.par.nvSize
  · simp [h, configured]
  · simp [h]

/-- The end of a command (44 R299): no change, or the configuration written. -/
theorem selectConfig_eq (v : BitVec 16) (nf : FilterMode) (nl : Bool) (s : State) (h : 4 ≤ s.par.nvSize) :
    selectConfig v nf nl s =
      .next (if nf = s.cfgFilter ∧ nl = s.cfgLowpass then raiseOutcome (.cmdNoChange v) s else configured nf nl s) := by
  unfold selectConfig
  rw [writeConfig_eq, if_pos h]
  split <;> rfl

/-- `apply_command(v)` runs the instruction its word decodes to. -/
theorem applyCommand_eq (v : BitVec 16) (s : State) : applyCommand v s = exec (decodeCommand v) s := by
  have h := decodeCommand_slot v
  unfold applyCommand
  cases hi : decodeCommand v <;> (try rfl) <;> (rw [hi] at h; simp [Instr.slot] at h)

/-- A command that ends in a next state leaves the state unchanged but for a record, or has written the configuration. -/
theorem command_cases (i : Instr) (s t : State) (hi : i.slot = .command) (h : exec i s = .next t) :
    (∃ o, t = raiseOutcome o s) ∨ ∃ nf nl, t = configured nf nl s ∧ 4 ≤ s.par.nvSize := by
  have sel : ∀ v nf nl, selectConfig v nf nl s = .next t →
      (∃ o, t = raiseOutcome o s) ∨ ∃ nf nl, t = configured nf nl s ∧ 4 ≤ s.par.nvSize := by
    intro v nf nl hs
    unfold selectConfig at hs
    rw [writeConfig_eq] at hs
    split at hs
    · cases hs; exact .inl ⟨_, rfl⟩
    · split at hs
      · rename_i hn; cases hs; exact .inr ⟨_, _, rfl, hn⟩
      · cases hs
  have bad : ∀ v, badTarget v s = .next t → ∃ o, t = raiseOutcome o s := by
    intro v hb
    cases hb
    exact ⟨_, rfl⟩
  cases i <;> (try (simp [Instr.slot] at hi)) <;> first | exact sel _ _ _ h | exact .inl (bad _ h)

/-! ## Reset and boot -/

/-- `boot_load()` completes exactly where the store has the four bytes of its layout (70 R372). -/
theorem bootLoad_eq (s : State) :
    bootLoad s = if 4 ≤ s.par.nvSize
      then .next (loadConfig (Memory.read s.nv 1) (Memory.read s.nv 2) (Memory.read s.nv 3) s)
      else .fault .nvAddress := by
  unfold bootLoad
  by_cases h : 4 ≤ s.par.nvSize
  · rw [nvRead_of_lt 1 s (by omega), nvRead_of_lt 2 s (by omega), nvRead_of_lt 3 s (by omega), if_pos h]
  · rw [show nvRead 3 s = none from if_neg (by omega), if_neg h]
    cases nvRead 1 s <;> cases nvRead 2 s <;> rfl

/-- What a boot load loads (70 R372): a mode of the store, or the default with `ConfigCorrupt`. -/
theorem loadConfig_cases (c f l : Byte) (s : State) :
    (∃ m, filterOfIndex f = some m ∧ c = nvsum s.par f ∧ loadConfig c f l s = setConfig m (l != 0) s) ∨
      ((filterOfIndex f = none ∨ c ≠ nvsum s.par f) ∧
        loadConfig c f l s = raiseOutcome (.configCorrupt c f l) (setConfig .nop false s)) := by
  unfold loadConfig
  cases hf : filterOfIndex f with
  | none => exact .inr ⟨.inl rfl, rfl⟩
  | some m =>
    by_cases hc : c = nvsum s.par f
    · exact .inl ⟨m, rfl, hc, by simp [hc]⟩
    · exact .inr ⟨.inr hc, by simp [hc]⟩

/-- The state `reset()` leaves (70 R370). -/
def resetTo (s : State) : State :=
  loadConfig (Memory.read s.nv 1) (Memory.read s.nv 2) (Memory.read s.nv 3) (clearEngine s)

/-- `reset()` completes exactly where the store has the four bytes of its layout (70 R370). -/
theorem resetEngine_eq (s : State) :
    resetEngine s = if 4 ≤ s.par.nvSize then .next (resetTo s) else .fault .nvAddress :=
  bootLoad_eq (clearEngine s)

/-! ## The Signature Encoder -/

/-- Every pulse of a frame lasts `dur(sig_pos)` (42 R210, R211). -/
theorem framePulse_eq (s : State) : framePulse s = emitPulse (frameDuration s s.sigPos.toNat) s := by
  unfold framePulse frameDuration
  split <;> simp_all [symbolPulse]

/-- The pulse the encoder emits, field by field (42 R211, R212). -/
theorem emitPulse_eq (d : Duration) (s : State) :
    emitPulse d s =
      { s with
        outLevel := !s.outLevel
        outTrace := s.outTrace ++ [(s.tickCount, !s.outLevel)]
        outRemaining := d
        sigPos := if s.sigPos + 1 = 214#8 then 0 else s.sigPos + 1
        sigRep := if s.sigPos + 1 = 214#8 then s.sigRep + 1 else s.sigRep } := by
  have hp : (startPulse d (toggleOut s)).sigPos = s.sigPos := rfl
  unfold emitPulse advancePos
  by_cases h : s.sigPos + 1 = 214#8
  · rw [if_pos (hp.symm ▸ h), if_pos h, if_pos h]; rfl
  · rw [if_neg (hp.symm ▸ h), if_neg h, if_neg h]; rfl

/-! ## The control decoder -/

/-- A control edge that ends in a next state: a press, an ignored release, a bit, a bad duration, or a finished command, which is the
only one that leaves the control decoder's fields (44 R291 to R298). -/
theorem controlEdge_cases (level : Bool) (s t : State) (h : controlEdge level s = .next t) :
    t = ctlPress s ∨ t = s ∨ (∃ d, t = bitPulse d { s with ctlActive := false }) ∨
      (∃ d, t = raiseOutcome (.cmdBadDuration d) (sessionReset { s with ctlActive := false })) ∨
      exec (decodeCommand s.ctlValue) (sessionReset { s with ctlActive := false }) = .next t := by
  unfold controlEdge at h
  split at h
  · cases h; exact .inl rfl
  · unfold ctlRelease at h
    split at h
    · unfold classifyPulse at h
      split at h
      · cases h; exact .inr (.inr (.inl ⟨_, rfl⟩))
      · split at h
        · unfold finishPulse at h
          rw [applyCommand_eq] at h
          exact .inr (.inr (.inr (.inr h)))
        · cases h; exact .inr (.inr (.inr (.inl ⟨_, rfl⟩)))
    · cases h; exact .inr (.inl rfl)

/-- The receiver's part of a dispatch takes the snapshot: it leaves the latch clear and the snapshots at the levels. -/
theorem dispatchRx_sampled (s : State) :
    (dispatchRx s).pcPending = false ∧ (dispatchRx s).pinSnapshotRx = s.rxLevel ∧
      (dispatchRx s).pinSnapshotCtl = s.ctlLevel := by
  unfold dispatchRx
  split <;> simp

/-- A `PCINT` that ends in a next state: not admitted, the receiver's part alone, or a control edge after it (41 R171). -/
theorem execPcint_cases (s t : State) (h : exec .pcint s = .next t) :
    (pcintAdmitted s = false ∧ t = s) ∨ (pcintAdmitted s = true ∧ (t = dispatchRx s ∨ controlEdge s.ctlLevel (dispatchRx s) = .next t)) := by
  change execPcint s = _ at h
  unfold execPcint at h
  split at h
  · rename_i ha
    unfold dispatchEdges at h
    split at h
    · exact .inr ⟨ha, .inr h⟩
    · cases h; exact .inr ⟨ha, .inl rfl⟩
  · rename_i ha
    cases h
    exact .inl ⟨by simpa using ha, rfl⟩

/-! ## The delay unit -/

/-- `lowpass_step()` does one of three things: nothing, one count, the delivery (41 R182). -/
theorem lowpassStep_cases (s : State) :
    (s.lpPending = false ∧ lowpassStep s = s) ∨
      (s.lpPending = true ∧ s.lpCount ≠ 1 ∧ lowpassStep s = { s with lpCount := s.lpCount - 1 }) ∨
      (s.lpPending = true ∧ s.lpCount = 1 ∧ lowpassStep s = deliverEdge { s with lpCount := 0, lpPending := false }) := by
  have one : s.lpCount - 1 = 0#8 ↔ s.lpCount = 1 := by
    constructor
    · intro h; bv_omega
    · intro h; rw [h]; rfl
  unfold lowpassStep
  by_cases hp : s.lpPending = true
  · rw [if_pos hp]
    by_cases h : s.lpCount = 1
    · exact .inr (.inr ⟨hp, h, if_pos (one.mpr h)⟩)
    · exact .inr (.inl ⟨hp, h, if_neg (mt one.mp h)⟩)
  · rw [if_neg hp]
    exact .inl ⟨by simpa using hp, rfl⟩

/-! ## The step -/

/-- What a fetch takes: the next placed word, or the environment's next choice. -/
theorem fetchWord_cases (s : State) :
    (∃ w rest, s.trace = w :: rest ∧ fetchWord s = (w, { s with trace := rest })) ∨
      (s.trace = [] ∧
        fetchWord s = (choiceWord (Config.envChoice s.envIndex), { s with envIndex := s.envIndex + 1 })) := by
  unfold fetchWord
  cases s.trace with
  | nil => exact .inr ⟨rfl, rfl⟩
  | cons w rest => exact .inl ⟨w, rest, rfl, rfl⟩

/-- Every free choice spells an event (30 R101). -/
theorem decodeEvent_choiceWord (c : BitVec 3) : ∃ i, decodeEvent (choiceWord c) = .ok i := by
  have h : ∀ n < 8, (decodeEvent (choiceWord (BitVec.ofNat 3 n))).isOk = true := by decide
  have hc := h c.toNat c.isLt
  rw [BitVec.ofNat_toNat, BitVec.setWidth_eq] at hc
  cases hd : decodeEvent (choiceWord c) with
  | ok i => exact ⟨i, rfl⟩
  | error e => rw [hd] at hc; cases hc

/-- What a step does: it runs the event its word spells, or marks the word refused (40 R140, 60 R333). -/
theorem step_cases (s : State) :
    (∃ i, decodeEvent (fetchWord s).1 = .ok i ∧ i.slot = .event ∧ step s = exec i (fetchWord s).2) ∨
      (∃ e, decodeEvent (fetchWord s).1 = .error e ∧ step s = .next (markRefused (fetchWord s).2)) := by
  unfold step
  cases h : decodeEvent (fetchWord s).1 with
  | ok i => exact .inl ⟨i, rfl, decodeEvent_slot _ _ h, rfl⟩
  | error e => exact .inr ⟨e, rfl, rfl⟩

/-- Every tick answers a next state (40 R149). -/
theorem execTick_eq (s : State) : exec .tick s = .next (tickBody (tickPrologue s)) := rfl

/-- Steps 3 to 6: exactly one of five paths (40 R141). -/
theorem tickBody_cases (s : State) :
    (s.outRemaining ≠ 0 ∧ tickBody s = lowpassStep s) ∨
      (s.outRemaining = 0 ∧ s.sigActive = false ∧ s.sigCountdown.msb = true ∧ tickBody s = startSignature s) ∨
      (s.outRemaining = 0 ∧ s.sigActive = true ∧ s.sigRep = s.par.sigRepeats ∧ tickBody s = endSignature s) ∨
      (s.outRemaining = 0 ∧ s.sigActive = true ∧ s.sigRep ≠ s.par.sigRepeats ∧
        tickBody s = emitPulse (frameDuration s s.sigPos.toNat) s) ∨
      (s.outRemaining = 0 ∧ s.sigActive = false ∧ s.sigCountdown.msb = false ∧
        tickBody s = lowpassStep (applyFilter false s)) := by
  unfold tickBody pulseRunning signatureDue countdownNegative
  by_cases h0 : s.outRemaining = 0
  · cases ha : s.sigActive
    · cases hc : s.sigCountdown.msb
      · exact .inr (.inr (.inr (.inr ⟨h0, rfl, rfl, by simp [h0]⟩)))
      · exact .inr (.inl ⟨h0, rfl, rfl, by simp [h0]⟩)
    · by_cases hr : s.sigRep = s.par.sigRepeats
      · exact .inr (.inr (.inl ⟨h0, rfl, hr, by simp [h0, signatureStep, signatureDone, hr]⟩))
      · exact .inr (.inr (.inr (.inl ⟨h0, rfl, hr, by simp [h0, signatureStep, signatureDone, hr, framePulse_eq]⟩)))
  · exact .inl ⟨h0, if_pos (bne_iff_ne.mpr h0)⟩

/-! ## Runs of events -/

/-- A run of two lists of events is a run of the second after a run of the first. -/
theorem runEvents_append (es fs : List Instr) (s : State) :
    runEvents (es ++ fs) s = andThen (runEvents es s) (runEvents fs) := by
  induction es generalizing s with
  | nil => rfl
  | cons i rest ih =>
    simp only [List.cons_append, runEvents]
    cases exec i s with
    | next t => exact ih t
    | fault _ => rfl
    | refused _ => rfl

/-- One more event after a run that ends in a next state. -/
theorem runEvents_concat (es : List Instr) (i : Instr) (s t : State) (h : runEvents es s = .next t) :
    runEvents (es ++ [i]) s = exec i t := by
  rw [runEvents_append, h]
  simp only [andThen, runEvents]
  cases exec i t <;> rfl

end Sys2Proof.Machine
end

