-- ==== Sys2Proof/Laws/PerInstr.lean ====
section
/-!
SUPPORT. Per-instruction laws. TableRow: the word of a well-formed instruction matches its own row of spec/opcode_table.json
(`word AND mask = match`), one lemma per constructor.
-/

namespace Sys2Proof.Laws.TableRow

/-- The mask and the match of an instruction's row in spec/opcode_table.json. -/
def row : Instr → BitVec 16 × BitVec 16
  | .tick => (0x00FF, 0x0010)
  | .pcint => (0x00FF, 0x0020)
  | .rx _ => (0x00FE, 0x0030)
  | .ctl _ => (0x00FE, 0x0040)
  | .miss => (0x00FF, 0x0050)
  | .por => (0x00FF, 0x0060)
  | .cAdv _ => (0x002F, 0x0000)
  | .cAdvLp _ => (0x002F, 0x0020)
  | .cSelTestsig _ => (0x002F, 0x0001)
  | .cSelTestsigLp _ => (0x002F, 0x0021)
  | .cSelLegacy _ => (0x002F, 0x0002)
  | .cSelLegacyLp _ => (0x002F, 0x0022)
  | .cSelTrain _ => (0x002F, 0x0003)
  | .cSelTrainLp _ => (0x002F, 0x0023)
  | .cSelPass _ => (0x002F, 0x0004)
  | .cSelPassLp _ => (0x002F, 0x0024)
  | .cBad5 _ => (0x000F, 0x0005)
  | .cBad6 _ => (0x000F, 0x0006)
  | .cBad7 _ => (0x000F, 0x0007)
  | .cBad8To15 _ => (0x0008, 0x0008)
  | .fNop _ => (0x00FF, 0x0000)
  | .fTestsig _ => (0x00FF, 0x0001)
  | .fLegacy _ => (0x00FF, 0x0002)
  | .fTrain _ => (0x00FF, 0x0003)
  | .fPass _ => (0x00FF, 0x0004)
  | .sym1 _ => (0x000F, 0b0010)
  | .sym0 _ => (0x000F, 0b1000)

/-- The word of a well-formed instruction matches its row. -/
def Statement (i : Instr) : Prop := i.wellFormed = true → encode i &&& (row i).1 = (row i).2

theorem tick : Statement (.tick) := by intro _; rfl
theorem pcint : Statement (.pcint) := by intro _; rfl
theorem rx (b : Bool) : Statement (.rx b) := by intro _; cases b <;> rfl
theorem ctl (b : Bool) : Statement (.ctl b) := by intro _; cases b <;> rfl
theorem miss : Statement (.miss) := by intro _; rfl
theorem por : Statement (.por) := by intro _; rfl
theorem cAdv (v : BitVec 16) : Statement (.cAdv v) := fun h => eq_of_beq h
theorem cAdvLp (v : BitVec 16) : Statement (.cAdvLp v) := fun h => eq_of_beq h
theorem cSelTestsig (v : BitVec 16) : Statement (.cSelTestsig v) := fun h => eq_of_beq h
theorem cSelTestsigLp (v : BitVec 16) : Statement (.cSelTestsigLp v) := fun h => eq_of_beq h
theorem cSelLegacy (v : BitVec 16) : Statement (.cSelLegacy v) := fun h => eq_of_beq h
theorem cSelLegacyLp (v : BitVec 16) : Statement (.cSelLegacyLp v) := fun h => eq_of_beq h
theorem cSelTrain (v : BitVec 16) : Statement (.cSelTrain v) := fun h => eq_of_beq h
theorem cSelTrainLp (v : BitVec 16) : Statement (.cSelTrainLp v) := fun h => eq_of_beq h
theorem cSelPass (v : BitVec 16) : Statement (.cSelPass v) := fun h => eq_of_beq h
theorem cSelPassLp (v : BitVec 16) : Statement (.cSelPassLp v) := fun h => eq_of_beq h
theorem cBad5 (v : BitVec 16) : Statement (.cBad5 v) := fun h => eq_of_beq h
theorem cBad6 (v : BitVec 16) : Statement (.cBad6 v) := fun h => eq_of_beq h
theorem cBad7 (v : BitVec 16) : Statement (.cBad7 v) := fun h => eq_of_beq h
theorem cBad8To15 (v : BitVec 16) : Statement (.cBad8To15 v) := fun h => eq_of_beq h
theorem fNop (pinChange : Bool) : Statement (.fNop pinChange) := fun _ => by simp [encode, row]
theorem fTestsig (pinChange : Bool) : Statement (.fTestsig pinChange) := fun _ => by simp [encode, row]
theorem fLegacy (pinChange : Bool) : Statement (.fLegacy pinChange) := fun _ => by simp [encode, row]
theorem fTrain (pinChange : Bool) : Statement (.fTrain pinChange) := fun _ => by simp [encode, row]
theorem fPass (pinChange : Bool) : Statement (.fPass pinChange) := fun _ => by simp [encode, row]
theorem sym1 (k : BitVec 2) : Statement (.sym1 k) := fun _ => by simp [encode, row]
theorem sym0 (k : BitVec 2) : Statement (.sym0 k) := fun _ => by simp [encode, row]

end Sys2Proof.Laws.TableRow
end

