-- ==== Sys2Proof/Tests/Slice0.lean ====
section
/-!
SUPPORT. Tests and witnesses. Every expected value of a test comes from the vectors of spec/95_test_vectors.md or from a rule's own
example or table; its comment names the source. A witness shows a state and operands that meet the hypotheses of an obligation.
-/

namespace Sys2Proof.Tests

open Sys2Proof Sys2Proof.Machine Sys2Proof.Claims

/-! ## Helpers -/

/-- The outcome is a next state with the property. -/
def nextHas (o : Host.Outcome State Fault Refusal) (p : State → Bool) : Bool :=
  match o with
  | .next t => p t
  | .fault _ => false
  | .refused _ => false

/-- A store with bytes 0 to 3. -/
def nvOf (b0 b1 b2 b3 : Byte) : List Host.Cell :=
  Memory.write (Memory.write (Memory.write (Memory.write [] 0 b0) 1 b1) 2 b2) 3 b3

/-- The state after the boot signature under P0 (95 section 2.6, P1), with the configuration `(f, l)`. -/
def settled (f : FilterMode) (l : Bool) : State :=
  { setConfig f l State.reset with tickCount := 33842, sigCountdown := 6000000, recvingSince := 33842, log := [] }

/-- A control press of `n` ticks that has just been released, after `c` bits of value `v` (95 section 2.6). -/
def released (n : Word32) (c : BitVec 8) (v : BitVec 16) : State :=
  { settled .nop false with
    tickCount := 33842 + n, ctlPressTick := 33842, ctlState := .receiving, ctlActive := true, ctlCount := c
    ctlValue := v, ctlLevel := true, pinSnapshotCtl := false, pcPending := true }

/-- A receiver edge waiting to be dispatched, low-pass off. -/
def edgeWaiting (f : FilterMode) (d : Duration) : State :=
  { settled f false with rxLevel := true, pcPending := true, recvingSince := d }

/-- A small ring for the Train-Buffer filter: `train` pulses of the train under construction after `kept` released ones. -/
def ringState (kept train : Nat) (d : Duration) : State :=
  { settled .trainBuffer false with
    rbRead := 0, rbTrainStart := kept, rbWrite := kept + train, trainLen := BitVec.ofNat 16 train, recvingSince := d }

/-! ## Well-formedness: every check refuses an ill-formed term -/

/-- One ill-formed word for each of the 14 command rows (30 R107). -/
theorem test_wellFormed_refuses_each_row :
    Instr.wellFormed (.cAdv 0x01) = false ∧ Instr.wellFormed (.cAdvLp 0x00) = false ∧
    Instr.wellFormed (.cSelTestsig 0x21) = false ∧ Instr.wellFormed (.cSelTestsigLp 0x01) = false ∧
    Instr.wellFormed (.cSelLegacy 0x03) = false ∧ Instr.wellFormed (.cSelLegacyLp 0x02) = false ∧
    Instr.wellFormed (.cSelTrain 0x23) = false ∧ Instr.wellFormed (.cSelTrainLp 0x03) = false ∧
    Instr.wellFormed (.cSelPass 0x05) = false ∧ Instr.wellFormed (.cSelPassLp 0x04) = false ∧
    Instr.wellFormed (.cBad5 0x04) = false ∧ Instr.wellFormed (.cBad6 0x07) = false ∧
    Instr.wellFormed (.cBad7 0x17F8) = false ∧ Instr.wellFormed (.cBad8To15 0x07) = false := by decide

/-- Bits 4 and 15:6 of a command word are outside every mask (30 R106, R108). -/
theorem test_wellFormed_ignores_reserved_bits :
    Instr.wellFormed (.cAdv 0xFFD0) = true ∧ Instr.wellFormed (.cBad5 0xFFF5) = true := by decide

/-- P0 is a legal set. -/
theorem test_legal_p0 : Params.p0.Legal := by decide

/-- One broken value for each row of 00 R10's column "constraint". -/
theorem test_legal_refuses_each_row :
    ([
      { Params.p0 with lpDelay := 0 },
      { Params.p0 with minPulselen := 0 },
      { Params.p0 with footerThresh := 1600 },
      { Params.p0 with footerThresh := 9 },
      { Params.p0 with minTrainLen := 64 },
      { Params.p0 with rbCap := 65 },
      { Params.p0 with idleTicks := 0 },
      { Params.p0 with sigLong := 30 },
      { Params.p0 with sigRepeats := 0 },
      { Params.p0 with sigPeriod := 0 },
      { Params.p0 with sigExpedite := 100 },
      { Params.p0 with versionBase := 656 },
      { Params.p0 with ctlBitBoundary := 20001 },
      { Params.p0 with ctlBitMax := 90001 },
      { Params.p0 with ctlFinishMin := 210001 },
      { Params.p0 with ctlFinishMax := 0x80000000 },
      { Params.p0 with ctlIdleTimeout := 0 },
      { Params.p0 with nvSumKey := 0 },
      { Params.p0 with nvSize := 3 },
      { Params.p0 with wdtTimeout := 0 },
      { Params.p0 with testSeq := [] },
      { Params.p0 with testSeq := [0] },
      { Params.p0 with nvWriteMisses := 400000 }] : List Params).all (fun p => !decide p.Legal) = true := by decide

/-! ## Decoding, from words written out by hand -/

/-- 30 R101, 95 section 2.1: opcode `[7:4]`, reserved `[3:1]`, data bit `[0]`. -/
theorem test_decode_events :
    decodeEvent 0b0001_0000#8 = .ok .tick ∧ decodeEvent 0b0010_0000#8 = .ok .pcint ∧
    decodeEvent 0b0011_0000#8 = .ok (.rx false) ∧ decodeEvent 0b0011_0001#8 = .ok (.rx true) ∧
    decodeEvent 0b0100_0000#8 = .ok (.ctl false) ∧ decodeEvent 0b0100_0001#8 = .ok (.ctl true) ∧
    decodeEvent 0b0101_0000#8 = .ok .miss ∧ decodeEvent 0b0110_0000#8 = .ok .por := by decide

/-- 95 section 2.1: every illegal word of the table, by name. -/
theorem test_decode_illegal_events :
    ([0x11, 0x21, 0x51, 0x61].all fun w => decodeEvent w = .error .dataBitOnDataless) = true ∧
    ([0x12, 0x32, 0x3E].all fun w => decodeEvent w = .error .reservedBits) = true ∧
    ([0x00, 0x70, 0x80, 0xFF].all fun w => decodeEvent w = .error .unknownOpcode) = true := by decide

/-- 30 R107: each row's word, `LPP` (bit 5), `LPV` (bit 4) and `T` (bits 3:0) written out, some with reserved bits set. -/
theorem test_decode_commands :
    decodeCommand 0b0000000000_00_0000#16 = .cAdv 0x00 ∧ decodeCommand 0b0000000000_11_0000#16 = .cAdvLp 0x30 ∧
    decodeCommand 0b0000000000_01_0001#16 = .cSelTestsig 0x11 ∧ decodeCommand 0b0000000000_10_0001#16 = .cSelTestsigLp 0x21 ∧
    decodeCommand 0b0000000000_00_0010#16 = .cSelLegacy 0x02 ∧ decodeCommand 0b0000000000_11_0010#16 = .cSelLegacyLp 0x32 ∧
    decodeCommand 0b0000000000_00_0011#16 = .cSelTrain 0x03 ∧ decodeCommand 0b0000000000_11_0011#16 = .cSelTrainLp 0x33 ∧
    decodeCommand 0b0000000100_00_0100#16 = .cSelPass 0x104 ∧ decodeCommand 0b1111111111_10_0100#16 = .cSelPassLp 0xFFE4 ∧
    decodeCommand 0b0000000000_00_0101#16 = .cBad5 0x05 ∧ decodeCommand 0b0000000000_11_0110#16 = .cBad6 0x36 ∧
    decodeCommand 0b0000000000_10_0111#16 = .cBad7 0x27 ∧ decodeCommand 0b0000000000_00_1000#16 = .cBad8To15 0x08 ∧
    decodeCommand 0b1111111111_11_1111#16 = .cBad8To15 0xFFFF := by decide

/-- 30 R110, R111: the five indices, and the first one past them. -/
theorem test_decode_filters :
    decodeFilter true 0#8 = .ok (.fNop true) ∧ decodeFilter true 1#8 = .ok (.fTestsig true) ∧
    decodeFilter false 2#8 = .ok (.fLegacy false) ∧ decodeFilter true 3#8 = .ok (.fTrain true) ∧
    decodeFilter false 4#8 = .ok (.fPass false) ∧ decodeFilter true 5#8 = .error .unknownFilterIndex ∧
    decodeFilter true 0xFF#8 = .error .unknownFilterIndex := by decide

/-- 30 R114, R115: the two long-masks, and the other 14 refused. -/
theorem test_decode_symbols :
    decodeSymbol 0 0b0010#4 = .ok (.sym1 0) ∧ decodeSymbol 2 0b1000#4 = .ok (.sym0 2) ∧
    ((List.range 16).all fun m => m = 2 ∨ m = 8 ∨ decodeSymbol 0 (BitVec.ofNat 4 m) = .error .unknownSymbol) = true := by
  decide

/-- 30 R118: a program is one byte per event, and one illegal byte spells no program. -/
theorem test_decode_program :
    decodeProgram [0x60, 0x10, 0x31, 0x20] = .ok [.por, .tick, .rx true, .pcint] ∧
    decodeProgram [0x10, 0x32] = .error .reservedBits := by decide

/-- 30 R117, R118: the bytes of `ERX 1` and of `CPRESS 2` under P0, where the active level is 0. -/
theorem test_program_bytes :
    programBytes Params.p0 [.erx true] = [0x31, 0x20] ∧
    programBytes Params.p0 [.cPress 2] = [0x40, 0x20, 0x10, 0x10, 0x41, 0x20] := by decide

/-- 30 R117: `ERX 0` at `rx_level` 0, and `ECTL 0` while edges are masked, are ill-formed and refused. -/
theorem test_pseudo_ill_formed :
    nextHas (runPseudo (.erx false) State.reset) (fun t => t = { State.reset with refused := true }) = true ∧
    nextHas (runPseudo (.ectl false) { State.reset with edgeIrqEn := false }) (fun t => t.refused && t.ctlLevel) = true := by
  decide

/-- The encodings of the opcode table's rows, one word for every row, decode to the row's instruction; where an 8-bit word spells
rows of several formats the first format is taken (log 8). -/
theorem test_decodeTableWord :
    decodeTableWord 8 0x10 = some .tick ∧ decodeTableWord 8 0x20 = some .pcint ∧ decodeTableWord 8 0x31 = some (.rx true) ∧
    decodeTableWord 8 0x40 = some (.ctl false) ∧ decodeTableWord 8 0x50 = some .miss ∧ decodeTableWord 8 0x60 = some .por ∧
    decodeTableWord 16 0x00 = some (.cAdv 0) ∧ decodeTableWord 16 0x20 = some (.cAdvLp 0x20) ∧
    decodeTableWord 16 0x01 = some (.cSelTestsig 1) ∧ decodeTableWord 16 0x21 = some (.cSelTestsigLp 0x21) ∧
    decodeTableWord 16 0x02 = some (.cSelLegacy 2) ∧ decodeTableWord 16 0x22 = some (.cSelLegacyLp 0x22) ∧
    decodeTableWord 16 0x03 = some (.cSelTrain 3) ∧ decodeTableWord 16 0x23 = some (.cSelTrainLp 0x23) ∧
    decodeTableWord 16 0x04 = some (.cSelPass 4) ∧ decodeTableWord 16 0x24 = some (.cSelPassLp 0x24) ∧
    decodeTableWord 16 0x05 = some (.cBad5 5) ∧ decodeTableWord 16 0x06 = some (.cBad6 6) ∧
    decodeTableWord 16 0x07 = some (.cBad7 7) ∧ decodeTableWord 16 0x08 = some (.cBad8To15 8) ∧
    decodeTableWord 8 0x00 = some (.fNop false) ∧ decodeTableWord 8 0x01 = some (.fTestsig false) ∧
    decodeTableWord 8 0x02 = some (.fLegacy false) ∧ decodeTableWord 8 0x03 = some (.fTrain false) ∧
    decodeTableWord 8 0x04 = some (.fPass false) ∧ decodeTableWord 4 0b0010 = some (.sym1 0) ∧
    decodeTableWord 4 0b1000 = some (.sym0 0) ∧ decodeTableWord 4 0b0100 = none := by decide

/-! ## A placed word is what the next step runs (log 10) -/

theorem test_withFetchWord_event :
    nextHas (step (State.reset.withFetchWord 8 0x10)) (fun t => t.tickCount == 1 && t.sigActive) = true ∧
    nextHas (step (State.reset.withFetchWord 4 0b0100)) (fun t => t.refused && t.tickCount == 0) = true := by decide

theorem test_withFetchWord_command :
    nextHas (step (State.reset.withFetchWord 16 0x33)) (fun t => t.log.getLast? == some (.cmdApplied .trainBuffer true)) = true ∧
    nextHas (step (State.reset.withFetchWord 16 0x05)) (fun t => t.log.getLast? == some (.cmdBadTarget 5)) = true := by decide

theorem test_withFetchWord_filter :
    nextHas (step (State.reset.withFetchWord 8 0x01)) (fun t => t.outRemaining == 200 && t.tsIdx == 1 && t.outLevel) = true ∧
    nextHas (step (State.reset.withFetchWord 8 0x04)) (fun t => t.outTrace == [(0, false), (1, false)]) = true := by decide

theorem test_withFetchWord_symbol :
    nextHas (step (State.reset.withFetchWord 4 0b0010)) (fun t => t.outRemaining == 30 && t.sigPos == 12) = true ∧
    nextHas (step (State.reset.withFetchWord 4 0b1000)) (fun t => t.outRemaining == 30 && t.sigPos == 4) = true := by decide

/-! ## Events -/

/-- V-T1: the first tick after reset starts the signature and emits nothing. -/
theorem test_tick_starts_boot_signature :
    nextHas (exec .tick State.reset) (fun t => t.tickCount == 1 && t.sigCountdown == -1 && t.sigActive && !t.edgeIrqEn &&
      t.sigPos == 0 && !t.outLevel && t.outRemaining == 0) = true := by decide

/-- V-T2, V-T3 and V-T4: the first header pulse; a running pulse; a saturated `recving_since`. -/
theorem test_tick_paths :
    nextHas (exec .tick { State.reset with tickCount := 1, sigCountdown := -1, sigActive := true, edgeIrqEn := false })
      (fun t => t.outLevel && t.outRemaining == 30 && t.sigPos == 1 && t.sigCountdown == -2) = true ∧
    nextHas (exec .tick { settled .testSignal false with outRemaining := 5, lpPending := true, lpCount := 3 })
      (fun t => t.outRemaining == 4 && t.lpCount == 2 && t.outTrace == [(0, false)] && t.tsIdx == 0) = true ∧
    nextHas (exec .tick { settled .nop false with recvingSince := 65535 }) (fun t => t.recvingSince == 65535) = true := by
  decide

/-- V-D3 and 41 R171's example: a Passthrough edge with low-pass off. -/
theorem test_pcint_passthrough_edge :
    nextHas (exec .pcint (edgeWaiting .passthrough 33842))
      (fun t => t.outLevel && t.recvingSince == 0 && !t.pcPending && t.pinSnapshotRx) = true := by decide

/-- V-D4: with low-pass on, an edge arms; a second one cancels and keeps `recving_since`. -/
theorem test_pcint_arms_and_cancels :
    nextHas (exec .pcint { edgeWaiting .trainBuffer 7 with cfgLowpass := true })
      (fun t => t.lpPending && t.lpCount == 15 && t.log == [] && t.recvingSince == 7) = true ∧
    nextHas (exec .pcint { edgeWaiting .trainBuffer 7 with cfgLowpass := true, lpPending := true, lpCount := 10 })
      (fun t => !t.lpPending && t.lpCount == 0 && t.log == [.spikeCancelled 33842] && t.recvingSince == 7) = true := by decide

/-- V-D1 and 41 R176. -/
theorem test_rx_level :
    nextHas (exec (.rx true) State.reset) (fun t => t.rxLevel && t.pcPending) = true ∧
    nextHas (exec (.rx false) State.reset) (fun t => t = State.reset) = true := by decide

/-- 41 R176, with the edges masked: the latch is set all the same. -/
theorem test_ctl_level :
    nextHas (exec (.ctl false) { State.reset with edgeIrqEn := false }) (fun t => !t.ctlLevel && t.pcPending) = true ∧
    nextHas (exec (.ctl true) State.reset) (fun t => t = State.reset) = true := by decide

/-- V-T6: 399999 misses do not expire the watchdog. -/
theorem test_miss_below_timeout :
    nextHas (exec .miss { settled .nop false with wdtMissed := 399998 })
      (fun t => t.wdtMissed == 399999 && !t.faultWdt && t.tickCount == 33842) = true := by decide

/-- V-T6: the 400000th does, and the reset reloads `00 A6 03 01`. -/
theorem test_miss_expires :
    nextHas (exec .miss { settled .nop false with wdtMissed := 399999, nv := nvOf 0 0xA6 3 1, sigActive := true, edgeIrqEn := false })
      (fun t => t.faultWdt && t.log == [.watchdogReset] && t.cfgFilter == .trainBuffer && t.cfgLowpass && t.tickCount == 0 &&
        !t.sigActive && t.edgeIrqEn && t.wdtMissed == 0 && t.nv == nvOf 0 0xA6 3 1) = true := by decide

/-- E9: the load vectors that succeed. -/
theorem test_por_loads :
    nextHas (exec .por { State.reset with nv := nvOf 0 0xA6 3 1 }) (fun t => t.cfgFilter == .trainBuffer && t.cfgLowpass) = true ∧
    nextHas (exec .por { State.reset with nv := nvOf 0 0xA1 4 0 }) (fun t => t.cfgFilter == .passthrough && !t.cfgLowpass) = true ∧
    nextHas (exec .por { State.reset with nv := nvOf 0 0xA5 0 7, log := [] })
      (fun t => t.cfgFilter == .nop && t.cfgLowpass && t.log == []) = true ∧
    nextHas (exec .por { State.reset with nv := nvOf 0x55 0xA7 2 0 }) (fun t => t.cfgFilter == .legacyDebounce) = true := by decide

/-- E9: the load vectors that fall back to the default, with what they record. -/
theorem test_por_falls_back :
    nextHas (exec .por { State.reset with nv := nvOf 0 0xA0 5 0, log := [] })
      (fun t => t.cfgFilter == .nop && !t.cfgLowpass && t.log == [.configCorrupt 0xA0 5 0]) = true ∧
    nextHas (exec .por { State.reset with nv := nvOf 0xFF 0xFF 0xFF 0xFF, log := [], faultWdt := true })
      (fun t => t.cfgFilter == .nop && t.log == [.configCorrupt 0xFF 0xFF 0xFF] && t.faultWdt) = true := by decide

/-- E2: State.reset is the state after a launch with an empty store. -/
theorem test_reset_is_the_launch :
    nextHas (launch Params.p0 [] false true) (fun t => t = State.reset) = true := by decide

/-! ## Control sessions (95 section 2.6) -/

/-- 44 R311: the bit window's bounds. -/
theorem test_control_bits :
    nextHas (exec .pcint (released 19999 0 0)) (fun t => t.ctlState == .receiving && t.ctlCount == 1 && t.ctlValue == 1) = true ∧
    nextHas (exec .pcint (released 5000 0 0)) (fun t => t.ctlCount == 1 && t.ctlValue == 1 && t.log == []) = true ∧
    nextHas (exec .pcint (released 4999 0 0)) (fun t => t.ctlCount == 1 && t.ctlValue == 0 && t.log == []) = true ∧
    nextHas (exec .pcint (released 10000 1 1)) (fun t => t.ctlCount == 2 && t.ctlValue == 3) = true ∧
    nextHas (exec .pcint (released 10000 16 0xFFFF)) (fun t => t.log == [.cmdTooLong] && t.ctlState == .idle && t.ctlValue == 0) =
      true := by decide

/-- 44 R311: the finish window's bounds and the gap. -/
theorem test_control_finish :
    nextHas (exec .pcint (released 90000 0 0)) (fun t => t.log == [.cmdApplied .testSignal false] && t.ctlState == .idle) = true ∧
    nextHas (exec .pcint (released 210000 0 0)) (fun t => t.log == [.cmdApplied .testSignal false]) = true ∧
    ([20000, 50000, 89999, 210001].all fun n =>
      nextHas (exec .pcint (released n 0 0)) (fun t => t.log == [.cmdBadDuration n] && t.ctlState == .idle && t.nv == [])) = true := by
  decide

/-- 95 section 2.6: a press 300000 ticks after the last bit continues the session, one tick later it starts a new one. -/
theorem test_control_timeout :
    nextHas (exec .pcint { released 0 1 1 with
        ctlActive := false, ctlLevel := false, pinSnapshotCtl := true, ctlReleaseTick := 50000, tickCount := 350000 })
      (fun t => t.log == [] && t.ctlCount == 1 && t.ctlActive && t.ctlPressTick == 350000) = true ∧
    nextHas (exec .pcint { released 0 1 1 with
        ctlActive := false, ctlLevel := false, pinSnapshotCtl := true, ctlReleaseTick := 50000, tickCount := 350001 })
      (fun t => t.log == [.cmdIdleTimeout] && t.ctlCount == 0 && t.ctlState == .receiving && t.ctlActive) = true := by decide

/-! ## Commands (95 section 2.6, 44 R302) -/

theorem test_cAdv :
    nextHas (exec (.cAdv 0) (settled .nop false)) (fun t => t.cfgFilter == .testSignal && t.nv == nvOf 0 0xA4 1 0 &&
      t.log == [.cmdApplied .testSignal false] && t.sigCountdown == 50) = true ∧
    nextHas (exec (.cAdv 0) (settled .passthrough false)) (fun t => t.cfgFilter == .nop && t.nv == nvOf 0 0xA5 0 0) = true := by
  decide

theorem test_cAdvLp :
    nextHas (exec (.cAdvLp 0x30) (settled .nop false)) (fun t => t.nv == nvOf 0 0xA4 1 1 &&
      t.log == [.cmdApplied .testSignal true]) = true := by decide

theorem test_cSelTestsig :
    nextHas (exec (.cSelTestsig 0x11) (settled .nop false)) (fun t => t.log == [.cmdApplied .testSignal false]) = true := by decide

theorem test_cSelTestsigLp :
    nextHas (exec (.cSelTestsigLp 0x21) (settled .nop false)) (fun t => t.nv == nvOf 0 0xA4 1 0 &&
      t.log == [.cmdApplied .testSignal false]) = true := by decide

theorem test_cSelLegacy :
    nextHas (exec (.cSelLegacy 0x02) (settled .nop true)) (fun t => t.nv == nvOf 0 0xA7 2 1 && t.cfgLowpass) = true := by decide

theorem test_cSelLegacyLp :
    nextHas (exec (.cSelLegacyLp 0x22) (settled .nop true)) (fun t => t.nv == nvOf 0 0xA7 2 0 && !t.cfgLowpass) = true := by decide

/-- A command equal to the configuration writes nothing and does not expedite (44 R299, R303). -/
theorem test_cSelTrain :
    nextHas (exec (.cSelTrain 0x03) (settled .trainBuffer true)) (fun t => t.log == [.cmdNoChange 3] && t.sigCountdown == 6000000) =
      true := by decide

/-- `v = 0x33`; and 44 R304: where only the low-pass flag changes, the filter state is kept. -/
theorem test_cSelTrainLp :
    nextHas (exec (.cSelTrainLp 0x33) (settled .nop false)) (fun t => t.nv == nvOf 0 0xA6 3 1 &&
      t.log == [.cmdApplied .trainBuffer true]) = true ∧
    nextHas (exec (.cSelTrainLp 0x33) { ringState 5 2 0 with outRemaining := 9 }) (fun t =>
      t.log == [.cmdApplied .trainBuffer true] && t.rbWrite == 7 && t.rbTrainStart == 5 && t.outRemaining == 9) = true := by decide

/-- `v = 0x104`: `T = 4` and a reserved bit. -/
theorem test_cSelPass :
    nextHas (exec (.cSelPass 0x104) (settled .nop false)) (fun t => t.nv == nvOf 0 0xA1 4 0 &&
      t.log == [.cmdApplied .passthrough false]) = true := by decide

/-- V-F9: a command that changes the filter empties its state and keeps the output and its timer. -/
theorem test_cSelPassLp :
    nextHas (exec (.cSelPassLp 0x24) { ringState 22 0 0 with rbRead := 5, outRemaining := 7, outLevel := true, ldShift := 1, tsIdx := 2 })
      (fun t => t.rbWrite == 0 && t.rbRead == 0 && t.rbTrainStart == 0 && t.trainLen == 0 && t.ldShift == 0 && t.tsIdx == 0 &&
        t.outRemaining == 7 && t.outLevel) = true := by decide

/-- `v = 0x05` and the other invalid targets. -/
theorem test_bad_targets :
    nextHas (exec (.cBad5 0x05) (settled .nop false)) (fun t => t.log == [.cmdBadTarget 5] && t.nv == [] && t.cfgFilter == .nop) = true ∧
    nextHas (exec (.cBad6 0x36) (settled .nop false)) (fun t => t.log == [.cmdBadTarget 0x36] && !t.cfgLowpass) = true ∧
    nextHas (exec (.cBad7 0x07) (settled .nop false)) (fun t => t.log == [.cmdBadTarget 7] && t.sigCountdown == 6000000) = true ∧
    nextHas (exec (.cBad8To15 0x0F) (settled .nop false)) (fun t => t.log == [.cmdBadTarget 15] && t.nv == []) = true := by decide

/-- 44 R302: `nvsum(0..4)`. -/
theorem test_nvsum : (List.range 5).map (fun i => nvsum Params.p0 (BitVec.ofNat 8 i)) = [0xA5, 0xA4, 0xA7, 0xA6, 0xA1] := by decide

/-- A store too small for its layout is no legal store: the write faults. -/
theorem test_nvAddress_fault :
    (match exec (.cAdv 0) { settled .nop false with par := { Params.p0 with nvSize := 3 } } with
     | .fault .nvAddress => true
     | .next _ => false
     | .refused _ => false) = true := by decide

/-! ## Filters (95 section 2.5) -/

/-- V-F1: the valid band and the footer. -/
theorem test_valid_band :
    ([9, 10, 1600, 1601].map fun d => validDuration Params.p0 d) = [false, true, true, false] ∧
    isFooter Params.p0 510 = false ∧ isFooter Params.p0 511 = true := by decide

/-- V-F2. -/
theorem test_fNop : nextHas (exec (.fNop true) (settled .nop false)) (fun t => t = settled .nop false) = true := by decide

/-- 43 R244's example; the last entry wraps the index (43 R246). -/
theorem test_fTestsig :
    nextHas (exec (.fTestsig false) (settled .testSignal false)) (fun t => t.outLevel && t.outRemaining == 200 && t.tsIdx == 1) = true ∧
    nextHas (exec (.fTestsig false) { settled .testSignal false with tsIdx := 25 }) (fun t => t.outRemaining == 1000 && t.tsIdx == 0) =
      true := by decide

/-- V-F3, edges 9 and 10. -/
theorem test_fLegacy :
    nextHas (exec (.fLegacy true) { settled .legacyDebounce false with ldShift := 0x7F, recvingSince := 100 })
      (fun t => t.ldShift == 0xFF && t.outLevel) = true ∧
    nextHas (exec (.fLegacy true) { settled .legacyDebounce false with ldShift := 0xFF, recvingSince := 5, outLevel := true })
      (fun t => t.ldShift == 0xFE && t.outLevel) = true := by decide

/-- V-F7, and the footers of program P4: 17 pulses are too short, 22 are released. -/
theorem test_fTrain_edge :
    nextHas (exec (.fTrain true) (ringState 3 5 1601)) (fun t => t.rbWrite == 3 && t.trainLen == 0 && t.log == [.pulseOutOfRange 1601]) =
      true ∧
    nextHas (exec (.fTrain true) (ringState 1 62 30)) (fun t => t.rbWrite == 1 && t.log == [.ringFull 30]) = true ∧
    nextHas (exec (.fTrain true) (ringState 0 16 600)) (fun t => t.rbWrite == 0 && t.rbTrainStart == 0 && t.log == [.trainTooShort 17]) =
      true ∧
    nextHas (exec (.fTrain true) (ringState 0 21 600)) (fun t => t.rbTrainStart == 22 && t.rbWrite == 22 && t.trainLen == 0 &&
      t.log == [] && Memory.read t.rb 21 == 600) = true := by decide

/-- V-F6. -/
theorem test_fTrain_tick :
    nextHas (exec (.fTrain false) { ringState 2 0 0 with rb := [(0, 30)] })
      (fun t => t.outLevel && t.outRemaining == 30 && t.rbRead == 1) = true ∧
    nextHas (exec (.fTrain false) { ringState 0 0 0 with outLevel := true }) (fun t => !t.outLevel && t.outRemaining == 1000) = true := by
  decide

/-- 43 R260's example. -/
theorem test_fPass :
    nextHas (exec (.fPass false) { settled .passthrough false with rxLevel := true }) (fun t => t.outLevel) = true := by decide

/-! ## The signature (95 section 2.4) -/

/-- V-S1 and E8: the sub-pulses of a bit 1 and of a bit 0. -/
theorem test_sym1 :
    ((List.range 4).map fun k => nextHas (exec (.sym1 (BitVec.ofNat 2 k)) State.reset) (fun t => t.outRemaining == 90 && t.outLevel)) =
      [false, true, false, false] := by decide

theorem test_sym0 :
    ((List.range 4).map fun k => nextHas (exec (.sym0 (BitVec.ofNat 2 k)) State.reset) (fun t => t.outRemaining == 90 && t.outLevel)) =
      [false, false, false, true] := by decide

/-- V-S1: the first pulses of the frame for `sig_version = 300`, and the footer. -/
theorem test_frame_durations :
    (List.range 19).map (frameDuration State.reset) =
      [30, 30, 600, 30, 30, 30, 90, 30, 30, 30, 90, 30, 90, 30, 30, 30, 90, 30, 30] ∧
    [211, 212, 213].map (frameDuration State.reset) = [30, 30, 1200] := by decide

/-- E1: `sig_version` and the §3 checksum of every configuration. -/
theorem test_versions_and_checksums :
    ([FilterMode.nop, .testSignal, .legacyDebounce, .trainBuffer, .passthrough].map fun f =>
      ((setConfig f false State.reset).sigVersion, (setConfig f false State.reset).sigChecksum)) =
      [(300, 6), (301, 7), (302, 8), (303, 9), (304, 10)] ∧
    ([FilterMode.nop, .testSignal, .legacyDebounce, .trainBuffer, .passthrough].map fun f =>
      ((setConfig f true State.reset).sigVersion, (setConfig f true State.reset).sigChecksum)) =
      [(310, 0), (311, 1), (312, 2), (313, 3), (314, 4)] := by decide

/-! ## Witnesses: for every obligation with hypotheses, states and operands that meet them, each clause at a boundary -/

/-- A state in the middle of a signature, two entries in the ring, an event word placed. -/
def midSignature : State :=
  { setConfig .trainBuffer true State.reset with
    tickCount := 500, sigCountdown := -500, outRemaining := 0, sigActive := true, edgeIrqEn := false, sigRep := 2, sigPos := 213
    rb := [(62, 600), (63, 10)], rbRead := 62, rbTrainStart := 63, rbWrite := 0, trainLen := 1, trace := [0x10] }

theorem witness_IllegalEventWordsAreRefused :
    ∃ s : State, s.trace = 0x11 :: [0x10] ∧ IllegalWord 0x11 ∧ IllegalWord 0x70 ∧ IllegalWord 0x0F ∧ IllegalWord 0x32 :=
  ⟨{ State.reset with trace := [0x11, 0x10] }, rfl, by unfold IllegalWord; decide⟩

theorem witness_EveryCommandWordSpellsOneCommand :
    Instr.slot (.cBad8To15 0xFFFF) = .command ∧ Instr.wellFormed (.cBad8To15 0xFFFF) = true ∧ encode (.cBad8To15 0xFFFF) = 0xFFFF := by
  decide

theorem witness_DecodingInvertsEncoding :
    Instr.wellFormed (.cSelPassLp 0xFFF4) = true ∧ Instr.wellFormed (.sym0 3) = true ∧ Instr.wellFormed (.rx true) = true ∧
      Instr.wellFormed (.fPass true) = true := by decide

theorem witness_DecodingIsUnambiguous :
    decodeAt .event 0x41 = .ok (.ctl true) ∧ decodeAt .command 0xFFFF = .ok (.cBad8To15 0xFFFF) ∧
      decodeAt (.filter true) 4 = .ok (.fPass true) ∧ decodeAt (.symbol 3) 8 = .ok (.sym0 3) := by decide

theorem witness_CommandBitsArriveMostSignificantFirst :
    (List.replicate 16 (5000#32)).length ≤ 16 ∧ State.reset.ctlCount = 0 ∧ State.reset.ctlValue = 0 := by decide

theorem witness_StepRunsTheDecodedEvent :
    (∃ s : State, s.trace = 0x31 :: [] ∧ decodeEvent 0x31 = .ok (.rx true)) ∧ ∃ s : State, s.trace = [] :=
  ⟨⟨{ State.reset with trace := [0x31] }, by decide⟩, ⟨State.reset, rfl⟩⟩

theorem witness_EveryInstructionCompletes : 4 ≤ State.reset.par.nvSize := by decide

theorem witness_TickWhilePulseRuns :
    (∃ s : State, 2 ≤ s.outRemaining.toNat ∧ s.lpPending = false) ∧
    (∃ s : State, 2 ≤ s.outRemaining.toNat ∧ s.lpPending = true ∧ s.lpCount ≠ 1) ∧
    ∃ s : State, 2 ≤ s.outRemaining.toNat ∧ s.lpPending = true ∧ s.lpCount = 1 :=
  ⟨⟨{ State.reset with outRemaining := 2 }, by decide⟩,
   ⟨{ State.reset with outRemaining := 2, lpPending := true, lpCount := 2 }, by decide⟩,
   ⟨{ State.reset with outRemaining := 65535, lpPending := true, lpCount := 1 }, by decide⟩⟩

theorem witness_TickStartsDueSignature :
    ∃ s : State, s.outRemaining.toNat ≤ 1 ∧ s.sigActive = false ∧ (counted s).sigCountdown.toInt < 0 :=
  ⟨{ State.reset with outRemaining := 1 }, by decide⟩

theorem witness_TickEmitsSignaturePulse :
    (∃ s : State, s.outRemaining.toNat ≤ 1 ∧ s.sigActive = true ∧ s.sigRep ≠ s.par.sigRepeats ∧ s.sigPos = 213) ∧
    ∃ s : State, s.outRemaining.toNat ≤ 1 ∧ s.sigActive = true ∧ s.sigRep ≠ s.par.sigRepeats ∧ s.sigPos = 0 :=
  ⟨⟨midSignature, by decide⟩, ⟨{ midSignature with sigPos := 0, outRemaining := 1 }, by decide⟩⟩

theorem witness_TickEndsSignature :
    ∃ s : State, s.outRemaining.toNat ≤ 1 ∧ s.sigActive = true ∧ s.sigRep = s.par.sigRepeats :=
  ⟨{ midSignature with outRemaining := 1, sigRep := 3, sigPos := 0 }, by decide⟩

theorem witness_TickRunsFilterThenDelayUnit :
    (∃ s : State, s.outRemaining.toNat ≤ 1 ∧ s.sigActive = false ∧ 0 ≤ (counted s).sigCountdown.toInt ∧ s.lpPending = false) ∧
    (∃ s : State, s.outRemaining.toNat ≤ 1 ∧ s.sigActive = false ∧ 0 ≤ (counted s).sigCountdown.toInt ∧ s.lpPending = true ∧
      s.lpCount ≠ 1) ∧
    ∃ s : State, s.outRemaining.toNat ≤ 1 ∧ s.sigActive = false ∧ 0 ≤ (counted s).sigCountdown.toInt ∧ s.lpPending = true ∧
      s.lpCount = 1 :=
  ⟨⟨{ State.reset with sigCountdown := 1 }, by decide⟩,
   ⟨{ State.reset with sigCountdown := 1, lpPending := true, lpCount := 2 }, by decide⟩,
   ⟨{ State.reset with sigCountdown := 1, outRemaining := 1, lpPending := true, lpCount := 1 }, by decide⟩⟩

theorem witness_TickFrame : ∃ t, exec .tick midSignature = .next t := ⟨_, rfl⟩

theorem witness_OutputPulseLastsItsDuration :
    ∃ s : State, 199 < s.outRemaining.toNat ∧ s.lpPending = false := ⟨{ State.reset with outRemaining := 200 }, by decide⟩

theorem witness_MissCountsUntilTheWatchdogResets :
    (∃ s : State, s.wdtMissed + 1 < s.par.wdtTimeout) ∧ ∃ s : State, s.par.wdtTimeout ≤ s.wdtMissed + 1 :=
  ⟨⟨{ State.reset with wdtMissed := 399998 }, by decide⟩, ⟨{ State.reset with wdtMissed := 399999 }, by decide⟩⟩

theorem witness_WatchdogNeverExpiresEarly :
    ∃ s : State, 4 ≤ s.par.nvSize ∧ (∀ i ∈ [Instr.miss, .rx true, .miss, .tick, .miss], i.slot = .event) ∧
      missesStayBelow s.par.wdtTimeout.toNat s.wdtMissed.toNat [.miss, .rx true, .miss, .tick, .miss] = true :=
  ⟨{ State.reset with wdtMissed := 399997 }, by decide⟩

theorem witness_PowerOnResets :
    (∃ s : State, 4 ≤ s.par.nvSize ∧ bootable s = true) ∧ ∃ s : State, 4 ≤ s.par.nvSize ∧ bootable s = false :=
  ⟨⟨{ State.reset with nv := nvOf 0 0xA1 4 7 }, by decide⟩, ⟨{ State.reset with nv := nvOf 0 0xA0 5 0 }, by decide⟩⟩

theorem witness_PcintWithoutAnEdgeDoesNothingElse :
    State.reset.pcPending = false ∧ midSignature.edgeIrqEn = false ∧
    ∃ s : State, s.pcPending = true ∧ s.edgeIrqEn = true ∧ s.rxLevel = s.pinSnapshotRx ∧ s.ctlLevel = s.pinSnapshotCtl :=
  ⟨rfl, rfl, { State.reset with pcPending := true }, by decide⟩

theorem witness_PcintDispatchesReceiverEdge :
    (∃ s : State, ReceiverEdge s ∧ s.cfgLowpass = false) ∧
    (∃ s : State, ReceiverEdge s ∧ s.cfgLowpass = true ∧ s.lpPending = false) ∧
    ∃ s : State, ReceiverEdge s ∧ s.cfgLowpass = true ∧ s.lpPending = true := by
  refine ⟨⟨edgeWaiting .trainBuffer 30, ?_⟩, ⟨{ edgeWaiting .trainBuffer 30 with cfgLowpass := true }, ?_⟩,
    ⟨{ edgeWaiting .trainBuffer 30 with cfgLowpass := true, lpPending := true, lpCount := 1 }, ?_⟩⟩ <;>
    (unfold ReceiverEdge; decide)

theorem witness_PcintDispatchesControlPress :
    (∃ s : State, ControlEdge s ∧ s.ctlLevel = s.par.ctlActiveLevel ∧ s.ctlState = .receiving ∧
      s.par.ctlIdleTimeout.toNat < ticksSince s s.ctlReleaseTick) ∧
    (∃ s : State, ControlEdge s ∧ s.ctlLevel = s.par.ctlActiveLevel ∧ s.ctlState = .receiving ∧
      ticksSince s s.ctlReleaseTick ≤ s.par.ctlIdleTimeout.toNat) ∧
    ∃ s : State, ControlEdge s ∧ s.ctlLevel = s.par.ctlActiveLevel ∧ s.ctlState = .idle := by
  refine ⟨⟨{ released 0 1 1 with ctlActive := false, ctlLevel := false, pinSnapshotCtl := true, ctlReleaseTick := 50000, tickCount := 350001 }, ?_⟩,
    ⟨{ released 0 1 1 with ctlActive := false, ctlLevel := false, pinSnapshotCtl := true, ctlReleaseTick := 50000, tickCount := 350000 }, ?_⟩,
    ⟨{ released 0 0 0 with ctlActive := false, ctlLevel := false, pinSnapshotCtl := true, ctlState := .idle }, ?_⟩⟩ <;>
    (unfold ControlEdge; decide)

theorem witness_ShortReleaseShiftsOneBit :
    (∃ s : State, TimedRelease s ∧ ticksSince s s.ctlPressTick < s.par.ctlBitMax.toNat ∧ s.ctlCount ≠ 16) ∧
    ∃ s : State, TimedRelease s ∧ ticksSince s s.ctlPressTick < s.par.ctlBitMax.toNat ∧ s.ctlCount = 16 := by
  refine ⟨⟨released 19999 15 0x7FFF, ?_⟩, ⟨released 0 16 0xFFFF, ?_⟩⟩ <;> (unfold TimedRelease ControlEdge; decide)

theorem witness_FinishReleaseRunsTheCommand :
    ([released 90000 0 0, released 210000 16 0xFFFF].all fun s => s.ctlActive) = true ∧
    (∃ s : State, TimedRelease s ∧ s.par.ctlBitMax.toNat ≤ ticksSince s s.ctlPressTick ∧
      s.par.ctlFinishMin.toNat ≤ ticksSince s s.ctlPressTick ∧ ticksSince s s.ctlPressTick ≤ s.par.ctlFinishMax.toNat) ∧
    ∃ s : State, TimedRelease s ∧ s.par.ctlBitMax.toNat ≤ ticksSince s s.ctlPressTick ∧
      s.par.ctlFinishMin.toNat ≤ ticksSince s s.ctlPressTick ∧ ticksSince s s.ctlPressTick = s.par.ctlFinishMax.toNat := by
  refine ⟨by decide, ⟨released 90000 0 0, ?_⟩, ⟨released 210000 16 0xFFFF, ?_⟩⟩ <;> (unfold TimedRelease ControlEdge; decide)

theorem witness_BadDurationCancelsTheSession :
    (∃ s : State, TimedRelease s ∧ s.par.ctlBitMax.toNat = ticksSince s s.ctlPressTick ∧
      ticksSince s s.ctlPressTick < s.par.ctlFinishMin.toNat) ∧
    ∃ s : State, TimedRelease s ∧ s.par.ctlBitMax.toNat ≤ ticksSince s s.ctlPressTick ∧
      s.par.ctlFinishMax.toNat < ticksSince s s.ctlPressTick := by
  refine ⟨⟨released 20000 0 0, ?_⟩, ⟨released 210001 0 0, ?_⟩⟩ <;> (unfold TimedRelease ControlEdge; decide)

theorem witness_UntimedReleaseIsIgnored :
    ∃ s : State, ControlEdge s ∧ s.ctlLevel ≠ s.par.ctlActiveLevel ∧ s.ctlActive = false := by
  refine ⟨{ released 100 0 0 with ctlActive := false, ctlState := .idle }, ?_⟩
  unfold ControlEdge; decide

theorem witness_ReceiverEdgeBeforeControlEdge :
    ∃ s : State, s.pcPending = true ∧ s.edgeIrqEn = true ∧ s.rxLevel ≠ s.pinSnapshotRx ∧ s.ctlLevel ≠ s.pinSnapshotCtl :=
  ⟨{ released 90000 0 0 with rxLevel := true }, by decide⟩

theorem witness_PcintFrame :
    ∃ s t : State, pcintAdmitted s = true ∧ Memory.wf s.nv = true ∧ exec .pcint s = .next t :=
  ⟨released 90000 0 0, _, by decide, by decide, rfl⟩

theorem witness_DebounceWindowIsExact :
    ∃ s : State, s.cfgLowpass = true ∧ s.lpPending = false ∧ s.lpCount = 0 ∧ 1 ≤ s.par.lpDelay.toNat ∧ 14 < s.par.lpDelay.toNat ∧
      s.par.lpDelay.toNat ≤ 15 := ⟨settled .trainBuffer true, by decide⟩

theorem witness_SelectCommandsApply :
    (∃ s : State, 4 ≤ s.par.nvSize ∧ commandAsks (.cAdv 0) s = some (.nop, false) ∧
      commandAsks (.cAdvLp 0x30) s = some (.nop, true) ∧ commandAsks (.cSelTestsig 0x31) s = some (.testSignal, false) ∧
      commandAsks (.cSelTestsigLp 0x31) s = some (.testSignal, true) ∧ commandAsks (.cSelLegacy 2) s = some (.legacyDebounce, false)) ∧
    ∃ s : State, 4 ≤ s.par.nvSize ∧ commandAsks (.cSelLegacyLp 0x22) s = some (.legacyDebounce, false) ∧
      commandAsks (.cSelTrain 3) s = some (.trainBuffer, true) ∧ commandAsks (.cSelTrainLp 0x33) s = some (.trainBuffer, true) ∧
      commandAsks (.cSelPass 4) s = some (.passthrough, true) ∧ commandAsks (.cSelPassLp 0x24) s = some (.passthrough, false) :=
  ⟨⟨settled .passthrough false, by decide⟩, ⟨settled .trainBuffer true, by decide⟩⟩

theorem witness_CommandWordActsByItsFields : 4 ≤ (settled .passthrough false).par.nvSize := by decide

theorem witness_CommandsWriteOnlyTheConfigurationBytes :
    ∃ s t : State, Instr.slot (.cSelTrainLp 0x33) = .command ∧ Memory.wf s.nv = true ∧ 4 ≤ s.par.nvSize ∧
      exec (.cSelTrainLp 0x33) s = .next t :=
  ⟨{ settled .nop false with nv := nvOf 0x55 0xA5 0 0 }, _, rfl, by decide, by decide, rfl⟩

theorem witness_AbsoluteCommandsAreIdempotent :
    1 ≤ (0x31#16).toNat % 16 ∧ (0x04#16).toNat % 16 ≤ 4 ∧ (∃ t, exec (decodeCommand 0x31) (settled .nop false) = .next t) ∧
      ∃ t, exec (decodeCommand 0x04) (settled .passthrough true) = .next t :=
  ⟨by decide, by decide, ⟨_, rfl⟩, ⟨_, rfl⟩⟩

theorem witness_DerivedFieldsFollowTheConfiguration : ∃ s : State, s.par.versionBase.toNat ≤ 655 :=
  ⟨{ State.reset with par := { Params.p0 with versionBase := 655 } }, by decide⟩

/-- A state for each index. -/
theorem witness_ActiveFilterIsTheIndexedRow :
    (settled .nop false).cfgFilter.index = 0 ∧ (settled .testSignal false).cfgFilter.index = 1 ∧
    (settled .legacyDebounce false).cfgFilter.index = 2 ∧ (settled .trainBuffer false).cfgFilter.index = 3 ∧
    (settled .passthrough false).cfgFilter.index = 4 := by decide

theorem witness_TestSignalEmitsTheNextEntry :
    ∃ s : State, s.par.testSeq[s.tsIdx.toNat]? = some 1000 ∧ s.tsIdx = 25 := ⟨{ settled .testSignal false with tsIdx := 25 }, by decide⟩

theorem witness_LegacyFilterShiftsValidity :
    (∃ s : State, Valid s s.recvingSince ∧ s.recvingSince = 10) ∧ (∃ s : State, Valid s s.recvingSince ∧ s.recvingSince = 1600) ∧
    (∃ s : State, ¬ Valid s s.recvingSince ∧ s.recvingSince = 9) ∧ ∃ s : State, ¬ Valid s s.recvingSince ∧ s.recvingSince = 1601 := by
  refine ⟨⟨edgeWaiting .legacyDebounce 10, ?_⟩, ⟨edgeWaiting .legacyDebounce 1600, ?_⟩, ⟨edgeWaiting .legacyDebounce 9, ?_⟩,
    ⟨edgeWaiting .legacyDebounce 1601, ?_⟩⟩ <;> (unfold Valid; decide)

/-- An invalid edge; and nine valid ones of different durations after one, from the even register 0xFE it leaves. -/
theorem witness_LegacyForwardsFromTheEighthValidEdge :
    (∃ s : State, ¬ Valid s 9) ∧
    ∃ s : State, s.ldShift.toNat % 2 = 0 ∧ s.ldShift = 0xFE ∧
      ∀ e ∈ ([(10, 1), (11, 2), (12, 3), (510, 4), (511, 5), (90, 6), (1599, 7), (1600, 8), (30, 9)] : List (Duration × Word32)),
        Valid s e.1 := by
  refine ⟨⟨settled .legacyDebounce false, by unfold Valid; decide⟩,
    { settled .legacyDebounce false with ldShift := 0xFE }, by decide, rfl, ?_⟩
  simp [Valid, settled, setConfig, State.reset, Params.p0]

theorem witness_TrainFilterBuffersEdges :
    (¬ Valid (ringState 0 5 9) 9) ∧
    (Valid (ringState 0 63 10) 10 ∧ ((ringState 0 63 10).rbWrite + 1) % (ringState 0 63 10).par.rbCap = (ringState 0 63 10).rbRead) ∧
    (Valid (ringState 0 62 510) 510 ∧ ((ringState 0 62 510).rbWrite + 1) % (ringState 0 62 510).par.rbCap ≠ (ringState 0 62 510).rbRead ∧
      (510#16).toNat ≤ (ringState 0 62 510).par.footerThresh.toNat) ∧
    (Valid (ringState 0 21 511) 511 ∧ ((ringState 0 21 511).rbWrite + 1) % (ringState 0 21 511).par.rbCap ≠ (ringState 0 21 511).rbRead ∧
      (ringState 0 21 511).par.footerThresh.toNat < (511#16).toNat ∧
      (ringState 0 21 511).par.minTrainLen ≤ (ringState 0 21 511).trainLen + 1) ∧
    (Valid (ringState 0 20 1600) 1600 ∧
      ((ringState 0 20 1600).rbWrite + 1) % (ringState 0 20 1600).par.rbCap ≠ (ringState 0 20 1600).rbRead ∧
      (ringState 0 20 1600).par.footerThresh.toNat < (1600#16).toNat ∧
      (ringState 0 20 1600).trainLen + 1 < (ringState 0 20 1600).par.minTrainLen) := by
  unfold Valid; decide

theorem witness_TrainFilterWritesOneRingEntry :
    Memory.wf (ringState 0 5 30).rb = true ∧ Valid (ringState 0 5 30) 30 ∧ ¬ Valid (ringState 0 5 9) 9 := by
  unfold Valid; decide

theorem witness_TrainFilterReplaysOrIdles :
    (ringState 1 0 0).rbRead ≠ (ringState 1 0 0).rbTrainStart ∧ (ringState 0 5 0).rbRead = (ringState 0 5 0).rbTrainStart := by decide

theorem witness_FiltersWriteOnlyTheirFields :
    ∀ pc, Instr.slot (.fNop pc) = .filter pc ∧ Instr.slot (.fTestsig pc) = .filter pc ∧ Instr.slot (.fLegacy pc) = .filter pc ∧
      Instr.slot (.fTrain pc) = .filter pc ∧ Instr.slot (.fPass pc) = .filter pc := by decide

theorem witness_FrameKeepsThePolarity : State.reset.sigPos = 0 := rfl

theorem witness_FrameReadsBackAsTheConfiguration :
    ∃ s : State, s.par.sigLong ≠ s.par.sigShort ∧ s.par.versionBase.toNat ≤ 655 ∧
      s.par.sigRepeats ≠ 0 ∧ s.sigVersion.toNat = versionNat s.par s.cfgFilter s.cfgLowpass ∧
      s.sigChecksum.toNat = checksumNat s.par s.sigVersion.toNat ∧ s.cfgFilter = .trainBuffer ∧ s.cfgLowpass = true :=
  ⟨settled .trainBuffer true, by decide⟩

theorem witness_SignatureLastsItsLength :
    ∃ s : State, s.sigActive = true ∧ s.sigRep = 0 ∧ s.sigPos = 0 ∧ s.outRemaining = 0 ∧ s.lpPending = false :=
  ⟨{ midSignature with sigRep := 0, sigPos := 0 }, by decide⟩

theorem witness_LaunchSatisfiesTheInvariants : Params.p0.Legal ∧ Memory.wf (nvOf 0xFF 0xFF 0xFF 0xFF) = true := by decide

/-- The invariants hold in the middle of a signature, with two entries in a ring that has wrapped. -/
theorem witness_Inv : Inv midSignature where
  legal := test_legal_p0
  i1 := by decide
  maskedOnlyInSignature := by decide
  i2idle := by decide
  i2pending := by decide
  i3 := by decide
  sigRange := by decide
  ringRange := by decide
  i4 := by decide
  i5 := by decide
  i6 := by decide
  activeInSession := by decide
  i7 := by decide
  i9 := by decide
  sigFields := by decide
  testRange := by decide
  memories := by decide

theorem witness_EveryStepKeepsTheInvariants : Inv midSignature ∧ ∃ t, step midSignature = .next t := ⟨witness_Inv, _, rfl⟩

theorem witness_EveryStepKeepsQueuedPulsesValid : Inv midSignature ∧ QueuedPulsesValid midSignature ∧ ∃ t, step midSignature = .next t := by
  refine ⟨witness_Inv, ?_, _, rfl⟩
  have h : ∀ n, n < 2 → validDuration midSignature.par
      (Memory.read midSignature.rb ((midSignature.rbRead + n) % midSignature.par.rbCap)) = true := by decide
  have held : releasedEntries midSignature + trainEntries midSignature = 2 := by decide
  intro n hn
  exact h n (held ▸ hn)

theorem witness_ConfigurationIsFixedDuringSignature :
    Inv midSignature ∧ midSignature.sigActive = true ∧ (∃ t, exec .tick midSignature = .next t) ∧
      midSignature.wdtMissed + 1 < midSignature.par.wdtTimeout ∧ ∃ t, exec .miss midSignature = .next t :=
  ⟨witness_Inv, rfl, ⟨_, rfl⟩, by decide, ⟨_, rfl⟩⟩

/-- Each way the mask changes: a start, an end, a power-on reset, a watchdog reset. -/
theorem witness_OnlySignaturesMaskEdges :
    nextHas (exec .tick State.reset) (fun t => State.reset.edgeIrqEn && !t.edgeIrqEn) = true ∧
    nextHas (exec .tick { midSignature with sigRep := 3, sigPos := 0 }) (fun t => t.edgeIrqEn) = true ∧
    nextHas (exec .por midSignature) (fun t => t.edgeIrqEn) = true ∧
    nextHas (exec .miss { midSignature with wdtMissed := 399999 }) (fun t => t.edgeIrqEn) = true := by decide

theorem witness_NoStepReadsTheRecords :
    ∃ s u : State, s ≠ u ∧ eraseRecords s = eraseRecords u := ⟨State.reset, { State.reset with log := [], faultWdt := true }, by decide⟩

theorem witness_MarksAreSticky :
    ∃ s t : State, step s = .next t ∧ s.faultWdt = true ∧ s.refused = true :=
  ⟨{ State.reset with faultWdt := true, refused := true, trace := [0x60] }, _, rfl, rfl, rfl⟩

end Sys2Proof.Tests
end

/-!
PROOFS of the family 10_state.md: the invariants of the engine (10 R47) hold at reset and every step keeps them. Each operation of the
model has one lemma `inv_<operation>`, with the guard it runs under as a hypothesis; the steps' lemmas follow the model's case lemmas
of Laws/Ops.lean. A clause that an operation does not touch is taken over by `{ h with … }`, since the update keeps its fields.
-/

namespace Sys2Proof.Machine

variable {s t : State}

/-! ## The legal ranges the invariants need (00 R10) -/

theorem legal_lpDelay {p : Params} (h : p.Legal) : 1#8 ≤ p.lpDelay := h.1

theorem legal_rbCap {p : Params} (h : p.Legal) : 2 ≤ p.rbCap ∧ p.rbCap ≤ 65536 := by
  obtain ⟨_, _, _, _, _, ⟨_, hlow, hhigh⟩, _⟩ := h
  exact ⟨hlow, hhigh⟩

theorem legal_rbCap_pos {p : Params} (h : p.Legal) : 0 < p.rbCap := Nat.lt_of_lt_of_le Nat.two_pos (legal_rbCap h).1

theorem legal_testSeq_length {p : Params} (h : p.Legal) : 0 < p.testSeq.length ∧ p.testSeq.length ≤ 256 := by
  obtain ⟨_, _, _, _, _, _, _, _, _, _, _, _, _, _, _, _, _, _, _, _, ⟨hne, hlen, _⟩, _⟩ := h
  exact ⟨List.length_pos_iff.mpr hne, hlen⟩

/-! ## The ring's arithmetic (20 R81, R82) -/

@[simp] theorem ringDistance_self (cap a : Nat) : ringDistance cap a a = 0 := by simp [ringDistance]

/-- The distance without its modulus: one lap is added exactly when `b` lies before `a`. -/
theorem ringDistance_eq {cap a b : Nat} (ha : a < cap) (hb : b < cap) :
    ringDistance cap a b = if a ≤ b then b - a else b + cap - a := by
  unfold ringDistance
  split
  · rw [show b + cap - a = b - a + cap by omega, Nat.add_mod_right, Nat.mod_eq_of_lt (by omega)]
  · exact Nat.mod_eq_of_lt (by omega)

/-- The next index without its modulus. -/
theorem nextIndex_eq (p : Params) {i : Nat} (hi : i < p.rbCap) :
    nextIndex p i = if i + 1 = p.rbCap then 0 else i + 1 := by
  unfold nextIndex
  split
  next h => rw [h, Nat.mod_self]
  next h => exact Nat.mod_eq_of_lt (by omega)

theorem nextIndex_lt (p : Params) {i : Nat} (hi : i < p.rbCap) : nextIndex p i < p.rbCap := by
  rw [nextIndex_eq p hi]
  split <;> omega

/-- An arc can grow by one entry exactly when the index after its far end is not its near end. -/
theorem nextIndex_ne_iff (p : Params) {a b : Nat} (ha : a < p.rbCap) (hb : b < p.rbCap) :
    nextIndex p b ≠ a ↔ ringDistance p.rbCap a b + 1 < p.rbCap := by
  rw [nextIndex_eq p hb, ringDistance_eq ha hb]
  split_ifs <;> omega

/-- Moving the far end of an arc that can grow: one entry more. -/
theorem ringDistance_nextIndex_right (p : Params) {a b : Nat} (ha : a < p.rbCap) (hb : b < p.rbCap)
    (hroom : ringDistance p.rbCap a b + 1 < p.rbCap) :
    ringDistance p.rbCap a (nextIndex p b) = ringDistance p.rbCap a b + 1 := by
  rw [ringDistance_eq ha (nextIndex_lt p hb), nextIndex_eq p hb]
  rw [ringDistance_eq ha hb] at hroom ⊢
  split_ifs at hroom ⊢ <;> omega

/-- Moving the near end on by one index that is not the far end: one entry fewer. -/
theorem ringDistance_nextIndex_left (p : Params) {a b : Nat} (ha : a < p.rbCap) (hb : b < p.rbCap) (hne : a ≠ b) :
    ringDistance p.rbCap (nextIndex p a) b + 1 = ringDistance p.rbCap a b := by
  rw [ringDistance_eq (nextIndex_lt p ha) hb, ringDistance_eq ha hb, nextIndex_eq p ha]
  split_ifs <;> omega

/-- Two arcs that together are shorter than the ring add up. -/
theorem ringDistance_add {cap a b c : Nat} (ha : a < cap) (hb : b < cap) (hc : c < cap)
    (hsum : ringDistance cap a b + ringDistance cap b c ≤ cap - 1) :
    ringDistance cap a c = ringDistance cap a b + ringDistance cap b c := by
  rw [ringDistance_eq ha hb, ringDistance_eq hb hc] at hsum ⊢
  rw [ringDistance_eq ha hc]
  split_ifs at hsum ⊢ <;> omega

/-! ## Records, pins, counters and sessions -/

theorem inv_raiseOutcome (o : EngineOutcome) (h : Inv s) : Inv (raiseOutcome o s) := { h with }

theorem inv_markRefused (h : Inv s) : Inv (markRefused s) := { h with }

theorem inv_setOut (level : Bool) (h : Inv s) : Inv (setOut level s) := { h with }

theorem inv_toggleOut (h : Inv s) : Inv (toggleOut s) := inv_setOut _ h

theorem inv_startPulse (d : Duration) (h : Inv s) : Inv (startPulse d s) := { h with }

theorem inv_takeSnapshot (h : Inv s) : Inv (takeSnapshot s) := { h with }

theorem inv_tickPrologue (h : Inv s) : Inv (tickPrologue s) := { h with }

theorem inv_countMiss (h : Inv s) : Inv (countMiss s) := { h with }

theorem inv_fetchWord (h : Inv s) : Inv (fetchWord s).2 := by
  obtain ⟨w, rest, -, heq⟩ | ⟨-, heq⟩ := fetchWord_cases s
  · rw [heq]; exact { h with }
  · rw [heq]; exact { h with }

/-- The end of an active period of the control pin (44 R293). -/
theorem inv_ctlActive_false (h : Inv s) : Inv { s with ctlActive := false } := { h with activeInSession := by simp }

theorem inv_sessionReset (h : Inv s) : Inv (sessionReset s) :=
  { h with
    i6 := by simp
    activeInSession := by simp
    i7 := by simp }

/-! ## Filters (43) -/

theorem inv_resetFilterState (h : Inv s) : Inv (resetFilterState s) := by
  have hcap := legal_rbCap_pos h.legal
  obtain ⟨hlen, -⟩ := legal_testSeq_length h.legal
  exact
    { h with
      ringRange := ⟨hcap, hcap, hcap⟩
      i4 := by simp [trainEntries]
      i5 := by simp [trainEntries, releasedEntries]
      testRange := by simpa using hlen }

theorem nextTestIndex_lt {p : Params} (hp : p.Legal) (i : BitVec 8) : (nextTestIndex p i).toNat < p.testSeq.length := by
  obtain ⟨hpos, hlen⟩ := legal_testSeq_length hp
  have hmod := Nat.mod_lt (i.toNat + 1) hpos
  rwa [nextTestIndex, BitVec.toNat_ofNat, Nat.mod_eq_of_lt (by omega)]

theorem inv_testsigApply (pc : Bool) (h : Inv s) : Inv (testsigApply pc s) := by
  cases pc
  · exact { inv_startPulse (testPulse s.par s.tsIdx) (inv_toggleOut h) with testRange := nextTestIndex_lt h.legal s.tsIdx }
  · exact h

theorem inv_legacyEdge (h : Inv s) : Inv (legacyEdge s) := by
  have hshift : Inv (shiftLegacy s) := { h with }
  unfold legacyEdge
  split
  · exact inv_toggleOut hshift
  · exact hshift

theorem inv_legacyApply (pc : Bool) (h : Inv s) : Inv (legacyApply pc s) := by
  cases pc
  · exact h
  · exact inv_legacyEdge h

/-! ### The Train-Buffer filter (43 R250 to R258) -/

/-- The entries held are those from the read index up to the write index: no index is lapped (I5). -/
theorem ringDistance_rbRead_rbWrite (h : Inv s) :
    ringDistance s.par.rbCap s.rbRead s.rbWrite = releasedEntries s + trainEntries s := by
  obtain ⟨hwrite, hread, hstart⟩ := h.ringRange
  exact ringDistance_add hread hstart hwrite h.i5

theorem trainEntries_discardTrain (s : State) : trainEntries (discardTrain s) = 0 := ringDistance_self _ _

theorem inv_discardTrain (h : Inv s) : Inv (discardTrain s) := by
  obtain ⟨-, hread, hstart⟩ := h.ringRange
  exact
    { h with
      ringRange := ⟨hstart, hread, hstart⟩
      i4 := by simp [trainEntries_discardTrain]
      i5 := by
        have hheld := h.i5
        rw [show releasedEntries (discardTrain s) = releasedEntries s from rfl, trainEntries_discardTrain, discardTrain_par]
        omega }

/-- A ring that is not full has room for one more entry beside those it holds (43 R258). -/
theorem room_of_not_ringFull (h : Inv s) (hfull : ringFull s = false) :
    releasedEntries s + trainEntries s + 1 < s.par.rbCap := by
  obtain ⟨hwrite, hread, -⟩ := h.ringRange
  have hfree : nextIndex s.par s.rbWrite ≠ s.rbRead := by simpa [ringFull] using hfull
  rw [← ringDistance_rbRead_rbWrite h]
  exact (nextIndex_ne_iff s.par hread hwrite).mp hfree

theorem trainEntries_extendTrain (d : Duration) (h : Inv s) (hfull : ringFull s = false) :
    trainEntries (extendTrain d s) = trainEntries s + 1 := by
  obtain ⟨hwrite, -, hstart⟩ := h.ringRange
  have hroom := room_of_not_ringFull h hfull
  exact ringDistance_nextIndex_right s.par hstart hwrite (show trainEntries s + 1 < s.par.rbCap by omega)

theorem inv_extendTrain (d : Duration) (h : Inv s) (hfull : ringFull s = false) : Inv (extendTrain d s) := by
  obtain ⟨hwrite, hread, hstart⟩ := h.ringRange
  obtain ⟨-, hcap⟩ := legal_rbCap h.legal
  obtain ⟨hnv, hrb⟩ := h.memories
  have hroom := room_of_not_ringFull h hfull
  have htrain := trainEntries_extendTrain d h hfull
  have hlen := h.i4
  exact
    { h with
      ringRange := ⟨nextIndex_lt s.par hwrite, hread, hstart⟩
      i4 := by
        rw [htrain, ← hlen]
        exact BitVec.toNat_add_of_lt (show s.trainLen.toNat + 1 < 2 ^ 16 by omega)
      i5 := by
        rw [htrain, show releasedEntries (extendTrain d s) = releasedEntries s from rfl, extendTrain_par]
        omega
      memories := ⟨hnv, rbPush_wf d s hrb⟩ }

/-- A released train moves from the entries under construction to those waiting for replay: the sum stays (43 R254). -/
theorem inv_finishTrain (h : Inv s) : Inv (finishTrain s) := by
  unfold finishTrain
  split
  · obtain ⟨hwrite, hread, -⟩ := h.ringRange
    exact
      { h with
        ringRange := ⟨hwrite, hread, hwrite⟩
        i4 := by simp [trainEntries]
        i5 := by
          change ringDistance s.par.rbCap s.rbRead s.rbWrite + ringDistance s.par.rbCap s.rbWrite s.rbWrite ≤ _
          rw [ringDistance_self, ringDistance_rbRead_rbWrite h]
          exact h.i5 }
  · exact inv_discardTrain (inv_raiseOutcome _ h)

theorem inv_trainEdge (d : Duration) (h : Inv s) : Inv (trainEdge d s) := by
  unfold trainEdge
  split
  · exact inv_raiseOutcome _ (inv_discardTrain h)
  · split
    · exact inv_raiseOutcome _ (inv_discardTrain h)
    next hfull =>
      have hext := inv_extendTrain d h (by simpa using hfull)
      split
      · exact inv_finishTrain hext
      · exact hext

theorem inv_rbPop (h : Inv s) (hready : replayReady s = true) : Inv (rbPop s) := by
  obtain ⟨hwrite, hread, hstart⟩ := h.ringRange
  have hne : s.rbRead ≠ s.rbTrainStart := by simpa [replayReady] using hready
  have hpop : releasedEntries (rbPop s) + 1 = releasedEntries s := ringDistance_nextIndex_left s.par hread hstart hne
  exact
    { h with
      ringRange := ⟨hwrite, nextIndex_lt s.par hread, hstart⟩
      i5 := by
        have hheld := h.i5
        rw [show trainEntries (rbPop s) = trainEntries s from rfl, rbPop_par]
        omega }

theorem inv_trainTick (h : Inv s) : Inv (trainTick s) := by
  unfold trainTick
  split
  next hready => exact inv_startPulse _ (inv_toggleOut (inv_rbPop h hready))
  · exact inv_startPulse _ (inv_setOut false h)

theorem inv_trainApply (pc : Bool) (h : Inv s) : Inv (trainApply pc s) := by
  cases pc
  · exact inv_trainTick h
  · exact inv_trainEdge s.recvingSince h

theorem inv_applyFilter (pc : Bool) (h : Inv s) : Inv (applyFilter pc s) := by
  unfold applyFilter
  split
  · exact h
  · exact inv_testsigApply pc h
  · exact inv_legacyApply pc h
  · exact inv_trainApply pc h
  · exact inv_setOut s.rxLevel h

/-! ## The delay unit and the receiver edge (41) -/

/-- A deferral dropped, as a cancel, a delivery and a signature's start do (41 R181, R182, 40 R146). -/
theorem inv_deferral_dropped (h : Inv s) : Inv { s with lpCount := 0, lpPending := false } :=
  { h with
    i1 := fun ha => ⟨(h.i1 ha).1, rfl⟩
    i2idle := fun _ => rfl
    i2pending := by simp }

theorem inv_deliverEdge (h : Inv s) : Inv (deliverEdge s) := { inv_applyFilter true h with }

/-- A deferral is armed outside a signature only: edges are masked in one (I1). -/
theorem inv_lowpassArm (h : Inv s) (hidle : s.sigActive = false) : Inv (lowpassArm s) :=
  { h with
    i1 := by simp [hidle]
    i2idle := by simp
    i2pending := fun _ => ⟨legal_lpDelay h.legal, BitVec.le_refl _⟩ }

theorem inv_lowpassStep (h : Inv s) : Inv (lowpassStep s) := by
  obtain ⟨-, heq⟩ | ⟨hpending, hcount, heq⟩ | ⟨-, -, heq⟩ := lowpassStep_cases s
  · rw [heq]; exact h
  · rw [heq]
    obtain ⟨hlow, hhigh⟩ := h.i2pending hpending
    exact
      { h with
        i2idle := by simp [hpending]
        i2pending := fun _ => by constructor <;> simp only [] <;> bv_omega }
  · rw [heq]; exact inv_deliverEdge (inv_deferral_dropped h)

theorem inv_rxEdge (h : Inv s) (hidle : s.sigActive = false) : Inv (rxEdge s) := by
  unfold rxEdge
  split
  · split
    · exact inv_raiseOutcome _ (inv_deferral_dropped h)
    · exact inv_lowpassArm h hidle
  · exact inv_deliverEdge h

theorem inv_dispatchRx (h : Inv s) (hidle : s.sigActive = false) : Inv (dispatchRx s) := by
  unfold dispatchRx
  split
  · exact inv_rxEdge (inv_takeSnapshot h) hidle
  · exact inv_takeSnapshot h

/-! ## The configuration, its commands and the control decoder (44) -/

theorem inv_setConfig (f : FilterMode) (l : Bool) (h : Inv s) : Inv (setConfig f l s) :=
  { h with
    i9 := rfl
    sigFields := ⟨rfl, rfl⟩ }

theorem inv_switchFilter (nf : FilterMode) (h : Inv s) : Inv (switchFilter nf s) := by
  unfold switchFilter
  split
  · exact h
  · exact inv_resetFilterState h

theorem inv_configured (nf : FilterMode) (nl : Bool) (h : Inv s) : Inv (configured nf nl s) := by
  have hset := inv_setConfig nf nl (inv_switchFilter nf h)
  obtain ⟨hnv, hrb⟩ := hset.memories
  exact inv_raiseOutcome _ { hset with memories := ⟨configBytes_wf _ hnv, hrb⟩ }

theorem inv_command {i : Instr} (hi : i.slot = .command) (h : Inv s) (hexec : exec i s = .next t) : Inv t := by
  obtain ⟨o, rfl⟩ | ⟨nf, nl, rfl, -⟩ := command_cases i s t hi hexec
  · exact inv_raiseOutcome o h
  · exact inv_configured nf nl h

theorem inv_finishPulse (h : Inv s) (hfinish : finishPulse s = .next t) : Inv t := by
  rw [finishPulse, applyCommand_eq] at hfinish
  exact inv_command (decodeCommand_slot _) (inv_sessionReset h) hfinish

/-- A press opens a session, or goes on with the open one, and starts an active period in it (44 R292). -/
theorem inv_pressed (stamp : Word32) (h : Inv s) :
    Inv { s with ctlState := .receiving, ctlActive := true, ctlPressTick := stamp } :=
  { h with
    i6 := by simp
    activeInSession := by simp }

theorem inv_ctlPress (h : Inv s) : Inv (ctlPress s) := by
  unfold ctlPress
  split
  · exact inv_pressed _ (inv_raiseOutcome _ (inv_sessionReset h))
  · exact inv_pressed _ h

/-- A bit is counted within a session only, and a 17th cancels it (44 R294). -/
theorem inv_bitPulse (d : Word32) (h : Inv s) (hsession : s.ctlState = .receiving) : Inv (bitPulse d s) := by
  unfold bitPulse
  split
  · exact inv_raiseOutcome _ (inv_sessionReset h)
  next hcount =>
    have hle := h.i7
    exact
      { h with
        i6 := by simp [hsession]
        i7 := by simp only []; bv_omega }

theorem inv_classifyPulse {d : Word32} (h : Inv s) (hsession : s.ctlState = .receiving)
    (hclass : classifyPulse d s = .next t) : Inv t := by
  unfold classifyPulse at hclass
  split at hclass
  · cases hclass; exact inv_bitPulse d h hsession
  · split at hclass
    · exact inv_finishPulse h hclass
    · cases hclass; exact inv_raiseOutcome _ (inv_sessionReset h)

/-- A release that ends an active period finds a session (44 R292). -/
theorem inv_ctlRelease (h : Inv s) (hrelease : ctlRelease s = .next t) : Inv t := by
  unfold ctlRelease at hrelease
  split at hrelease
  next hactive => exact inv_classifyPulse (inv_ctlActive_false h) (h.activeInSession hactive) hrelease
  · cases hrelease; exact h

theorem inv_controlEdge {level : Bool} (h : Inv s) (hedge : controlEdge level s = .next t) : Inv t := by
  unfold controlEdge at hedge
  split at hedge
  · cases hedge; exact inv_ctlPress h
  · exact inv_ctlRelease h hedge

/-! ## The signature encoder (42) -/

/-- The first position of the first frame is in the legal ranges of `sig_rep` and `sig_pos` (10 R39). -/
theorem frameStart_in_range (repeats : BitVec 8) : 0#8 ≤ repeats ∧ 0#8 < 214#8 := ⟨Nat.zero_le _, by decide⟩

theorem inv_startSignature (h : Inv s) : Inv (startSignature s) :=
  { inv_deferral_dropped h with
    i1 := fun _ => ⟨rfl, rfl⟩
    maskedOnlyInSignature := by simp
    i3 := by simp
    sigRange := frameStart_in_range _ }

theorem inv_endSignature (h : Inv s) : Inv (endSignature s) :=
  { h with
    i1 := by simp
    maskedOnlyInSignature := fun _ => rfl
    i3 := fun _ => ⟨rfl, rfl⟩
    sigRange := frameStart_in_range _ }

/-- Before the state `Done`, the end of a frame takes `sig_rep` to `SIG_REPEATS` at most (42 R202, R212). -/
theorem inv_emitPulse (d : Duration) (h : Inv s) (hactive : s.sigActive = true) (hrep : s.sigRep ≠ s.par.sigRepeats) :
    Inv (emitPulse d s) := by
  obtain ⟨hreps, hpos⟩ := h.sigRange
  rw [emitPulse_eq]
  exact
    { h with
      i3 := by simp [hactive]
      sigRange := by
        simp only []
        split <;> constructor <;> bv_omega }

/-! ## The reset (70 R370, R372) -/

/-- Whatever a legal engine with a canonical store held before, a reset and a configuration leave the invariants. -/
theorem inv_setConfig_clearEngine (f : FilterMode) (l : Bool) (hp : s.par.Legal) (hnv : Memory.wf s.nv = true) :
    Inv (setConfig f l (clearEngine s)) := by
  have hcap := legal_rbCap_pos hp
  obtain ⟨hlen, -⟩ := legal_testSeq_length hp
  exact
    { legal := hp
      i1 := by simp
      maskedOnlyInSignature := by simp
      i2idle := by simp
      i2pending := by simp
      i3 := by simp
      sigRange := frameStart_in_range _
      ringRange := ⟨hcap, hcap, hcap⟩
      i4 := by simp [trainEntries]
      i5 := by simp [trainEntries, releasedEntries]
      i6 := by simp
      activeInSession := by simp
      i7 := by simp
      i9 := rfl
      sigFields := ⟨rfl, rfl⟩
      testRange := by simpa using hlen
      memories := clearEngine_wf s hnv }

theorem inv_resetTo (hp : s.par.Legal) (hnv : Memory.wf s.nv = true) : Inv (resetTo s) := by
  have hset (f : FilterMode) (l : Bool) := inv_setConfig_clearEngine f l hp hnv
  unfold resetTo
  obtain ⟨m, -, -, heq⟩ | ⟨-, heq⟩ := loadConfig_cases (Memory.read s.nv 1) (Memory.read s.nv 2) (Memory.read s.nv 3)
    (clearEngine s)
  · rw [heq]; exact hset m _
  · rw [heq]; exact inv_raiseOutcome _ (hset .nop false)

theorem inv_resetEngine (hp : s.par.Legal) (hnv : Memory.wf s.nv = true) (hreset : resetEngine s = .next t) : Inv t := by
  rw [resetEngine_eq] at hreset
  split at hreset
  · cases hreset; exact inv_resetTo hp hnv
  · cases hreset

/-- An expiry's own records come before the reset (40 R157). -/
theorem inv_watchdogExpire (h : Inv s) (hexpire : watchdogExpire s = .next t) : Inv t :=
  inv_resetEngine (s := markWatchdog (raiseOutcome .watchdogReset s)) h.legal h.memories.1 hexpire

theorem inv_launch {p : Params} {nv : List Host.Cell} {rx ctl : Bool} (hp : p.Legal) (hnv : Memory.wf nv = true)
    (hlaunch : launch p nv rx ctl = .next t) : Inv t :=
  inv_resetEngine hp hnv hlaunch

/-! ## The events (40, 41, 70) -/

theorem inv_tickBody (h : Inv s) : Inv (tickBody s) := by
  obtain ⟨-, heq⟩ | ⟨-, -, -, heq⟩ | ⟨-, -, -, heq⟩ | ⟨-, hactive, hrep, heq⟩ | ⟨-, -, -, heq⟩ := tickBody_cases s
  · rw [heq]; exact inv_lowpassStep h
  · rw [heq]; exact inv_startSignature h
  · rw [heq]; exact inv_endSignature h
  · rw [heq]; exact inv_emitPulse _ h hactive hrep
  · rw [heq]; exact inv_lowpassStep (inv_applyFilter false h)

/-- An admitted `PCINT` finds edges unmasked, so no signature is active (I1). -/
theorem Inv.sigActive_false_of_pcintAdmitted (h : Inv s) (hadmitted : pcintAdmitted s = true) : s.sigActive = false := by
  obtain ⟨-, henabled⟩ : s.pcPending = true ∧ s.edgeIrqEn = true := by simpa [pcintAdmitted] using hadmitted
  by_contra hactive
  obtain ⟨hmasked, -⟩ := h.i1 (by simpa using hactive)
  simp [henabled] at hmasked

theorem inv_pcint (h : Inv s) (hexec : exec .pcint s = .next t) : Inv t := by
  obtain ⟨-, rfl⟩ | ⟨hadmitted, hdispatch⟩ := execPcint_cases s t hexec
  · exact h
  · have hrx := inv_dispatchRx h (h.sigActive_false_of_pcintAdmitted hadmitted)
    obtain rfl | hedge := hdispatch
    · exact hrx
    · exact inv_controlEdge hrx hedge

theorem inv_rx {b : Bool} (h : Inv s) (hexec : exec (.rx b) s = .next t) : Inv t := by
  cases hexec
  split
  · exact h
  · exact { h with }

theorem inv_ctl {b : Bool} (h : Inv s) (hexec : exec (.ctl b) s = .next t) : Inv t := by
  cases hexec
  split
  · exact h
  · exact { h with }

theorem inv_miss (h : Inv s) (hexec : exec .miss s = .next t) : Inv t := by
  change execMiss s = .next t at hexec
  unfold execMiss at hexec
  split at hexec
  · exact inv_watchdogExpire (inv_countMiss h) hexec
  · cases hexec; exact inv_countMiss h

theorem inv_event {i : Instr} (hi : i.slot = .event) (h : Inv s) (hexec : exec i s = .next t) : Inv t := by
  cases i with
  | tick => cases hexec; exact inv_tickBody (inv_tickPrologue h)
  | pcint => exact inv_pcint h hexec
  | rx b => exact inv_rx h hexec
  | ctl b => exact inv_ctl h hexec
  | miss => exact inv_miss h hexec
  | por => exact inv_resetEngine h.legal h.memories.1 hexec
  | _ => simp [Instr.slot] at hi

/-- Settles O55: the step fetches a word, which no invariant reads, and then runs an event or marks the word refused. -/
theorem everyStepKeepsTheInvariants : Obligations.EveryStepKeepsTheInvariants := by
  intro s t h hstep
  have hfetch := inv_fetchWord h
  obtain ⟨i, -, hi, heq⟩ | ⟨-, -, heq⟩ := step_cases s
  · exact inv_event hi hfetch (heq ▸ hstep)
  · rw [heq] at hstep
    cases hstep
    exact inv_markRefused hfetch

/-! ## The reset state (10 R49) -/

theorem launch_p0 : launch Params.p0 [] false true = .next State.reset := rfl

/-- Settles O21: the launch by evaluation, every field from the record `State.reset`. -/
theorem resetStateHasTheResetValues : Obligations.ResetStateHasTheResetValues := by
  refine ⟨launch_p0, ?_⟩
  simp [State.reset, Memory.default]

/-- An empty ring holds no invalid pulse. -/
theorem queuedPulsesValid_of_empty (h : releasedEntries s + trainEntries s = 0) : QueuedPulsesValid s := by
  intro n hn
  omega

/-- Settles O53: the reset state is a launch under a legal parameter set, and its ring is empty. -/
theorem resetStateSatisfiesTheInvariants : Obligations.ResetStateSatisfiesTheInvariants := by
  have hlegal : Params.p0.Legal := by decide
  exact ⟨inv_launch hlegal rfl launch_p0, queuedPulsesValid_of_empty (by decide)⟩

end Sys2Proof.Machine

/-!
PROOFS of the family 20_memory.md: the two memory spaces entry by entry. A command writes NV bytes 1, 2 and 3 at most (44 R301), read
off `command_cases` and `configBytes_read`; the Train-Buffer filter's pin-change entry writes one ring entry at most (20 R82), read off
`trainEdge_rb`.
-/

namespace Sys2Proof.Machine

open Sys2Proof.Claims

variable {s : State}

/-! ## The store after a configuration write (20 R84, 44 R301, 70 R372) -/

@[simp] theorem configured_par (nf : FilterMode) (nl : Bool) (s : State) : (configured nf nl s).par = s.par := by
  simp [configured]

@[simp] theorem configured_cfgFilter (nf : FilterMode) (nl : Bool) (s : State) : (configured nf nl s).cfgFilter = nf := rfl

@[simp] theorem configured_cfgLowpass (nf : FilterMode) (nl : Bool) (s : State) : (configured nf nl s).cfgLowpass = nl := rfl

theorem configured_nv (nf : FilterMode) (nl : Bool) (s : State) :
    (configured nf nl s).nv = configBytes (setConfig nf nl (switchFilter nf s)) := rfl

theorem configured_nv_wf (nf : FilterMode) (nl : Bool) (hs : Memory.wf s.nv = true) :
    Memory.wf (configured nf nl s).nv = true :=
  configBytes_wf (setConfig nf nl (switchFilter nf s)) (by simpa using hs)

/-- The store a configuration write leaves, address by address, from the configuration written. -/
theorem configured_nv_read (nf : FilterMode) (nl : Bool) (a : Nat) (hs : Memory.wf s.nv = true) :
    Memory.read (configured nf nl s).nv a =
      if a = 1 then nvsum s.par (filterByte nf) else if a = 3 then bitByte nl else if a = 2 then filterByte nf
      else Memory.read s.nv a := by
  rw [configured_nv, configBytes_read _ a (by simpa using hs)]
  simp

/-- Every filter's index is a mode number a boot load accepts (30 R110). -/
theorem filterByte_le_four (f : FilterMode) : (filterByte f).toNat ≤ 4 := by cases f <;> decide

/-- A boot load accepts what a configuration write leaves (70 R372). -/
theorem bootable_configured (nf : FilterMode) (nl : Bool) (hs : Memory.wf s.nv = true) :
    bootable (configured nf nl s) = true := by
  simp [bootable, configured_nv_read nf nl _ hs, filterByte_le_four, nvsum]

/-- Settles O36: a command only records an outcome, or it leaves the configuration written. -/
theorem commandsWriteOnlyTheConfigurationBytes : Obligations.CommandsWriteOnlyTheConfigurationBytes := by
  intro i s t hi hs _ hexec
  obtain ⟨o, rfl⟩ | ⟨nf, nl, rfl, -⟩ := command_cases i s t hi hexec
  · exact ⟨hs, fun _ _ _ _ => rfl, .inl ⟨rfl, rfl, rfl⟩⟩
  · have hread := fun a => configured_nv_read nf nl a hs
    refine ⟨configured_nv_wf nf nl hs, ?frame, .inr ⟨?sum, ?filter, ?lowpass, bootable_configured nf nl hs⟩⟩
    case frame =>
      intro a h1 h2 h3
      rw [hread, if_neg h1, if_neg h3, if_neg h2]
    case sum => simp [hread, filterByte]
    case filter => simp [hread, filterByte]
    case lowpass => rw [hread, configured_cfgLowpass]; rfl

/-! ## The ring after a pin change (20 R82, 43 R252, R258) -/

theorem validDuration_iff (s : State) (d : Duration) : validDuration s.par d = true ↔ Valid s d := by
  simp [validDuration, Valid, BitVec.le_def]

theorem ringFull_eq_false_iff (s : State) : ringFull s = false ↔ (s.rbWrite + 1) % s.par.rbCap ≠ s.rbRead := by
  simp [ringFull, nextIndex]

theorem exec_fTrain_pinChange (s : State) : exec (.fTrain true) s = .next (trainEdge s.recvingSince s) := rfl

@[simp] theorem extendTrain_rb (d : Duration) (s : State) : (extendTrain d s).rb = Memory.write s.rb s.rbWrite d := rfl

/-- A duration that is valid and fits is pushed, with a footer or without one. -/
theorem trainEdge_rb_of_pushed (d : Duration) (hvalid : validDuration s.par d = true) (hfree : ringFull s = false) :
    (trainEdge d s).rb = Memory.write s.rb s.rbWrite d := by
  simp only [trainEdge, hvalid, hfree]
  cases isFooter s.par d <;> simp

/-- A duration that is invalid or does not fit only drops the train under construction, which moves an index. -/
theorem trainEdge_rb_of_dropped (d : Duration) (h : ¬ (validDuration s.par d = true ∧ ringFull s = false)) :
    (trainEdge d s).rb = s.rb := by
  cases hvalid : validDuration s.par d
  · simp [trainEdge, hvalid]
  · have hfull : ringFull s = true := by simpa [hvalid] using h
    simp [trainEdge, hvalid, hfull]

/-- Settles O45: the entry at `rb_write` is the one a push writes, and nothing is written without a push. -/
theorem trainFilterWritesOneRingEntry : Obligations.TrainFilterWritesOneRingEntry := by
  intro s hs
  refine ⟨_, exec_fTrain_pinChange s, ?_⟩
  rw [← validDuration_iff, ← ringFull_eq_false_iff]
  by_cases h : validDuration s.par s.recvingSince = true ∧ ringFull s = false
  · obtain ⟨hvalid, hfree⟩ := h
    rw [trainEdge_rb_of_pushed s.recvingSince hvalid hfree]
    exact ⟨Memory.wf_write _ _ _ hs, fun j hj => Memory.read_write_other _ _ _ _ hs hj,
      fun _ => Memory.read_write_same _ _ _ hs, fun hno => absurd ⟨hvalid, hfree⟩ hno⟩
  · rw [trainEdge_rb_of_dropped s.recvingSince h]
    exact ⟨hs, fun _ _ => rfl, fun hyes => absurd hyes h, fun _ => rfl⟩

end Sys2Proof.Machine

/-!
PROOFS of the family 30_encoding.md: the decoders against the opcode map and the encoder, and the meanings that follow from a
word's fields. Two facts about the tests `word AND mask = match` carry the decoding: rows whose matches differ in a bit that both
masks test exclude each other (`and_ne_of_rows_differ`), and a row fixes every field its mask covers (`row_field`).
-/

namespace Sys2Proof

/-! ## The rows of the opcode table (30 R101, R107) -/

/-- Rows that exclude each other: their matches differ in a bit that both masks test. -/
theorem and_ne_of_rows_differ {n : Nat} {v mask pat mask' pat' : BitVec n} (h : v &&& mask = pat)
    (hdiffer : pat &&& mask' ≠ pat' &&& mask) : v &&& mask' ≠ pat' := by
  rintro rfl
  apply hdiffer
  rw [← h, BitVec.and_assoc, BitVec.and_assoc, BitVec.and_comm mask mask']

/-- A well-formed command is what its own word decodes to: the word matches no earlier row of the decoder. -/
theorem decodeCommand_encode (i : Instr) (hslot : i.slot = .command) (hw : i.wellFormed = true) :
    decodeCommand (encode i) = i := by
  cases i with
  | cAdv v | cAdvLp v | cSelTestsig v | cSelTestsigLp v | cSelLegacy v | cSelLegacyLp v | cSelTrain v
  | cSelTrainLp v | cSelPass v | cSelPassLp v | cBad5 v | cBad6 v | cBad7 v | cBad8To15 v =>
    simp only [Instr.wellFormed, Instr.commandRow?, rowMatches, beq_iff_eq, BitVec.ofNat_eq_ofNat] at hw
    simp [encode, decodeCommand, rowMatches, hw, and_ne_of_rows_differ hw]
  | _ => cases hslot

/-- Settles O4: a command by its row; every other word holds no operand but an event's data bit. -/
theorem decodingInvertsEncoding : Obligations.DecodingInvertsEncoding := by
  intro i hw
  cases i with
  | tick | pcint | miss | por => rfl
  | rx b | ctl b => cases b <;> rfl
  | fNop pc | fTestsig pc | fLegacy pc | fTrain pc | fPass pc => rfl
  | sym1 k | sym0 k => rfl
  | _ v => exact congrArg Except.ok (decodeCommand_encode _ rfl hw)

/-- Settles O3: the decoded command is one, and any other with that word would be what the word decodes to. -/
theorem everyCommandWordSpellsOneCommand : Obligations.EveryCommandWordSpellsOneCommand := by
  intro v
  obtain ⟨hw, hslot, henc⟩ := decodeCommand_spec v
  refine ⟨⟨hslot, hw, henc⟩, fun i hi hwi hv => ?_⟩
  rw [← hv, decodeCommand_encode i hi hwi]

/-- Settles O1: a word that matches a row fails the test of every row before it. -/
theorem eventWordsDecodeByTheMap : Obligations.EventWordsDecodeByTheMap := by
  intro w i
  unfold decodeEvent
  constructor
  · intro h
    split_ifs at h <;> cases h <;> simp [*]
  · rintro (⟨h, rfl⟩ | ⟨h, rfl⟩ | ⟨h, rfl⟩ | ⟨h, rfl⟩ | ⟨h, rfl⟩ | ⟨h, rfl⟩) <;>
      simp [h, and_ne_of_rows_differ h]

/-! ## The word of a decoded instruction -/

/-- Only a command holds a word that its row could reject. -/
theorem wellFormed_of_slot_ne_command (i : Instr) (h : i.slot ≠ .command) : i.wellFormed = true := by
  cases i <;> simp_all [Instr.slot, Instr.wellFormed, Instr.commandRow?]

/-- A byte is its seven upper bits with its data bit. -/
theorem and_0xFE_or_dataBit (w : Byte) : w &&& 0xFE#8 ||| bitByte (w.getLsbD 0) = w := by
  revert w
  decide

/-- The word of a decoded event is the byte it was decoded from: a row of mask 0xFF fixes the byte, and one of mask 0xFE all of it but
the data bit the event holds. -/
theorem encode_of_decodeEvent {w : Byte} {i : Instr} (h : decodeEvent w = .ok i) : encode i = w.setWidth 16 := by
  have hbyte := and_0xFE_or_dataBit w
  obtain ⟨hrow, rfl⟩ | ⟨hrow, rfl⟩ | ⟨hrow, rfl⟩ | ⟨hrow, rfl⟩ | ⟨hrow, rfl⟩ | ⟨hrow, rfl⟩ :=
    (eventWordsDecodeByTheMap w i).mp h
  case inl | inr.inl | inr.inr.inr.inr.inl | inr.inr.inr.inr.inr =>
    have hword : w = _ := BitVec.and_allOnes.symm.trans hrow
    rw [hword]
    rfl
  case inr.inr.inl | inr.inr.inr.inl =>
    rw [hrow] at hbyte
    generalize w.getLsbD 0 = b at hbyte
    subst hbyte
    cases b <;> rfl

/-- What a filter index decodes to is the filter of the mode it numbers. -/
theorem decodeFilter_ok {pc : Bool} {f : Byte} {i : Instr} (h : decodeFilter pc f = .ok i) :
    ∃ m : FilterMode, i = m.instr pc ∧ f = m.index.setWidth 8 := by
  unfold decodeFilter at h
  split at h
  next m hm =>
    obtain ⟨hindex, -⟩ := filterOfIndex_some f m hm
    cases h
    exact ⟨m, rfl, hindex⟩
  next => cases h

/-- What a long-mask decodes to is the symbol it belongs to. -/
theorem decodeSymbol_ok {k : BitVec 2} {m : BitVec 4} {i : Instr} (h : decodeSymbol k m = .ok i) :
    i = .sym1 k ∧ m = 0b0010#4 ∨ i = .sym0 k ∧ m = 0b1000#4 := by
  unfold decodeSymbol at h
  split_ifs at h with h1 h0
  · cases h; exact .inl ⟨rfl, h1⟩
  · cases h; exact .inr ⟨rfl, h0⟩

/-- A word whose value fits in `m` bits loses nothing when it is read as an `m`-bit word. -/
theorem setWidth_setWidth_of_lt {n : Nat} (m : Nat) (w : BitVec n) (h : w.toNat < 2 ^ m) :
    (w.setWidth m).setWidth n = w := by
  apply BitVec.eq_of_toNat_eq
  simp [Nat.mod_eq_of_lt h, Nat.mod_eq_of_lt w.isLt]

/-- Settles O5: place by place, from what the decoder of its format answers. -/
theorem decodingIsUnambiguous : Obligations.DecodingIsUnambiguous := by
  intro place w i h
  cases place with
  | event =>
    simp only [decodeAt] at h
    split_ifs at h with hfits
    have hslot := decodeEvent_slot _ i h
    refine ⟨wellFormed_of_slot_ne_command i (by simp [hslot]), hslot, ?_⟩
    rw [encode_of_decodeEvent h, setWidth_setWidth_of_lt 8 w (Nat.lt_succ_of_le hfits)]
  | command =>
    cases h
    obtain ⟨hw, hslot, henc⟩ := decodeCommand_spec w
    exact ⟨hw, hslot, henc⟩
  | filter pc =>
    simp only [decodeAt] at h
    split_ifs at h with hfits
    obtain ⟨m, rfl, hm⟩ := decodeFilter_ok h
    rw [← setWidth_setWidth_of_lt 8 w (Nat.lt_succ_of_le hfits), hm]
    cases m <;> exact ⟨rfl, rfl, rfl⟩
  | symbol k =>
    simp only [decodeAt] at h
    split_ifs at h with hfits
    rw [← setWidth_setWidth_of_lt 4 w (Nat.lt_succ_of_le hfits)]
    obtain ⟨rfl, hm⟩ | ⟨rfl, hm⟩ := decodeSymbol_ok h
    · exact ⟨rfl, rfl, by rw [hm]; rfl⟩
    · exact ⟨rfl, rfl, by rw [hm]; rfl⟩

end Sys2Proof

namespace Sys2Proof.Machine

open Sys2Proof.Claims

variable {s : State}

/-! ## Illegal event words (30 R102, 60 R333) -/

/-- The illegal words of R102 are the bytes the decoder answers with an error, byte by byte. -/
theorem illegalWord_iff (w : Byte) : IllegalWord w ↔ ∃ e, decodeEvent w = .error e := by
  have hbytes : ∀ w : Byte, IllegalWord w ↔ (decodeEvent w).isOk = false := by
    unfold IllegalWord
    decide
  rw [hbytes]
  cases decodeEvent w <;> simp [Except.isOk, Except.toBool]

theorem fetchWord_of_trace_cons {w : Byte} {rest : List Byte} (h : s.trace = w :: rest) :
    fetchWord s = (w, { s with trace := rest }) := by
  simp [fetchWord, h]

/-- Settles O2: a step on a word that decodes to an error marks the state its fetch leaves. -/
theorem illegalEventWordsAreRefused : Obligations.IllegalEventWordsAreRefused := by
  refine ⟨illegalWord_iff, fun s w rest htrace hw => ?_⟩
  obtain ⟨e, he⟩ := (illegalWord_iff w).mp hw
  simp [step, fetchWord_of_trace_cons htrace, he, markRefused]

/-! ## The bits of a command word (30 R104, 44 R294) -/

theorem pulseBit_iff (p : Params) (d : Word32) : pulseBit p d = true ↔ p.ctlBitBoundary.toNat ≤ d.toNat := by
  simp [pulseBit, BitVec.le_def]

/-- One more bit doubles the accumulator and adds the bit, as long as no bit is shifted out. -/
theorem shiftBit_toNat (v : BitVec 16) (b : Bool) (h : v.toNat < 2 ^ 15) :
    (shiftBit v b).toNat = 2 * v.toNat + bitNat b := by
  have hshift : (v <<< 1).toNat = 2 * v.toNat := by
    rw [BitVec.toNat_shiftLeft, Nat.shiftLeft_eq, Nat.mod_eq_of_lt (by omega)]
    omega
  cases b
  · simp [shiftBit, bitByte, bitNat, hshift]
  · rw [shiftBit, BitVec.toNat_or, hshift]
    exact (Nat.two_pow_add_eq_or_of_lt (i := 1) (b := 1) (by decide) v.toNat).symm

/-- The command word `Σ c_k · 2^(n−k)` of the active times `ds`, each `c_k` decided at `boundary` (30 R104). -/
def bitSum (boundary : Nat) (ds : List Word32) : Nat :=
  ((List.range ds.length).map fun k => if boundary ≤ (ds.getD k 0).toNat then 2 ^ (ds.length - 1 - k) else 0).sum

/-- One more bit moves every earlier one up by a place. -/
theorem bitSum_concat (boundary : Nat) (ds : List Word32) (d : Word32) :
    bitSum boundary (ds ++ [d]) = 2 * bitSum boundary ds + if boundary ≤ d.toNat then 1 else 0 := by
  have hbit : ∀ k ∈ List.range ds.length,
      (if boundary ≤ ((ds ++ [d]).getD k 0).toNat then 2 ^ (ds.length - k) else 0) =
        2 * if boundary ≤ (ds.getD k 0).toNat then 2 ^ (ds.length - 1 - k) else 0 := by
    intro k hk
    have hlt := List.mem_range.mp hk
    rw [List.getD_append _ _ _ _ hlt, show ds.length - k = ds.length - 1 - k + 1 by omega, pow_succ', mul_ite, mul_zero]
  simp only [bitSum, List.length_append, List.length_singleton, List.range_succ, List.map_append, List.sum_append,
    Nat.add_sub_cancel, List.map_congr_left hbit, List.sum_map_mul_left]
  simp

theorem bitSum_lt (boundary : Nat) (ds : List Word32) : bitSum boundary ds < 2 ^ ds.length := by
  induction ds using List.reverseRecOn with
  | nil => exact Nat.one_pos
  | append_singleton ds d ih =>
    rw [bitSum_concat, List.length_append, List.length_singleton, pow_succ]
    split_ifs <;> omega

/-- A bit pulse in a session that has room for the bit. -/
theorem bitPulse_of_room (d : Word32) (h : s.ctlCount.toNat < 16) :
    (bitPulse d s).ctlCount.toNat = s.ctlCount.toNat + 1 ∧
      (bitPulse d s).ctlValue = shiftBit s.ctlValue (pulseBit s.par d) := by
  have hroom : s.ctlCount ≠ 16#8 := by bv_omega
  rw [bitPulse, if_neg hroom]
  exact ⟨by simp only []; bv_omega, rfl⟩

/-- What the bit pulses `ds` leave in the control decoder's fields under the parameters `p`. -/
def Accumulated (p : Params) (ds : List Word32) (t : State) : Prop :=
  t.par = p ∧ t.ctlCount.toNat = ds.length ∧ t.ctlValue.toNat = bitSum p.ctlBitBoundary.toNat ds

theorem accumulated_bitPulse {p : Params} {ds : List Word32} (d : Word32) (h : Accumulated p ds s)
    (hroom : ds.length < 16) : Accumulated p (ds ++ [d]) (bitPulse d s) := by
  obtain ⟨hpar, hcount, hvalue⟩ := h
  obtain ⟨hcount', hvalue'⟩ := bitPulse_of_room d (hcount ▸ hroom)
  have hfits : s.ctlValue.toNat < 2 ^ 15 := by
    rw [hvalue]
    exact (bitSum_lt _ ds).trans_le (Nat.pow_le_pow_right Nat.two_pos (by omega))
  refine ⟨by simpa using hpar, by simp [hcount', hcount], ?_⟩
  rw [hvalue', shiftBit_toNat _ _ hfits, hvalue, hpar, bitSum_concat]
  simp [bitNat, pulseBit_iff]

theorem accumulated_foldl (ds : List Word32) (hlen : ds.length ≤ 16) (hcount : s.ctlCount = 0)
    (hvalue : s.ctlValue = 0) : Accumulated s.par ds (ds.foldl (fun t d => bitPulse d t) s) := by
  induction ds using List.reverseRecOn with
  | nil => exact ⟨rfl, by simp [hcount], by simp [hvalue, bitSum]⟩
  | append_singleton ds d ih =>
    rw [List.length_append, List.length_singleton] at hlen
    rw [List.foldl_append]
    exact accumulated_bitPulse d (ih (by omega)) (by omega)

/-- Settles O7: by induction on the pulses, the last one first, since it is the one `bitPulse` adds. -/
theorem commandBitsArriveMostSignificantFirst : Obligations.CommandBitsArriveMostSignificantFirst := by
  intro s ds hlen hcount hvalue
  obtain ⟨-, hcount', hvalue'⟩ := accumulated_foldl ds hlen hcount hvalue
  exact ⟨hcount', hvalue'⟩

/-! ## The configuration a command writes, in the arithmetic of its rules (42 R206, R207, 44 R300) -/

theorem setConfig_eq_withConfig (f : FilterMode) (l : Bool) (s : State) : setConfig f l s = withConfig f l s := by
  have hversion : sigVersionOf s.par f l = BitVec.ofNat 16 (versionNat s.par f l) := by
    apply BitVec.eq_of_toNat_eq
    simp [sigVersionOf, versionNat]
  have hchecksum :
      sigChecksumOf s.par (sigVersionOf s.par f l) = BitVec.ofNat 4 (checksumNat s.par (versionNat s.par f l)) := by
    rw [hversion]
    apply BitVec.eq_of_toNat_eq
    simp [sigChecksumOf, checksumNat, Nat.add_mod]
  rw [withConfig, ← hchecksum, ← hversion]
  rfl

theorem configured_eq_written (nf : FilterMode) (nl : Bool) (s : State) : configured nf nl s = written nf nl s := by
  unfold configured
  rw [setConfig_eq_withConfig]
  by_cases h : nf = s.cfgFilter
  · simp only [switchFilter, written, if_pos h]
    rfl
  · simp only [switchFilter, written, if_neg h]
    rfl

theorem selectConfig_eq_written (v : BitVec 16) (nf : FilterMode) (nl : Bool) (h : 4 ≤ s.par.nvSize) :
    selectConfig v nf nl s =
      .next (if nf = s.cfgFilter ∧ nl = s.cfgLowpass then { s with log := s.log ++ [.cmdNoChange v] }
        else written nf nl s) := by
  rw [selectConfig_eq v nf nl s h, configured_eq_written]
  rfl

theorem nextFilter_eq_advanced (f : FilterMode) : nextFilter f = advanced f := by cases f <;> rfl

/-- A command that asks for a configuration selects it. -/
theorem exec_of_commandAsks {i : Instr} {nf : FilterMode} {nl : Bool} (h : commandAsks i s = some (nf, nl)) :
    exec i s = selectConfig (encode i) nf nl s := by
  cases i with
  | cAdv v | cAdvLp v =>
    cases h
    rw [← nextFilter_eq_advanced]
    rfl
  | cSelTestsig v | cSelTestsigLp v | cSelLegacy v | cSelLegacyLp v | cSelTrain v | cSelTrainLp v | cSelPass v
  | cSelPassLp v =>
    cases h
    rfl
  | _ => cases h

/-! ## The fields of a command word (30 R106) -/

/-- A row fixes the field of `n` bits from bit `lo` on where its mask covers that field. -/
theorem row_field {v mask pat : BitVec 16} (h : rowMatches mask pat v = true) (lo n : Nat)
    (hmask : mask.toNat / 2 ^ lo % 2 ^ n = 2 ^ n - 1) : v.toNat / 2 ^ lo % 2 ^ n = pat.toNat / 2 ^ lo % 2 ^ n := by
  rw [← eq_of_beq h, BitVec.toNat_and, Nat.and_div_two_pow, Nat.and_mod_two_pow, hmask,
    Nat.and_two_pow_sub_one_eq_mod, Nat.mod_mod]

/-- The target `T = v[3:0]` of a word that matches a row. -/
theorem row_target {v mask pat : BitVec 16} (h : rowMatches mask pat v = true) (hmask : mask.toNat % 16 = 15) :
    v.toNat % 16 = pat.toNat % 16 := by
  simpa using row_field h 0 4 (by simpa using hmask)

/-- The bit `LPP = v[5]` of a word that matches a row. -/
theorem row_lpp {v mask pat : BitVec 16} (h : rowMatches mask pat v = true) (hmask : mask.toNat / 32 % 2 = 1) :
    v.toNat / 32 % 2 = pat.toNat / 32 % 2 :=
  row_field h 5 1 hmask

/-- The filter a word asks for by its target: the next one, or the one the target numbers (44 R299). -/
def askedFilter (v : BitVec 16) (s : State) : FilterMode :=
  modeOf (if v.toNat % 16 = 0 then (s.cfgFilter.index.toNat + 1) % 5 else v.toNat % 16)

/-- The low-pass flag a word asks for: `LPV` where `LPP` is set, the present one otherwise (44 R299). -/
def askedLowpass (v : BitVec 16) (s : State) : Bool :=
  if v.toNat / 32 % 2 = 1 then decide (v.toNat / 16 % 2 = 1) else s.cfgLowpass

theorem askedLowpass_of_lpp {v : BitVec 16} (h : v.toNat / 32 % 2 = 1) : askedLowpass v s = v.getLsbD 4 := by
  rw [askedLowpass, if_pos h]
  exact (Nat.testBit_eq_decide_div_mod_eq (x := v.toNat) (i := 4)).symm

/-- A command acts by the fields of its word: its target is invalid, or it asks for what the fields say. -/
theorem command_by_fields (i : Instr) (hslot : i.slot = .command) (hw : i.wellFormed = true) (s : State) :
    (5 ≤ (encode i).toNat % 16 ∧ exec i s = badTarget (encode i) s) ∨
      ((encode i).toNat % 16 < 5 ∧ commandAsks i s = some (askedFilter (encode i) s, askedLowpass (encode i) s)) := by
  cases i with
  | cAdv v | cSelTestsig v | cSelLegacy v | cSelTrain v | cSelPass v =>
    have htarget := row_target hw rfl
    have hlpp := row_lpp hw rfl
    right
    simp [encode, commandAsks, advanced, askedFilter, askedLowpass, modeOf, htarget, hlpp]
  | cAdvLp v | cSelTestsigLp v | cSelLegacyLp v | cSelTrainLp v | cSelPassLp v =>
    have htarget := row_target hw rfl
    have hlpp : v.toNat / 32 % 2 = 1 := row_lpp hw rfl
    right
    simp [encode, commandAsks, advanced, askedFilter, askedLowpass_of_lpp hlpp, modeOf, htarget]
  | cBad5 v | cBad6 v | cBad7 v =>
    have htarget := row_target hw rfl
    exact .inl ⟨by simp [encode, htarget], rfl⟩
  | cBad8To15 v =>
    have hbit : v.toNat / 8 % 2 = 1 := row_field hw 3 1 rfl
    exact .inl ⟨by simp only [encode]; omega, rfl⟩
  | _ => cases hslot

/-- Settles O35: the word's command acts by the fields of its own word, which is the word decoded. -/
theorem commandWordActsByItsFields : Obligations.CommandWordActsByItsFields := by
  intro v s hsize target nf nl
  obtain ⟨hw, hslot, henc⟩ := decodeCommand_spec v
  have hfields := command_by_fields (decodeCommand v) hslot hw s
  rw [henc] at hfields
  obtain ⟨hbad, hexec⟩ | ⟨hgood, hasks⟩ := hfields
  · rw [if_pos (show 5 ≤ target from hbad)]
    exact hexec
  · rw [if_neg (show ¬ 5 ≤ target from Nat.not_le.mpr hgood), exec_of_commandAsks hasks, henc]
    exact selectConfig_eq_written v nf nl hsize

/-- Settles O34: each of the four rows is `badTarget`. -/
theorem badTargetsChangeNothing : Obligations.BadTargetsChangeNothing :=
  fun _ _ => ⟨rfl, rfl, rfl, rfl⟩

/-! ## Symbols (30 R114, 42 R211) -/

theorem emitPulse_eq_advancedPosition (d : Duration) (s : State) :
    emitPulse d s = advancedPosition (toggled d s) := by
  have hlast : s.sigPos + 1 = 214#8 ↔ s.sigPos = 213 := by constructor <;> intro h <;> bv_omega
  simp only [emitPulse_eq, hlast]
  rfl

theorem exec_sym1 (k : BitVec 2) (s : State) : exec (.sym1 k) s = .next (emitPulse (subPulse s.par true k) s) := rfl

theorem exec_sym0 (k : BitVec 2) (s : State) : exec (.sym0 k) s = .next (emitPulse (subPulse s.par false k) s) := rfl

/-- Settles O49: a symbol's sub-pulse is one pulse of the frame, and its long-mask has one bit set. -/
theorem symbolsPlaceOneLongSubPulse : Obligations.SymbolsPlaceOneLongSubPulse := by
  intro s k
  refine ⟨?_, ?_, ?_, ?_⟩
  · simp [exec_sym1, emitPulse_eq_advancedPosition, subPulse, subPulseLong]
  · simp [exec_sym0, emitPulse_eq_advancedPosition, subPulse, subPulseLong]
  · revert k
    decide
  · revert k
    decide

end Sys2Proof.Machine

/-!
PROOFS of the family 40_tick_scheduler.md: the tick handler path by path, the watchdog, and the step. A tick counts first, on every
path (`tickPrologue_eq_counted`), and then takes one path of `tickBody`; the delay unit's advance, which two of the paths end with,
is said once (`delayUnit_paths`).
-/

namespace Sys2Proof.Machine

open Sys2Proof.Claims

variable {s t : State}

/-! ## The counters of a tick (40 R142 to R144) -/

theorem saturatingTick_eq_min (d : Duration) : saturatingTick d = BitVec.ofNat 16 (min (d.toNat + 1) 65535) := by
  unfold saturatingTick
  split
  · next h => rw [h]; rfl
  · next h =>
    rw [Nat.min_eq_left (by bv_omega), BitVec.ofNat_add, BitVec.ofNat_toNat, BitVec.setWidth_eq]
    rfl

theorem pulseDecrement_eq_sub (d : Duration) : (if d = 0 then 0 else d - 1) = BitVec.ofNat 16 (d.toNat - 1) := by
  split
  · next h => rw [h]; rfl
  · next h => bv_omega

/-- The counting of a tick, in the numbers of its rules. -/
theorem tickPrologue_eq_counted (s : State) : tickPrologue s = counted s := by
  have hcountdown : s.sigCountdown - 1 = BitVec.ofInt 32 (s.sigCountdown.toInt - 1) := by
    apply BitVec.eq_of_toInt_eq
    simp [BitVec.toInt_sub]
  have hticks : s.tickCount + 1 = BitVec.ofNat 32 (s.tickCount.toNat + 1) := by
    rw [BitVec.ofNat_add, BitVec.ofNat_toNat, BitVec.setWidth_eq]
    rfl
  rw [counted, ← hcountdown, ← hticks, ← saturatingTick_eq_min, ← pulseDecrement_eq_sub]
  rfl

theorem exec_tick (s : State) : exec .tick s = .next (tickBody (counted s)) := by
  rw [execTick_eq, tickPrologue_eq_counted]

theorem counted_outRemaining_toNat (s : State) : (counted s).outRemaining.toNat = s.outRemaining.toNat - 1 := by
  simp only [counted, BitVec.toNat_ofNat]
  omega

theorem counted_outRemaining_eq_zero (h : s.outRemaining.toNat ≤ 1) : (counted s).outRemaining = 0 := by
  apply BitVec.eq_of_toNat_eq
  rw [counted_outRemaining_toNat]
  exact Nat.sub_eq_zero_of_le h

/-! ## The paths of a tick (40 R145 to R148) -/

theorem exec_tick_of_pulse (h : 2 ≤ s.outRemaining.toNat) : exec .tick s = .next (lowpassStep (counted s)) := by
  have hleft : (counted s).outRemaining ≠ 0 := by
    have hcount := counted_outRemaining_toNat s
    bv_omega
  have hrunning : pulseRunning (counted s) = true := bne_iff_ne.mpr hleft
  rw [exec_tick, tickBody, if_pos hrunning]

/-- With the pulse elapsed and no signature active, the countdown's sign decides the path. -/
theorem exec_tick_of_elapsed (h : s.outRemaining.toNat ≤ 1) (hidle : s.sigActive = false) :
    exec .tick s = .next (if (counted s).sigCountdown.toInt < 0 then startSignature (counted s)
      else lowpassStep (applyFilter false (counted s))) := by
  have hactive : (counted s).sigActive = false := hidle
  rw [exec_tick]
  simp [tickBody, pulseRunning, signatureDue, countdownNegative, BitVec.msb_eq_toInt, hactive,
    counted_outRemaining_eq_zero h]

theorem exec_tick_of_due (h : s.outRemaining.toNat ≤ 1) (hidle : s.sigActive = false)
    (hdue : (counted s).sigCountdown.toInt < 0) : exec .tick s = .next (startSignature (counted s)) := by
  rw [exec_tick_of_elapsed h hidle, if_pos hdue]

theorem exec_tick_of_filter (h : s.outRemaining.toNat ≤ 1) (hidle : s.sigActive = false)
    (hlater : 0 ≤ (counted s).sigCountdown.toInt) :
    exec .tick s = .next (lowpassStep (applyFilter false (counted s))) := by
  rw [exec_tick_of_elapsed h hidle, if_neg (not_lt.mpr hlater)]

/-- The active filter's row is the filter the dispatch runs (43 R240). -/
theorem exec_activeFilter (pc : Bool) (s : State) : exec (s.cfgFilter.instr pc) s = .next (applyFilter pc s) := by
  unfold applyFilter
  cases s.cfgFilter <;> rfl

/-- The three ways an outcome ends with one advance of the delay unit from `s`, by the deferral `s` holds: nothing pending, one
count, or the delivery through the active filter's pin-change row (41 R182). -/
theorem delayUnit_paths {r : Host.Outcome State Fault Refusal} {pending : Bool} {count : BitVec 8} {f : FilterMode}
    (h : r = .next (lowpassStep s)) (hpending : s.lpPending = pending) (hcount : s.lpCount = count)
    (hfilter : s.cfgFilter = f) :
    (pending = false → r = .next s) ∧
      (pending = true → count ≠ 1 → r = .next { s with lpCount := count - 1 }) ∧
      (pending = true → count = 1 →
        ∃ u, exec (f.instr true) { s with lpPending := false, lpCount := 0 } = .next u ∧
          r = .next { u with recvingSince := 0 }) := by
  subst hpending hcount hfilter
  obtain ⟨hp, heq⟩ | ⟨hp, hc, heq⟩ | ⟨hp, hc, heq⟩ := lowpassStep_cases s <;> rw [heq] at h
  · simp [hp, h]
  · exact ⟨by simp [hp], fun _ _ => h, fun _ hone => absurd hone hc⟩
  · exact ⟨by simp [hp], fun _ hne => absurd hc hne,
      fun _ _ => ⟨_, exec_activeFilter true { s with lpPending := false, lpCount := 0 }, h⟩⟩

/-- Settles O10: while the pulse runs, a tick is the advance of the delay unit from the counted state. -/
theorem tickWhilePulseRuns : Obligations.TickWhilePulseRuns :=
  fun _ h => delayUnit_paths (exec_tick_of_pulse h) rfl rfl rfl

/-- Settles O11: the due signature's path. -/
theorem tickStartsDueSignature : Obligations.TickStartsDueSignature :=
  fun _ h hidle hdue => exec_tick_of_due h hidle hdue

/-- Settles O14: the periodic row leaves the delay unit and the active filter, so the advance after it is the one the counted state
has due. -/
theorem tickRunsFilterThenDelayUnit : Obligations.TickRunsFilterThenDelayUnit := fun s h hidle hlater =>
  ⟨_, exec_activeFilter false (counted s), delayUnit_paths (exec_tick_of_filter h hidle hlater)
    (applyFilter_lpPending false _) (applyFilter_lpCount false _) (applyFilter_cfgFilter false _)⟩

/-! ## What every tick writes, and what none does (40 R141 to R143) -/

theorem lowpassStep_recvingSince (s : State) :
    (lowpassStep s).recvingSince = s.recvingSince ∨
      (s.lpPending = true ∧ (lowpassStep s).lpPending = false ∧ (lowpassStep s).recvingSince = 0) := by
  obtain ⟨-, heq⟩ | ⟨-, -, heq⟩ | ⟨hp, -, heq⟩ := lowpassStep_cases s
  · exact .inl (by rw [heq])
  · exact .inl (by rw [heq])
  · exact .inr ⟨hp, by rw [heq]; simp, by rw [heq]; rfl⟩

/-- Of the paths of a tick only the end of a signature writes the countdown. -/
theorem tickBody_sigCountdown (s : State) :
    (tickBody s).sigCountdown = s.sigCountdown ∨
      (s.sigActive = true ∧ (tickBody s).sigActive = false ∧ (tickBody s).sigCountdown = s.par.sigPeriod) := by
  obtain ⟨-, heq⟩ | ⟨-, -, -, heq⟩ | ⟨-, hactive, -, heq⟩ | ⟨-, -, -, heq⟩ | ⟨-, -, -, heq⟩ := tickBody_cases s
  case inr.inr.inl => exact .inr ⟨hactive, by rw [heq]; rfl, by rw [heq]; rfl⟩
  all_goals exact .inl (by rw [heq]; simp)

/-- Of the paths of a tick only a delivered edge writes the duration counter. -/
theorem tickBody_recvingSince (s : State) :
    (tickBody s).recvingSince = s.recvingSince ∨
      (s.lpPending = true ∧ (tickBody s).lpPending = false ∧ (tickBody s).recvingSince = 0) := by
  obtain ⟨-, heq⟩ | ⟨-, -, -, heq⟩ | ⟨-, -, -, heq⟩ | ⟨-, -, -, heq⟩ | ⟨-, -, -, heq⟩ := tickBody_cases s
  · rw [heq]
    exact lowpassStep_recvingSince s
  · exact .inl (by rw [heq]; rfl)
  · exact .inl (by rw [heq]; rfl)
  · exact .inl (by rw [heq]; simp)
  · rw [heq]
    simpa using lowpassStep_recvingSince (applyFilter false s)

/-- Settles O15: the counted state has the counters, and the path after it writes at most the countdown and the duration counter. -/
theorem everyTickFeedsTheWatchdog : Obligations.EveryTickFeedsTheWatchdog := fun s =>
  ⟨tickBody (counted s), exec_tick s, tickBody_wdtMissed _, tickBody_tickCount _, tickBody_sigCountdown (counted s),
    tickBody_recvingSince (counted s)⟩

/-- Settles O16: by the frames of the two halves of a tick, the counting and the path. -/
theorem tickFrame : Obligations.TickFrame := by
  intro s t h
  rw [execTick_eq] at h
  cases h
  simp

/-! ## The length of an output pulse (40 R144, R154) -/

theorem exec_tick_of_pulse_idle (h : 2 ≤ s.outRemaining.toNat) (hidle : s.lpPending = false) :
    exec .tick s = .next (counted s) := by
  obtain ⟨hcounted, -, -⟩ := delayUnit_paths (exec_tick_of_pulse h) rfl rfl rfl
  exact hcounted hidle

/-- Settles O17: by induction on the ticks, the first of which only counts. -/
theorem outputPulseLastsItsDuration : Obligations.OutputPulseLastsItsDuration := by
  intro s n hn hidle
  induction n generalizing s with
  | zero => exact ⟨s, rfl, rfl, rfl, rfl, by simp, rfl⟩
  | succ n ih =>
    have hcount := counted_outRemaining_toNat s
    obtain ⟨t, hrun, hleft, hlevel, htrace, hticks, hactive⟩ := ih (counted s) (by omega) hidle
    refine ⟨t, ?run, by omega, hlevel, htrace, ?ticks, hactive⟩
    case run =>
      rw [List.replicate_succ, runEvents, exec_tick_of_pulse_idle (by omega) hidle]
      exact hrun
    case ticks =>
      rw [hticks]
      simp only [counted, BitVec.ofNat_add, BitVec.ofNat_toNat, BitVec.setWidth_eq]
      rw [BitVec.add_assoc, BitVec.add_comm (BitVec.ofNat 32 1)]

/-! ## A missed tick (40 R156, R157) -/

theorem exec_miss_below (h : s.wdtMissed + 1 < s.par.wdtTimeout) : exec .miss s = .next (countMiss s) := by
  have hbelow : watchdogExpired (countMiss s) = false := decide_eq_false (BitVec.not_le.mpr h)
  change execMiss s = _
  simp [execMiss, hbelow]

theorem exec_miss_expiring (h : s.par.wdtTimeout ≤ s.wdtMissed + 1) :
    exec .miss s = watchdogExpire (countMiss s) := by
  have hexpired : watchdogExpired (countMiss s) = true := decide_eq_true h
  change execMiss s = _
  simp [execMiss, hexpired]

/-- Settles O18: a `MISS` counts; at the timeout its outcome and its mark come before the reset that `POR` performs. -/
theorem missCountsUntilTheWatchdogResets : Obligations.MissCountsUntilTheWatchdogResets :=
  fun _ => ⟨exec_miss_below, exec_miss_expiring⟩

/-! ## Dispatches without an edge (40 R140, 41 R170, R178) -/

theorem exec_pcint (s : State) : exec .pcint s = if pcintAdmitted s then dispatchEdges s else .next s := rfl

theorem dispatchEdges_of_no_change (hrx : s.rxLevel = s.pinSnapshotRx) (hctl : s.ctlLevel = s.pinSnapshotCtl) :
    dispatchEdges s = .next { s with pcPending := false } := by
  simp [dispatchEdges, dispatchRx, rxChanged, ctlChanged, takeSnapshot, hrx, hctl]

/-- Settles O23: not admitted, or admitted with both snapshots at the levels they would be taken from. -/
theorem pcintWithoutAnEdgeDoesNothingElse : Obligations.PcintWithoutAnEdgeDoesNothingElse := by
  intro s
  refine ⟨fun hmasked => ?_, fun hpending henabled hrx hctl => ?_⟩
  · have hnot : pcintAdmitted s = false := by simpa [pcintAdmitted, imp_iff_not_or] using hmasked
    simp [exec_pcint, hnot]
  · have hadmitted : pcintAdmitted s = true := by simp [pcintAdmitted, hpending, henabled]
    simp [exec_pcint, hadmitted, dispatchEdges_of_no_change hrx hctl]

/-! ## The watchdog between ticks (40 R158) -/

/-- A change that leaves the parameters and the watchdog alone. -/
def WatchdogKept (s t : State) : Prop := t.par = s.par ∧ t.faultWdt = s.faultWdt ∧ t.wdtMissed = s.wdtMissed

theorem watchdogKept_trans {u : State} (h : WatchdogKept s t) (h' : WatchdogKept t u) : WatchdogKept s u := by
  obtain ⟨hpar, hfault, hmissed⟩ := h
  obtain ⟨hpar', hfault', hmissed'⟩ := h'
  exact ⟨hpar'.trans hpar, hfault'.trans hfault, hmissed'.trans hmissed⟩

theorem watchdogKept_dispatchRx (s : State) : WatchdogKept s (dispatchRx s) := by simp [WatchdogKept]

theorem watchdogKept_command {i : Instr} (hi : i.slot = .command) (h : exec i s = .next t) : WatchdogKept s t := by
  obtain ⟨o, rfl⟩ | ⟨nf, nl, rfl, -⟩ := command_cases i s t hi h
  · exact ⟨rfl, rfl, rfl⟩
  · simp [WatchdogKept, configured]

theorem watchdogKept_controlEdge {level : Bool} (h : controlEdge level s = .next t) : WatchdogKept s t := by
  obtain rfl | rfl | ⟨d, rfl⟩ | ⟨d, rfl⟩ | hexec := controlEdge_cases level s t h
  · simp [WatchdogKept]
  · exact ⟨rfl, rfl, rfl⟩
  · simp [WatchdogKept]
  · exact ⟨rfl, rfl, rfl⟩
  · exact watchdogKept_command (s := sessionReset { s with ctlActive := false }) (decodeCommand_slot s.ctlValue) hexec

/-- A command completes where the store has the bytes of its layout (20 R84). -/
theorem exists_exec_command (v : BitVec 16) (h : 4 ≤ s.par.nvSize) : ∃ t, exec (decodeCommand v) s = .next t := by
  obtain ⟨hw, hslot, -⟩ := decodeCommand_spec v
  obtain ⟨-, hbad⟩ | ⟨-, hasks⟩ := command_by_fields (decodeCommand v) hslot hw s
  · exact ⟨_, hbad⟩
  · rw [exec_of_commandAsks hasks, selectConfig_eq _ _ _ _ h]
    exact ⟨_, rfl⟩

theorem exists_controlEdge (level : Bool) (h : 4 ≤ s.par.nvSize) : ∃ t, controlEdge level s = .next t := by
  unfold controlEdge ctlRelease classifyPulse finishPulse
  rw [applyCommand_eq]
  split_ifs with hpress htimed hbit hfinish
  · exact ⟨_, rfl⟩
  · exact ⟨_, rfl⟩
  · exact exists_exec_command s.ctlValue (s := sessionReset { s with ctlActive := false }) h
  · exact ⟨_, rfl⟩
  · exact ⟨_, rfl⟩

theorem exists_exec_pcint (h : 4 ≤ s.par.nvSize) : ∃ t, exec .pcint s = .next t := by
  rw [exec_pcint]
  unfold dispatchEdges
  split_ifs
  · exact exists_controlEdge _ (by simpa using h)
  · exact ⟨_, rfl⟩
  · exact ⟨_, rfl⟩

theorem exec_pcint_watchdogKept (h : 4 ≤ s.par.nvSize) : ∃ t, exec .pcint s = .next t ∧ WatchdogKept s t := by
  obtain ⟨t, hexec⟩ := exists_exec_pcint h
  refine ⟨t, hexec, ?_⟩
  obtain ⟨-, rfl⟩ | ⟨-, rfl | hedge⟩ := execPcint_cases s t hexec
  · exact ⟨rfl, rfl, rfl⟩
  · exact watchdogKept_dispatchRx s
  · exact watchdogKept_trans (watchdogKept_dispatchRx s) (watchdogKept_controlEdge hedge)

theorem exec_rx_watchdogKept (b : Bool) (s : State) : ∃ t, exec (.rx b) s = .next t ∧ WatchdogKept s t := by
  refine ⟨_, rfl, ?_⟩
  split <;> exact ⟨rfl, rfl, rfl⟩

theorem exec_ctl_watchdogKept (b : Bool) (s : State) : ∃ t, exec (.ctl b) s = .next t ∧ WatchdogKept s t := by
  refine ⟨_, rfl, ?_⟩
  split <;> exact ⟨rfl, rfl, rfl⟩

theorem exec_por (h : 4 ≤ s.par.nvSize) : exec .por s = .next (resetTo s) := by
  change resetEngine s = _
  rw [resetEngine_eq, if_pos h]

/-- One event of a run whose misses stay below the timeout: it completes without an expiry, and the misses of the rest stay
below the timeout from the count it leaves. -/
theorem exec_event_of_missesStayBelow {i : Instr} {rest : List Instr} (hsize : 4 ≤ s.par.nvSize) (hi : i.slot = .event)
    (hmisses : missesStayBelow s.par.wdtTimeout.toNat s.wdtMissed.toNat (i :: rest) = true) :
    ∃ t, exec i s = .next t ∧ t.par = s.par ∧ t.faultWdt = s.faultWdt ∧
      missesStayBelow s.par.wdtTimeout.toNat t.wdtMissed.toNat rest = true := by
  cases i with
  | tick =>
    refine ⟨_, exec_tick s, tickBody_par _, tickBody_faultWdt _, ?_⟩
    rw [tickBody_wdtMissed]
    exact hmisses
  | miss =>
    obtain ⟨hbelow, hrest⟩ : s.wdtMissed.toNat + 1 < s.par.wdtTimeout.toNat ∧
        missesStayBelow s.par.wdtTimeout.toNat (s.wdtMissed.toNat + 1) rest = true := by
      simpa [missesStayBelow] using hmisses
    have hcount : (s.wdtMissed + 1).toNat = s.wdtMissed.toNat + 1 := by bv_omega
    refine ⟨_, exec_miss_below (by bv_omega), rfl, rfl, ?_⟩
    rw [countMiss_wdtMissed, hcount]
    exact hrest
  | por =>
    refine ⟨_, exec_por hsize, by simp [resetTo], by simp [resetTo], ?_⟩
    rw [resetTo, loadConfig_wdtMissed, clearEngine_wdtMissed]
    exact hmisses
  | pcint =>
    obtain ⟨t, hexec, hpar, hfault, hmissed⟩ := exec_pcint_watchdogKept hsize
    exact ⟨t, hexec, hpar, hfault, hmissed ▸ hmisses⟩
  | rx b =>
    obtain ⟨t, hexec, hpar, hfault, hmissed⟩ := exec_rx_watchdogKept b s
    exact ⟨t, hexec, hpar, hfault, hmissed ▸ hmisses⟩
  | ctl b =>
    obtain ⟨t, hexec, hpar, hfault, hmissed⟩ := exec_ctl_watchdogKept b s
    exact ⟨t, hexec, hpar, hfault, hmissed ▸ hmisses⟩
  | _ => cases hi

/-- Settles O19: by induction on the events, one at a time. -/
theorem watchdogNeverExpiresEarly : Obligations.WatchdogNeverExpiresEarly := by
  intro es s hsize hevents hmisses
  induction es generalizing s with
  | nil => exact ⟨s, rfl, rfl⟩
  | cons i rest ih =>
    obtain ⟨hi, hrest⟩ := List.forall_mem_cons.mp hevents
    obtain ⟨u, hexec, hpar, hfault, hmisses'⟩ := exec_event_of_missesStayBelow hsize hi hmisses
    rw [← hpar] at hsize hmisses'
    obtain ⟨t, hrun, hfault'⟩ := ih u hsize hrest hmisses'
    refine ⟨t, ?_, hfault'.trans hfault⟩
    rw [runEvents, hexec]
    exact hrun

/-! ## The step (40 R140) -/

theorem step_of_decoded {i : Instr} (h : decodeEvent (fetchWord s).1 = .ok i) : step s = exec i (fetchWord s).2 := by
  simp [step, h]

theorem fetchWord_of_trace_nil (h : s.trace = []) :
    fetchWord s = (choiceWord (Config.envChoice s.envIndex), { s with envIndex := s.envIndex + 1 }) := by
  simp [fetchWord, h]

/-- Settles O8: the fetch takes the placed word, or the environment's choice, which spells an event. -/
theorem stepRunsTheDecodedEvent : Obligations.StepRunsTheDecodedEvent := by
  refine ⟨fun s w rest i htrace hword => ?placed, fun s htrace => ?chosen⟩
  case placed =>
    have hstep := step_of_decoded (s := s) (i := i)
    rw [fetchWord_of_trace_cons htrace] at hstep
    exact hstep hword
  case chosen =>
    obtain ⟨i, hword⟩ := decodeEvent_choiceWord (Config.envChoice s.envIndex)
    have hstep := step_of_decoded (s := s) (i := i)
    rw [fetchWord_of_trace_nil htrace] at hstep
    exact ⟨i, hword, hstep hword⟩

end Sys2Proof.Machine

/-!
PROOFS of the family 41_edge_lowpass.md: the pins, the edge dispatcher and the delay unit. What an admitted `PCINT` does is said once
for each set of pins that changed; a receiver edge never looks at the control pin (`rxEdge_withControlPin`), and a control edge keeps
what `ControlKept` lists.
-/

namespace Sys2Proof.Machine

open Sys2Proof.Claims

variable {s t : State}

/-! ## Level changes (41 R176) -/

/-- Settles O22: the level written is the one the pin had, or it differs and the latch is set. -/
theorem levelEventsDriveThePins : Obligations.LevelEventsDriveThePins := by
  intro s b
  refine ⟨congrArg Host.Outcome.next ?rx, congrArg Host.Outcome.next ?ctl⟩
  case rx => by_cases hb : b = s.rxLevel <;> simp [hb]
  case ctl => by_cases hb : b = s.ctlLevel <;> simp [hb]

/-! ## What a dispatch runs, by the pins that changed (41 R171) -/

theorem exec_pcint_of_admitted (hpending : s.pcPending = true) (henabled : s.edgeIrqEn = true) :
    exec .pcint s = dispatchEdges s := by
  simp [exec_pcint, pcintAdmitted, hpending, henabled]

theorem dispatchRx_eq (s : State) :
    dispatchRx s = if s.rxLevel ≠ s.pinSnapshotRx then rxEdge (sampled s) else sampled s := by
  have hsnapshot : takeSnapshot s = sampled s := rfl
  simp [dispatchRx, rxChanged, hsnapshot]

theorem dispatchEdges_eq (s : State) :
    dispatchEdges s =
      if s.ctlLevel ≠ s.pinSnapshotCtl then controlEdge s.ctlLevel (dispatchRx s) else .next (dispatchRx s) := by
  simp [dispatchEdges, ctlChanged]

theorem exec_pcint_of_receiverEdge (h : ReceiverEdge s) : exec .pcint s = .next (rxEdge (sampled s)) := by
  obtain ⟨hpending, henabled, hrx, hctl⟩ := h
  rw [exec_pcint_of_admitted hpending henabled, dispatchEdges_eq, if_neg (not_not.mpr hctl), dispatchRx_eq, if_pos hrx]

theorem exec_pcint_of_controlEdge (h : ControlEdge s) : exec .pcint s = controlEdge s.ctlLevel (sampled s) := by
  obtain ⟨hpending, henabled, hrx, hctl⟩ := h
  rw [exec_pcint_of_admitted hpending henabled, dispatchEdges_eq, if_pos hctl, dispatchRx_eq, if_neg (not_not.mpr hrx)]

theorem exec_pcint_of_bothEdges (hpending : s.pcPending = true) (henabled : s.edgeIrqEn = true)
    (hrx : s.rxLevel ≠ s.pinSnapshotRx) (hctl : s.ctlLevel ≠ s.pinSnapshotCtl) :
    exec .pcint s = controlEdge s.ctlLevel (rxEdge (sampled s)) := by
  rw [exec_pcint_of_admitted hpending henabled, dispatchEdges_eq, if_pos hctl, dispatchRx_eq, if_pos hrx]

/-! ## The receiver edge (41 R173, R174, R180, R181) -/

theorem rxEdge_of_direct (h : s.cfgLowpass = false) : rxEdge s = deliverEdge s := by simp [rxEdge, h]

theorem rxEdge_of_idle (h : s.cfgLowpass = true) (hidle : s.lpPending = false) : rxEdge s = lowpassArm s := by
  simp [rxEdge, h, hidle]

theorem rxEdge_of_pending (h : s.cfgLowpass = true) (hpending : s.lpPending = true) : rxEdge s = lowpassCancel s := by
  simp [rxEdge, h, hpending]

/-- Settles O24: the dispatch is the receiver edge of the sampled state, in its three cases. -/
theorem pcintDispatchesReceiverEdge : Obligations.PcintDispatchesReceiverEdge := by
  intro s hedge
  rw [exec_pcint_of_receiverEdge hedge]
  refine ⟨fun hdirect => ?direct, fun hlowpass hidle => ?arm, fun hlowpass hpending => ?cancel⟩
  case direct =>
    rw [rxEdge_of_direct (s := sampled s) hdirect]
    exact ⟨_, exec_activeFilter true (sampled s), rfl⟩
  case arm =>
    rw [rxEdge_of_idle (s := sampled s) hlowpass hidle]
    rfl
  case cancel =>
    rw [rxEdge_of_pending (s := sampled s) hlowpass hpending]
    rfl

/-! ## The order of the two edges (41 R172) -/

/-- The control pin at a level that its snapshot has seen. -/
def withControlPin (level : Bool) (s : State) : State := { s with ctlLevel := level, pinSnapshotCtl := level }

theorem legacyEdge_withControlPin (level : Bool) (s : State) :
    legacyEdge (withControlPin level s) = withControlPin level (legacyEdge s) := by
  unfold legacyEdge
  rw [apply_ite (withControlPin level)]
  rfl

theorem finishTrain_withControlPin (level : Bool) (s : State) :
    finishTrain (withControlPin level s) = withControlPin level (finishTrain s) := by
  unfold finishTrain
  rw [apply_ite (withControlPin level)]
  rfl

theorem trainEdge_withControlPin (d : Duration) (level : Bool) (s : State) :
    trainEdge d (withControlPin level s) = withControlPin level (trainEdge d s) := by
  unfold trainEdge
  simp only [apply_ite (withControlPin level), ← finishTrain_withControlPin]
  rfl

theorem applyFilter_withControlPin (level : Bool) (s : State) :
    applyFilter true (withControlPin level s) = withControlPin level (applyFilter true s) := by
  have hfilter : (withControlPin level s).cfgFilter = s.cfgFilter := rfl
  unfold applyFilter
  rw [hfilter]
  cases s.cfgFilter with
  | nop => rfl
  | testSignal => rfl
  | legacyDebounce => exact legacyEdge_withControlPin level s
  | trainBuffer => exact trainEdge_withControlPin s.recvingSince level s
  | passthrough => rfl

theorem deliverEdge_withControlPin (level : Bool) (s : State) :
    deliverEdge (withControlPin level s) = withControlPin level (deliverEdge s) := by
  unfold deliverEdge
  rw [applyFilter_withControlPin]
  rfl

/-- A receiver edge does the same whatever the level of the control pin. -/
theorem rxEdge_withControlPin (level : Bool) (s : State) :
    rxEdge (withControlPin level s) = withControlPin level (rxEdge s) := by
  unfold rxEdge
  simp only [apply_ite (withControlPin level), ← deliverEdge_withControlPin]
  rfl

/-- A second dispatch in a row finds the latch and the snapshots as it would leave them. -/
theorem sampled_eq_self (hlatch : s.pcPending = false) (hrx : s.pinSnapshotRx = s.rxLevel)
    (hctl : s.pinSnapshotCtl = s.ctlLevel) : sampled s = s := by
  cases s
  simp_all [sampled]

/-- Once the receiver edge is handled alone, with the control pin still at its snapshot, the control pin's change is latched. -/
def controlChangeLatched (s : State) : State :=
  { withControlPin s.pinSnapshotCtl (rxEdge (sampled s)) with ctlLevel := s.ctlLevel, pcPending := true }

theorem controlEdge_controlChangeLatched (henabled : s.edgeIrqEn = true) (hctl : s.ctlLevel ≠ s.pinSnapshotCtl) :
    ControlEdge (controlChangeLatched s) :=
  ⟨rfl, by simpa [controlChangeLatched, withControlPin, sampled] using henabled,
    by simp [controlChangeLatched, withControlPin, sampled], hctl⟩

/-- The second dispatch samples the state that the receiver edge leaves where both pins changed. -/
theorem sampled_controlChangeLatched (s : State) : sampled (controlChangeLatched s) = rxEdge (sampled s) := by
  have hlevel : (rxEdge (sampled s)).ctlLevel = s.ctlLevel := rxEdge_ctlLevel (sampled s)
  have hself : sampled (rxEdge (sampled s)) = rxEdge (sampled s) :=
    sampled_eq_self (by simp [sampled]) (by simp [sampled]) (by simp [sampled])
  rw [controlChangeLatched, ← hlevel]
  exact hself

/-- Settles O30: the receiver edge alone leaves the control pin at its snapshot; the second dispatch samples the state from which
the one dispatch handles its control edge. -/
theorem receiverEdgeBeforeControlEdge : Obligations.ReceiverEdgeBeforeControlEdge := by
  intro s hpending henabled hrx hctl
  have hfirst : exec .pcint { s with ctlLevel := s.pinSnapshotCtl } =
      .next (withControlPin s.pinSnapshotCtl (rxEdge (sampled s))) := by
    rw [← rxEdge_withControlPin]
    exact exec_pcint_of_receiverEdge ⟨hpending, henabled, hrx, rfl⟩
  have hsecond := exec_pcint_of_controlEdge (controlEdge_controlChangeLatched henabled hctl)
  rw [sampled_controlChangeLatched] at hsecond
  exact ⟨_, hfirst, (exec_pcint_of_bothEdges hpending henabled hrx hctl).trans hsecond.symm⟩

/-! ## The frame of a dispatch (41 R171, 20 R84) -/

/-- What a control edge keeps of the state it finds. -/
def ControlKept (s t : State) : Prop :=
  t.pcPending = s.pcPending ∧ t.pinSnapshotRx = s.pinSnapshotRx ∧ t.pinSnapshotCtl = s.pinSnapshotCtl ∧
  t.par = s.par ∧ t.rxLevel = s.rxLevel ∧ t.ctlLevel = s.ctlLevel ∧ t.edgeIrqEn = s.edgeIrqEn ∧
  t.tickCount = s.tickCount ∧ t.outRemaining = s.outRemaining ∧ t.wdtMissed = s.wdtMissed ∧
  t.sigActive = s.sigActive ∧ t.sigRep = s.sigRep ∧ t.sigPos = s.sigPos ∧
  t.faultWdt = s.faultWdt ∧ t.refused = s.refused ∧ t.trace = s.trace ∧ t.envIndex = s.envIndex ∧
  ∀ a, a ≠ 1 → a ≠ 2 → a ≠ 3 → Memory.read t.nv a = Memory.read s.nv a

theorem controlKept_configured (nf : FilterMode) (nl : Bool) (hs : Memory.wf s.nv = true) :
    ControlKept s (configured nf nl s) := by
  have hnv : ∀ a, a ≠ 1 → a ≠ 2 → a ≠ 3 → Memory.read (configured nf nl s).nv a = Memory.read s.nv a := by
    intro a h1 h2 h3
    rw [configured_nv_read nf nl a hs, if_neg h1, if_neg h3, if_neg h2]
  simpa [ControlKept, configured] using hnv

theorem controlKept_command {i : Instr} (hi : i.slot = .command) (hs : Memory.wf s.nv = true) (h : exec i s = .next t) :
    ControlKept s t := by
  obtain ⟨o, rfl⟩ | ⟨nf, nl, rfl, -⟩ := command_cases i s t hi h
  · simp [ControlKept]
  · exact controlKept_configured nf nl hs

theorem controlKept_controlEdge {level : Bool} (hs : Memory.wf s.nv = true) (h : controlEdge level s = .next t) :
    ControlKept s t := by
  obtain rfl | rfl | ⟨d, rfl⟩ | ⟨d, rfl⟩ | hexec := controlEdge_cases level s t h
  · simp [ControlKept]
  · simp [ControlKept]
  · simp [ControlKept]
  · simp [ControlKept]
  · exact controlKept_command (s := sessionReset { s with ctlActive := false }) (decodeCommand_slot s.ctlValue) hs hexec

/-- Settles O31: the receiver's part takes the snapshot and keeps the rest, and a control edge after it keeps what `ControlKept` lists. -/
theorem pcintFrame : Obligations.PcintFrame := by
  intro s t hadmitted hs hexec
  obtain ⟨hlatch, hrx, hctl⟩ := dispatchRx_sampled s
  obtain ⟨hnot, -⟩ | ⟨-, rfl | hedge⟩ := execPcint_cases s t hexec
  · exact absurd hadmitted (by simp [hnot])
  · simp [hlatch, hrx, hctl]
  · have hkept := controlKept_controlEdge (s := dispatchRx s) (by simpa using hs) hedge
    simpa [ControlKept, hlatch, hrx, hctl] using hkept

/-! ## The debounce window (41 R185) -/

/-- A deferral with `count` advances to go. -/
def deferred (count : BitVec 8) (s : State) : State := { s with lpPending := true, lpCount := count }

theorem lowpassArm_eq_deferred (s : State) : lowpassArm s = deferred s.par.lpDelay s := rfl

theorem lowpassStep_deferred {count : BitVec 8} (h : count ≠ 1) :
    lowpassStep (deferred count s) = deferred (count - 1) s := by
  obtain ⟨hidle, -⟩ | ⟨-, -, heq⟩ | ⟨-, hone, -⟩ := lowpassStep_cases (deferred count s)
  · cases hidle
  · exact heq
  · exact absurd hone h

theorem lowpassStep_deferred_one (s : State) :
    lowpassStep (deferred 1 s) = deliverEdge { s with lpCount := 0, lpPending := false } := by
  obtain ⟨hidle, -⟩ | ⟨-, hne, -⟩ | ⟨-, -, heq⟩ := lowpassStep_cases (deferred 1 s)
  · cases hidle
  · exact absurd rfl hne
  · exact heq

theorem lowpassStep_of_idle (h : s.lpPending = false) : lowpassStep s = s := by simp [lowpassStep, h]

/-- Fewer advances than a deferral has to go only count it down. -/
theorem lowpassStep_iterate_deferred (count : BitVec 8) (n : Nat) (h : n < count.toNat) :
    lowpassStep^[n] (deferred count s) = deferred (count - BitVec.ofNat 8 n) s := by
  induction n with
  | zero => simp
  | succ n ih =>
    have hgo : count - BitVec.ofNat 8 n ≠ 1 := by bv_omega
    rw [Function.iterate_succ_apply', ih (by omega), lowpassStep_deferred hgo]
    congr 1
    bv_omega

/-- The last advance a deferral has to go delivers the edge, and no later one does anything. -/
theorem lowpassStep_iterate_deferred_of_le {count : BitVec 8} {n : Nat} (hpos : 1 ≤ count.toNat) (h : count.toNat ≤ n) :
    lowpassStep^[n] (deferred count s) = deliverEdge { s with lpCount := 0, lpPending := false } := by
  induction n, h using Nat.le_induction with
  | base =>
    obtain ⟨m, hm⟩ := Nat.exists_eq_add_of_le' hpos
    have hone : count - BitVec.ofNat 8 m = 1 := by bv_omega
    rw [hm, Function.iterate_succ_apply', lowpassStep_iterate_deferred count m (by omega), hone, lowpassStep_deferred_one]
  | succ n _ ih =>
    rw [Function.iterate_succ_apply', ih]
    exact lowpassStep_of_idle (by simp)

/-- Dropping the deferral of a state that has none. -/
theorem deferral_dropped_eq_self (hidle : s.lpPending = false) (hcount : s.lpCount = 0) :
    { s with lpCount := 0, lpPending := false } = s := by
  rw [← hidle, ← hcount]

/-- Settles O32: the first edge arms a deferral of `LP_DELAY` advances; a second edge finds it still pending and cancels it, or the
advances have delivered it. -/
theorem debounceWindowIsExact : Obligations.DebounceWindowIsExact := by
  intro s hlowpass hidle hcount hdelay
  rw [rxEdge_of_idle hlowpass hidle, lowpassArm_eq_deferred]
  have hdropped := deferral_dropped_eq_self hidle hcount
  refine ⟨fun n hn => ?cancelled, fun n hn => ?delivered⟩
  case cancelled =>
    rw [lowpassStep_iterate_deferred _ n hn, rxEdge_of_pending (s := deferred _ s) hlowpass rfl]
    exact congrArg (raiseOutcome (.spikeCancelled s.tickCount)) hdropped
  case delivered =>
    rw [lowpassStep_iterate_deferred_of_le hdelay hn, hdropped]
    rfl

end Sys2Proof.Machine

/-!
PROOFS of the family 42_signature.md: the encoder's pulses and what a signature keeps. The duration of a payload sub-pulse is said once,
by its slot (`frameDuration_payload`), which gives the table of 30 R112 and the frame read back (R217); `PulsesSent` says what a
number of pulses leaves, for the pulses of a frame alone (R213) and for those a run of ticks emits (R215).
-/

namespace Sys2Proof.Machine

open Sys2Proof.Claims

variable {s t : State}

/-! ## The durations of a frame (30 R112, R114, 42 R210) -/

/-- Position `3 + 4 · slot + k` is sub-pulse `k` of a payload slot. -/
theorem sigPhase_payload {slot k : Nat} (hslot : slot < 52) (hk : k < 4) :
    sigPhase (3 + 4 * slot + k) =
      .payload (fieldOfSlot slot) (slot - fieldOffset (fieldOfSlot slot)) (BitVec.ofNat 2 k) := by
  have hdiv : (3 + 4 * slot + k - 3) / 4 = slot := by omega
  have hmod : (3 + 4 * slot + k - 3) % 4 = k := by omega
  rw [sigPhase, if_neg (by omega), if_neg (by omega), hdiv, hmod]

/-- The payload bit a slot of the frame carries (42 R209, R210). -/
def slotBit (s : State) (slot : Nat) : Bool := payloadBit s (fieldOfSlot slot) (slot - fieldOffset (fieldOfSlot slot))

theorem frameDuration_payload (s : State) {slot k : Nat} (hslot : slot < 52) (hk : k < 4) :
    frameDuration s (3 + 4 * slot + k) = subPulse s.par (slotBit s slot) (BitVec.ofNat 2 k) := by
  rw [frameDuration, sigPhase_payload hslot hk]
  rfl

/-- A sub-pulse in the arithmetic of its rule. -/
theorem subPulse_eq_payloadDuration (s : State) (field j : Nat) {k : Nat} (hk : k < 4) :
    subPulse s.par (payloadBit s field j) (BitVec.ofNat 2 k) = payloadDuration s (payloadValue s field).toNat j k := by
  have hbit : payloadBit s field j = decide ((payloadValue s field).toNat / 2 ^ j % 2 = 1) :=
    Nat.testBit_eq_decide_div_mod_eq
  have hlong : ∀ m < 4, (BitVec.ofNat 2 k = BitVec.ofNat 2 m ↔ k = m) := by
    intro m hm
    rw [← BitVec.toNat_inj, BitVec.toNat_ofNat, BitVec.toNat_ofNat, Nat.mod_eq_of_lt hk, Nat.mod_eq_of_lt hm]
  have h1 := hlong 1 (by decide)
  have h3 := hlong 3 (by decide)
  rw [hbit, payloadDuration, subPulse, subPulseLong]
  by_cases h : (payloadValue s field).toNat / 2 ^ j % 2 = 1
  · simp [h, h1]
  · simp [h, h3]

/-- The rows of 30 R112 for the payload fields, by slot. -/
theorem pulseDuration_payload (s : State) {slot k : Nat} (hslot : slot < 52) (hk : k < 4) :
    pulseDuration s (3 + 4 * slot + k) =
      payloadDuration s (payloadValue s (fieldOfSlot slot)).toNat (slot - fieldOffset (fieldOfSlot slot)) k := by
  have hrow : ∀ value base off, base = 3 + 4 * off → off ≤ slot →
      payloadDuration s value ((3 + 4 * slot + k - base) / 4) ((3 + 4 * slot + k - base) % 4) =
        payloadDuration s value (slot - off) k := by
    intro value base off hbase hoff
    congr 1 <;> omega
  obtain h | ⟨h, h'⟩ | ⟨h, h'⟩ | h : slot < 16 ∨ (16 ≤ slot ∧ slot < 32) ∨ (32 ≤ slot ∧ slot < 48) ∨ 48 ≤ slot := by
    omega
  all_goals
    simp (disch := omega) only [pulseDuration, fieldOfSlot, fieldOffset, if_pos, if_neg]
    exact hrow _ _ _ rfl (by omega)

/-- The table of 30 R112 is the encoder's: a header, a payload sub-pulse or a footer at every position. -/
theorem frameDuration_eq_pulseDuration (s : State) (p : Nat) : frameDuration s p = pulseDuration s p := by
  obtain hheader | ⟨slot, k, hslot, hk, rfl⟩ | hfooter :
      p ≤ 2 ∨ (∃ slot k, slot < 52 ∧ k < 4 ∧ p = 3 + 4 * slot + k) ∨ 211 ≤ p := by
    by_cases h : 3 ≤ p ∧ p < 211
    · exact .inr (.inl ⟨(p - 3) / 4, (p - 3) % 4, by omega, by omega, by omega⟩)
    · omega
  · interval_cases p <;> rfl
  · rw [frameDuration_payload s hslot hk, pulseDuration_payload s hslot hk]
    exact subPulse_eq_payloadDuration s _ _ hk
  · obtain ⟨i, rfl⟩ := Nat.exists_eq_add_of_le hfooter
    match i with
    | 0 | 1 => rfl
    | i + 2 => simp (disch := omega) only [pulseDuration, frameDuration, sigPhase, if_neg, if_pos, Nat.add_sub_cancel_left,
        PulseTriple.pulse]

/-! ## A tick in a signature (42 R211, R212, R214) -/

/-- With the pulse elapsed in an active signature, a tick is one step of the encoder (40 R147). -/
theorem exec_tick_of_active (h : s.outRemaining.toNat ≤ 1) (hactive : s.sigActive = true) :
    exec .tick s = .next (signatureStep (counted s)) := by
  have hcounted : (counted s).sigActive = true := hactive
  rw [exec_tick]
  simp [tickBody, pulseRunning, signatureDue, hcounted, counted_outRemaining_eq_zero h]

theorem exec_tick_of_sending (h : s.outRemaining.toNat ≤ 1) (hactive : s.sigActive = true)
    (hrep : s.sigRep ≠ s.par.sigRepeats) : exec .tick s = .next (framePulse (counted s)) := by
  have hdone : signatureDone (counted s) = false := beq_eq_false_iff_ne.mpr hrep
  rw [exec_tick_of_active h hactive, signatureStep, hdone]
  rfl

theorem exec_tick_of_sent (h : s.outRemaining.toNat ≤ 1) (hactive : s.sigActive = true)
    (hrep : s.sigRep = s.par.sigRepeats) : exec .tick s = .next (endSignature (counted s)) := by
  have hdone : signatureDone (counted s) = true := beq_iff_eq.mpr hrep
  rw [exec_tick_of_active h hactive, signatureStep, if_pos hdone]

/-- The next pulse of the frame, its duration by the table of 30 R112. -/
theorem framePulse_eq_advancedPosition (s : State) :
    framePulse s = advancedPosition (toggled (pulseDuration s s.sigPos.toNat) s) := by
  rw [framePulse_eq, emitPulse_eq_advancedPosition, frameDuration_eq_pulseDuration]

/-- Settles O12: the frame's next pulse, its duration by the table. -/
theorem tickEmitsSignaturePulse : Obligations.TickEmitsSignaturePulse := by
  intro s h hactive hrep
  rw [exec_tick_of_sending h hactive hrep, framePulse_eq_advancedPosition]
  rfl

/-- Settles O13: the signature's end, from the counted state. -/
theorem tickEndsSignature : Obligations.TickEndsSignature := fun _ h hactive hrep => exec_tick_of_sent h hactive hrep

/-! ## The derived fields (42 R206, R207) -/

theorem index_toNat_le_four (f : FilterMode) : f.index.toNat ≤ 4 := by cases f <;> decide

theorem bitNat_le_one (b : Bool) : bitNat b ≤ 1 := by cases b <;> decide

/-- The version gives the filter index and the low-pass flag back. -/
theorem versionNat_digits (p : Params) (f : FilterMode) (l : Bool) :
    versionNat p f l % 10 = f.index.toNat ∧ versionNat p f l / 10 % 10 = bitNat l := by
  have hindex := index_toNat_le_four f
  have hlowpass := bitNat_le_one l
  unfold versionNat
  omega

/-- Settles O38: under a legal `VERSION_BASE` the version fits in its 16 bits. -/
theorem derivedFieldsFollowTheConfiguration : Obligations.DerivedFieldsFollowTheConfiguration := by
  intro s f l hbase
  have hindex := index_toNat_le_four f
  have hlowpass := bitNat_le_one l
  have hversion : (setConfig f l s).sigVersion.toNat = versionNat s.par f l := by
    rw [setConfig_eq_withConfig]
    refine (BitVec.toNat_ofNat _ _).trans (Nat.mod_eq_of_lt ?_)
    unfold versionNat
    omega
  have hchecksum : (setConfig f l s).sigChecksum.toNat = checksumNat s.par (versionNat s.par f l) := by
    rw [setConfig_eq_withConfig]
    exact (BitVec.toNat_ofNat _ _).trans (Nat.mod_mod _ _)
  rw [hchecksum, hversion]
  exact ⟨rfl, rfl, rfl, versionNat_digits s.par f l⟩

/-! ## The frame read back (42 R217) -/

/-- The bits of a number, least significant first, add up to its low `width` bits. -/
theorem sum_bits (v : BitVec 16) (width : Nat) :
    ((List.range width).map fun j => if v.getLsbD j then 2 ^ j else 0).sum = v.toNat % 2 ^ width := by
  induction width with
  | zero => simp [Nat.mod_one]
  | succ width ih =>
    rw [List.range_succ, List.map_append, List.sum_append, ih, Nat.mod_pow_succ, ← Nat.toNat_testBit, BitVec.testBit_toNat]
    cases h : v.getLsbD width <;> simp [h]

/-- Sub-pulse 1 of a payload slot is long exactly where its bit is 1 (30 R114). -/
theorem frameDuration_eq_long_iff (hdiffer : s.par.sigLong ≠ s.par.sigShort) {slot : Nat} (hslot : slot < 52) :
    frameDuration s (3 + 4 * slot + 1) = s.par.sigLong ↔ slotBit s slot = true := by
  rw [frameDuration_payload s hslot (by decide)]
  cases slotBit s slot <;> simp [subPulse, subPulseLong, hdiffer.symm]

/-- What is read from the slots of a payload field is the field's low bits. -/
theorem readField_frameDuration (hdiffer : s.par.sigLong ≠ s.par.sigShort) (field width : Nat)
    (hslots : ∀ j < width, fieldOffset field + j < 52 ∧ fieldOfSlot (fieldOffset field + j) = field) :
    readField (frameDuration s) s.par.sigLong (fieldOffset field) width = (payloadValue s field).toNat % 2 ^ width := by
  rw [← sum_bits, readField]
  congr 1
  apply List.map_congr_left
  intro j hj
  obtain ⟨hslot, hfield⟩ := hslots j (List.mem_range.mp hj)
  have hbit : slotBit s (fieldOffset field + j) = (payloadValue s field).getLsbD j := by
    rw [slotBit, hfield, Nat.add_sub_cancel_left, payloadBit]
  simp only [frameDuration_eq_long_iff hdiffer hslot, hbit]

/-- In every payload slot exactly one sub-pulse is long, the second or the fourth (30 R114). -/
theorem frameDuration_slot (s : State) {slot : Nat} (hslot : slot < 52) :
    frameDuration s (3 + 4 * slot) = s.par.sigShort ∧ frameDuration s (3 + 4 * slot + 2) = s.par.sigShort ∧
      (frameDuration s (3 + 4 * slot + 1) = s.par.sigLong ∧ frameDuration s (3 + 4 * slot + 3) = s.par.sigShort ∨
        frameDuration s (3 + 4 * slot + 1) = s.par.sigShort ∧ frameDuration s (3 + 4 * slot + 3) = s.par.sigLong) := by
  have hsub : ∀ k < 4, frameDuration s (3 + 4 * slot + k) = _ := fun k hk => frameDuration_payload s hslot hk
  rw [← Nat.add_zero (3 + 4 * slot), hsub 0 (by decide), hsub 1 (by decide), hsub 2 (by decide), hsub 3 (by decide)]
  cases slotBit s slot <;> simp [subPulse, subPulseLong]

/-- The pulse a tick starts at a position of the first frame. -/
theorem exec_tick_atPosition (hrepeats : s.par.sigRepeats ≠ 0) {p : Nat} (hp : p < 214) :
    ∃ t, exec .tick (atPosition p s) = .next t ∧ t.outLevel = (!s.outLevel) ∧ t.outRemaining = frameDuration s p := by
  have hpos : (atPosition p s).sigPos.toNat = p := (BitVec.toNat_ofNat _ _).trans (Nat.mod_eq_of_lt (by omega))
  refine ⟨_, exec_tick_of_sending (s := atPosition p s) (Nat.zero_le 1) rfl hrepeats.symm, ?_⟩
  rw [framePulse_eq, emitPulse_eq]
  refine ⟨rfl, ?_⟩
  change frameDuration (counted (atPosition p s)) (atPosition p s).sigPos.toNat = _
  rw [hpos]
  rfl

/-- Settles O51: the durations sent are the encoder's, and each payload field reads back as its value. -/
theorem frameReadsBackAsTheConfiguration : Obligations.FrameReadsBackAsTheConfiguration := by
  intro s hdiffer _ hrepeats hversion hchecksum
  have hread := readField_frameDuration (s := s) hdiffer
  have hfull (v : BitVec 16) : v.toNat % 2 ^ 16 = v.toNat := Nat.mod_eq_of_lt v.isLt
  have hreadVersion : readField (frameDuration s) s.par.sigLong 0 16 = s.sigVersion.toNat :=
    (hread 0 16 (by decide)).trans (hfull s.sigVersion)
  have hreadMin : readField (frameDuration s) s.par.sigLong 16 16 = s.par.minPulselen.toNat :=
    (hread 1 16 (by decide)).trans (hfull s.par.minPulselen)
  have hreadMax : readField (frameDuration s) s.par.sigLong 32 16 = s.par.maxPulselen.toNat :=
    (hread 2 16 (by decide)).trans (hfull s.par.maxPulselen)
  have hreadChecksum : readField (frameDuration s) s.par.sigLong 48 4 = s.sigChecksum.toNat :=
    (hread 3 4 (by decide)).trans (by simpa [payloadValue] using s.sigChecksum.isLt)
  obtain ⟨hfilter, hlowpass⟩ := versionNat_digits s.par s.cfgFilter s.cfgLowpass
  rw [← hversion] at hfilter hlowpass
  refine ⟨frameDuration s, fun p hp => exec_tick_atPosition hrepeats hp, fun slot hslot => frameDuration_slot s hslot, ?_⟩
  rw [hreadVersion, hreadMin, hreadMax, hreadChecksum]
  exact ⟨rfl, rfl, rfl, rfl, hfilter, hlowpass, hchecksum⟩

/-! ## The pulses of a frame (42 R211 to R213) -/

/-- `t` is what `q` pulses leave of the signature's fields, counted from a state `s` at position 0, with what a signature keeps. -/
structure PulsesSent (s : State) (q : Nat) (t : State) : Prop where
  par : t.par = s.par
  sigVersion : t.sigVersion = s.sigVersion
  sigChecksum : t.sigChecksum = s.sigChecksum
  sigActive : t.sigActive = s.sigActive
  edgeIrqEn : t.edgeIrqEn = s.edgeIrqEn
  lpPending : t.lpPending = s.lpPending
  outLevel : t.outLevel = (s.outLevel ^^ decide (q % 2 = 1))
  writes : t.outTrace.length = s.outTrace.length + q
  sigPos : t.sigPos = BitVec.ofNat 8 (q % 214)
  sigRep : t.sigRep = s.sigRep + BitVec.ofNat 8 (q / 214)

theorem pulsesSent_zero (hpos : s.sigPos = 0) : PulsesSent s 0 s where
  par := rfl
  sigVersion := rfl
  sigChecksum := rfl
  sigActive := rfl
  edgeIrqEn := rfl
  lpPending := rfl
  outLevel := by simp
  writes := rfl
  sigPos := hpos
  sigRep := by simp

theorem pulsesSent_counted {q : Nat} (h : PulsesSent s q t) : PulsesSent s q (counted t) := { h with }

/-- One toggle more turns the parity of the toggles. -/
theorem not_xor_odd (b : Bool) (q : Nat) : (!(b ^^ decide (q % 2 = 1))) = (b ^^ decide (q % 2 = 0)) := by
  rw [← Bool.xor_not, ← decide_not]
  simp

/-- One more pulse: a toggle, and the next position, which wraps at the end of a frame. -/
theorem pulsesSent_framePulse {q : Nat} (h : PulsesSent s q t) : PulsesSent s (q + 1) (framePulse t) := by
  have hlast : t.sigPos = 213 ↔ q % 214 = 213 := by
    have hpos := h.sigPos
    have hlt := Nat.mod_lt q (show 0 < 214 by decide)
    constructor <;> intro h' <;> bv_omega
  rw [framePulse_eq_advancedPosition]
  exact
    { h with
      outLevel := by
        simp only [advancedPosition, toggled, h.outLevel, not_xor_odd, Nat.succ_mod_two_eq_one_iff]
      writes := by simp [advancedPosition, toggled, h.writes, Nat.add_assoc]
      sigPos := by
        simp only [advancedPosition, toggled, hlast]
        rw [h.sigPos]
        split_ifs with hq
        · rw [show (q + 1) % 214 = 0 by omega]; rfl
        · rw [show (q + 1) % 214 = q % 214 + 1 by omega, BitVec.ofNat_add]; rfl
      sigRep := by
        simp only [advancedPosition, toggled, hlast]
        rw [h.sigRep]
        split_ifs with hq
        · rw [show (q + 1) / 214 = q / 214 + 1 by omega, BitVec.ofNat_add, BitVec.add_assoc]; rfl
        · rw [show (q + 1) / 214 = q / 214 by omega] }

theorem pulsesSent_framePulse_iterate (hpos : s.sigPos = 0) (n : Nat) : PulsesSent s n (framePulse^[n] s) := by
  induction n with
  | zero => exact pulsesSent_zero hpos
  | succ n ih =>
    rw [Function.iterate_succ_apply']
    exact pulsesSent_framePulse ih

theorem framePulse_outTrace (s : State) : (framePulse s).outTrace = s.outTrace ++ [(s.tickCount, !s.outLevel)] := by
  rw [framePulse_eq_advancedPosition]
  rfl

theorem framePulse_iterate_tickCount (n : Nat) : (framePulse^[n] s).tickCount = s.tickCount := by
  induction n with
  | zero => rfl
  | succ n ih => rw [Function.iterate_succ_apply', framePulse_tickCount, ih]

/-- Settles O50: by induction on the pulses for the record, and by the count of 214 pulses for the rest. -/
theorem frameKeepsThePolarity : Obligations.FrameKeepsThePolarity := by
  intro s hpos
  refine ⟨fun n => ?record, ?frame⟩
  case record =>
    induction n with
    | zero => simp
    | succ n ih =>
      have hlevel : (!(framePulse^[n] s).outLevel) = (s.outLevel ^^ decide (n % 2 = 0)) := by
        rw [(pulsesSent_framePulse_iterate hpos n).outLevel, not_xor_odd]
      rw [Function.iterate_succ_apply', framePulse_outTrace, framePulse_iterate_tickCount, hlevel, ih, List.range_succ,
        List.map_append, List.append_assoc]
      rfl
  case frame =>
    have hsent := pulsesSent_framePulse_iterate hpos 214
    exact ⟨hsent.outLevel.trans (Bool.xor_false _), hsent.sigPos, hsent.sigRep⟩

/-! ## A signature, tick by tick (42 R214, R215, 40 R144) -/

theorem pulseDuration_of_pulsesSent {q : Nat} (h : PulsesSent s q t) (p : Nat) : pulseDuration t p = pulseDuration s p := by
  simp only [pulseDuration, payloadDuration, h.par, h.sigVersion, h.sigChecksum]

theorem counted_iterate_outRemaining (n : Nat) : (counted^[n] s).outRemaining.toNat = s.outRemaining.toNat - n := by
  induction n with
  | zero => rfl
  | succ n ih => rw [Function.iterate_succ_apply', counted_outRemaining_toNat, ih, Nat.sub_sub]

theorem pulsesSent_counted_iterate {q : Nat} (h : PulsesSent s q t) (n : Nat) : PulsesSent s q (counted^[n] t) := by
  induction n with
  | zero => exact h
  | succ n ih =>
    rw [Function.iterate_succ_apply']
    exact pulsesSent_counted ih

/-- Up to the last tick before the output pulse elapses, with no edge deferred, ticks only count. -/
theorem runEvents_ticks_of_pulse (hidle : s.lpPending = false) {n : Nat} (hn : n ≤ s.outRemaining.toNat - 1) :
    runEvents (List.replicate n .tick) s = .next (counted^[n] s) := by
  induction n generalizing s with
  | zero => rfl
  | succ n ih =>
    have hcount := counted_outRemaining_toNat s
    rw [List.replicate_succ, runEvents, exec_tick_of_pulse_idle (by omega) hidle, Function.iterate_succ_apply]
    exact ih (s := counted s) hidle (by omega)

theorem runEvents_ticks_add {m : Nat} (h : runEvents (List.replicate m .tick) s = .next t) (n : Nat) :
    runEvents (List.replicate (m + n) .tick) s = runEvents (List.replicate n .tick) t := by
  rw [List.replicate_add, runEvents_append, h]
  rfl

/-- The ticks from the start of pulse `p` of a frame to the start of the next one. -/
def pulseTicks (s : State) (p : Nat) : Nat := max (pulseDuration s p).toNat 1

/-- The ticks the first `q` pulses of a signature take. -/
def ticksOfPulses (s : State) (q : Nat) : Nat := ((List.range q).map fun p => pulseTicks s (p % 214)).sum

theorem ticksOfPulses_succ (s : State) (q : Nat) :
    ticksOfPulses s (q + 1) = ticksOfPulses s q + pulseTicks s (q % 214) := by
  simp [ticksOfPulses, List.range_succ]

/-- `n` frames take `n · S` ticks. -/
theorem ticksOfPulses_frames (s : State) (n : Nat) : ticksOfPulses s (214 * n) = n * frameTicks s := by
  induction n with
  | zero => simp [ticksOfPulses]
  | succ n ih =>
    have hframe : (((List.range 214).map (214 * n + ·)).map fun p => pulseTicks s (p % 214)).sum = frameTicks s := by
      rw [List.map_map, frameTicks]
      congr 1
      apply List.map_congr_left
      intro p hp
      rw [Function.comp_apply, Nat.mul_add_mod, Nat.mod_eq_of_lt (List.mem_range.mp hp), pulseTicks]
    rw [ticksOfPulses, Nat.mul_succ, List.range_add, List.map_append, List.sum_append, ← ticksOfPulses, ih, hframe,
      Nat.succ_mul]

/-- A signature waiting for its next pulse: `q` are sent, and the last of them has elapsed. -/
def Waiting (s : State) (q : Nat) (t : State) : Prop := PulsesSent s q t ∧ t.outRemaining.toNat ≤ 1

theorem framePulse_outRemaining_of_pulsesSent {q : Nat} (h : PulsesSent s q t) :
    (framePulse t).outRemaining = pulseDuration s (q % 214) := by
  have hpos : t.sigPos.toNat = q % 214 := by
    rw [h.sigPos, BitVec.toNat_ofNat]
    omega
  rw [framePulse_eq_advancedPosition, hpos, pulseDuration_of_pulsesSent h]
  rfl

/-- One pulse of a signature, from the tick that starts it to any tick before the next one starts. -/
theorem runEvents_ticks_of_waiting {q n : Nat} (hactive : s.sigActive = true) (hidle : s.lpPending = false)
    (hwaiting : Waiting s q t) (hmore : t.sigRep ≠ t.par.sigRepeats) (hn : n < pulseTicks s (q % 214)) :
    ∃ u, runEvents (List.replicate (n + 1) .tick) t = .next u ∧ PulsesSent s (q + 1) u ∧
      u.outRemaining.toNat = (pulseDuration s (q % 214)).toNat - n := by
  obtain ⟨hsent, helapsed⟩ := hwaiting
  have hcounted := pulsesSent_counted hsent
  have hstarted := pulsesSent_framePulse hcounted
  have hduration := framePulse_outRemaining_of_pulsesSent hcounted
  have hfits : n ≤ (framePulse (counted t)).outRemaining.toNat - 1 := by
    rw [hduration]
    unfold pulseTicks at hn
    omega
  refine ⟨counted^[n] (framePulse (counted t)), ?run, pulsesSent_counted_iterate hstarted n, ?left⟩
  case run =>
    rw [List.replicate_succ, runEvents, exec_tick_of_sending helapsed (hsent.sigActive.trans hactive) hmore]
    exact runEvents_ticks_of_pulse (hstarted.lpPending.trans hidle) hfits
  case left => rw [counted_iterate_outRemaining, hduration]

/-- Before its last frame is over a signature has another pulse to send. -/
theorem sigRep_ne_of_pulsesSent {q : Nat} (hrep : s.sigRep = 0) (h : PulsesSent s q t)
    (hq : q < 214 * s.par.sigRepeats.toNat) : t.sigRep ≠ t.par.sigRepeats := by
  have hreps := s.par.sigRepeats.isLt
  rw [h.sigRep, h.par, hrep]
  intro hall
  have hframes := congrArg BitVec.toNat hall
  rw [show 0 + BitVec.ofNat 8 (q / 214) = BitVec.ofNat 8 (q / 214) from BitVec.zero_add _, BitVec.toNat_ofNat] at hframes
  omega

/-- Every pulse of a signature takes its ticks: by induction on the pulses, up to the last of the last frame. -/
theorem signature_run (hactive : s.sigActive = true) (hidle : s.lpPending = false) (hrep : s.sigRep = 0)
    (hpos : s.sigPos = 0) (hout : s.outRemaining = 0) (q : Nat) (hq : q ≤ 214 * s.par.sigRepeats.toNat) :
    (∃ t, runEvents (List.replicate (ticksOfPulses s q) .tick) s = .next t ∧ Waiting s q t) ∧
      ∀ n ≤ ticksOfPulses s q, ∃ r t, runEvents (List.replicate n .tick) s = .next t ∧ PulsesSent s r t := by
  induction q with
  | zero =>
    have hstart := pulsesSent_zero hpos
    refine ⟨⟨s, rfl, hstart, by simp [hout]⟩, fun n hn => ⟨0, s, ?_, hstart⟩⟩
    rw [Nat.le_zero.mp hn]
    rfl
  | succ q ih =>
    obtain ⟨⟨t, hrun, hwaiting⟩, hbefore⟩ := ih (by omega)
    have hmore := sigRep_ne_of_pulsesSent hrep hwaiting.1 (by omega)
    rw [ticksOfPulses_succ]
    refine ⟨?_, fun n hn => ?_⟩
    · obtain ⟨m, hm⟩ : ∃ m, pulseTicks s (q % 214) = m + 1 := Nat.exists_eq_add_of_le' (Nat.le_max_right _ _)
      obtain ⟨u, hpulse, hsent, hleft⟩ := runEvents_ticks_of_waiting (n := m) hactive hidle hwaiting hmore (by omega)
      refine ⟨u, ?_, hsent, ?_⟩
      · rw [runEvents_ticks_add hrun, hm, hpulse]
      · unfold pulseTicks at hm
        omega
    · obtain hle | hlt := le_or_gt n (ticksOfPulses s q)
      · exact hbefore n hle
      · obtain ⟨m, rfl⟩ := Nat.exists_eq_add_of_lt hlt
        obtain ⟨u, hpulse, hsent, -⟩ := runEvents_ticks_of_waiting (n := m) hactive hidle hwaiting hmore (by omega)
        exact ⟨q + 1, u, by rw [Nat.add_assoc, runEvents_ticks_add hrun, hpulse], hsent⟩

/-- Settles O52: the pulses of all frames, and the tick that finds every frame sent. -/
theorem signatureLastsItsLength : Obligations.SignatureLastsItsLength := by
  intro s hactive hrep hpos hout hidle
  obtain ⟨⟨t, hrun, hsent, helapsed⟩, hbefore⟩ := signature_run hactive hidle hrep hpos hout _ le_rfl
  rw [ticksOfPulses_frames] at hrun hbefore
  refine ⟨fun n hn => ?during, endSignature (counted t), ?last, rfl, rfl, ?countdown, ?level, hsent.writes⟩
  case during =>
    obtain ⟨r, u, hrun, hsent⟩ := hbefore n hn
    exact ⟨u, hrun, hsent.sigActive.trans hactive, hsent.edgeIrqEn⟩
  case last =>
    have hall : t.sigRep = t.par.sigRepeats := by
      rw [hsent.sigRep, hsent.par, hrep]
      simp
    rw [Nat.add_comm, List.replicate_succ', runEvents_concat _ _ _ _ hrun]
    exact exec_tick_of_sent helapsed (hsent.sigActive.trans hactive) hall
  case countdown => exact congrArg Params.sigPeriod hsent.par
  case level =>
    change t.outLevel = s.outLevel
    simpa [Nat.mul_mod] using hsent.outLevel

/-! ## What a signature keeps, and who masks the edges (42 R216, R218) -/

/-- What no event but a reset changes while a signature is active (42 R216). -/
def ConfigurationKept (s t : State) : Prop :=
  t.cfgFilter = s.cfgFilter ∧ t.cfgLowpass = s.cfgLowpass ∧ t.sigVersion = s.sigVersion ∧
    t.sigChecksum = s.sigChecksum ∧ t.nv = s.nv

theorem configurationKept_refl (s : State) : ConfigurationKept s s := ⟨rfl, rfl, rfl, rfl, rfl⟩

/-- Settles O57: a `PCINT`, the only event that writes a configuration without a reset, is not admitted in a signature (I1). -/
theorem configurationIsFixedDuringSignature : Obligations.ConfigurationIsFixedDuringSignature := by
  intro i s t h hactive hi hpor hmiss hexec
  change ConfigurationKept s t
  cases i with
  | tick =>
    cases hexec
    simp [ConfigurationKept]
  | pcint =>
    obtain ⟨-, rfl⟩ | ⟨hadmitted, -⟩ := execPcint_cases s t hexec
    · exact configurationKept_refl t
    · simp [h.sigActive_false_of_pcintAdmitted hadmitted] at hactive
  | rx b | ctl b =>
    cases hexec
    split <;> exact configurationKept_refl s
  | miss =>
    rw [exec_miss_below (hmiss rfl)] at hexec
    cases hexec
    exact configurationKept_refl s
  | por => exact absurd rfl hpor
  | _ => cases hi

theorem command_edgeIrqEn {i : Instr} (hi : i.slot = .command) (h : exec i s = .next t) : t.edgeIrqEn = s.edgeIrqEn := by
  obtain ⟨o, rfl⟩ | ⟨nf, nl, rfl, -⟩ := command_cases i s t hi h
  · rfl
  · simp [configured]

theorem controlEdge_edgeIrqEn {level : Bool} (h : controlEdge level s = .next t) : t.edgeIrqEn = s.edgeIrqEn := by
  obtain rfl | rfl | ⟨d, rfl⟩ | ⟨d, rfl⟩ | hexec := controlEdge_cases level s t h
  · simp
  · rfl
  · simp
  · rfl
  · exact command_edgeIrqEn (s := sessionReset { s with ctlActive := false }) (decodeCommand_slot s.ctlValue) hexec

theorem pcint_edgeIrqEn (h : exec .pcint s = .next t) : t.edgeIrqEn = s.edgeIrqEn := by
  obtain ⟨-, rfl⟩ | ⟨-, rfl | hedge⟩ := execPcint_cases s t h
  · rfl
  · simp
  · simpa using controlEdge_edgeIrqEn hedge

theorem resetEngine_edgeIrqEn (h : resetEngine s = .next t) : t.edgeIrqEn = true := by
  rw [resetEngine_eq] at h
  split at h
  · cases h; simp [resetTo]
  · cases h

/-- Of the paths of a tick only a signature's start masks edges and only its end unmasks them. -/
theorem tickBody_edgeIrqEn (s : State) :
    (tickBody s).edgeIrqEn = s.edgeIrqEn ∨
      (s.sigActive = false ∧ (tickBody s).sigActive = true ∧ (tickBody s).edgeIrqEn = false) ∨
      (s.sigActive = true ∧ s.sigRep = s.par.sigRepeats ∧ (tickBody s).sigActive = false ∧
        (tickBody s).edgeIrqEn = true) := by
  obtain ⟨-, heq⟩ | ⟨-, hidle, -, heq⟩ | ⟨-, hactive, hrep, heq⟩ | ⟨-, -, -, heq⟩ | ⟨-, -, -, heq⟩ := tickBody_cases s
  case inr.inl => exact .inr (.inl ⟨hidle, by rw [heq]; rfl, by rw [heq]; rfl⟩)
  case inr.inr.inl => exact .inr (.inr ⟨hactive, hrep, by rw [heq]; rfl, by rw [heq]; rfl⟩)
  all_goals exact .inl (by rw [heq]; simp)

/-- An event keeps the edge-interrupt enable, starts or ends a signature, or resets the engine. -/
theorem event_edgeIrqEn {i : Instr} (hi : i.slot = .event) (h : exec i s = .next t) :
    t.edgeIrqEn = s.edgeIrqEn ∨
      (i = .tick ∧ s.sigActive = false ∧ t.sigActive = true ∧ t.edgeIrqEn = false) ∨
      (i = .tick ∧ s.sigActive = true ∧ s.sigRep = s.par.sigRepeats ∧ t.sigActive = false ∧ t.edgeIrqEn = true) ∨
      ((i = .por ∨ i = .miss ∧ s.par.wdtTimeout ≤ s.wdtMissed + 1) ∧ t.edgeIrqEn = true) := by
  cases i with
  | tick =>
    cases h
    simpa using tickBody_edgeIrqEn (tickPrologue s)
  | pcint => exact .inl (pcint_edgeIrqEn h)
  | rx b | ctl b =>
    cases h
    left
    split <;> rfl
  | miss =>
    by_cases hexpired : s.par.wdtTimeout ≤ s.wdtMissed + 1
    · rw [exec_miss_expiring hexpired] at h
      exact .inr (.inr (.inr ⟨.inr ⟨rfl, hexpired⟩, resetEngine_edgeIrqEn h⟩))
    · rw [exec_miss_below (BitVec.not_le.mp hexpired)] at h
      cases h
      exact .inl rfl
  | por => exact .inr (.inr (.inr ⟨.inl rfl, resetEngine_edgeIrqEn h⟩))
  | _ => cases hi

/-- Settles O58: each direction of a change leaves the ways that write the value it ends with. -/
theorem onlySignaturesMaskEdges : Obligations.OnlySignaturesMaskEdges := by
  intro i s t hi hexec
  obtain hkept | ⟨rfl, hidle, hstarted, hmasked⟩ | ⟨rfl, hactive, hrep, hended, hunmasked⟩ | ⟨hreset, hunmasked⟩ :=
    event_edgeIrqEn hi hexec
  · exact ⟨fun hon hoff => absurd (hkept.trans hon) (by simp [hoff]),
      fun hoff hon => absurd (hkept.trans hoff) (by simp [hon])⟩
  · exact ⟨fun _ _ => ⟨rfl, hidle, hstarted⟩, by simp [hmasked]⟩
  · exact ⟨by simp [hunmasked], fun _ _ => .inl ⟨rfl, hactive, hended, hrep⟩⟩
  · exact ⟨by simp [hunmasked], fun _ _ => .inr hreset⟩

end Sys2Proof.Machine

/-!
PROOFS of the family 43_filters.md: the filters' entries row by row, each by an equation for its guard; the runs of valid edges
through the Legacy filter; and the pulses held in the ring, which stay in the valid band because the write index is none of theirs
(`heldEnd_eq_rbWrite`).
-/

namespace Sys2Proof.Machine

open Sys2Proof.Claims

variable {s t : State}

/-! ## The dispatch (43 R240) -/

/-- A mode is the one its index selects, so the index determines it. -/
theorem filterMode_index_injective : Function.Injective FilterMode.index := fun f g h =>
  Option.some.inj (by rw [← filterOfIndex_index f, h, filterOfIndex_index])

theorem filterMode_index_toNat_le (f : FilterMode) : f.index.toNat ≤ 4 := by cases f <;> decide

theorem exec_row_of_index {f : FilterMode} (pc : Bool) (h : s.cfgFilter.index = f.index) :
    exec (f.instr pc) s = .next (applyFilter pc s) :=
  filterMode_index_injective h ▸ exec_activeFilter pc s

theorem decodeFilter_index (pc : Bool) (f : FilterMode) : decodeFilter pc (f.index.setWidth 8) = .ok (f.instr pc) := by
  rw [decodeFilter, filterOfIndex_index]

/-- Settles O39: the index determines the mode, so the row its index names is the active filter's. -/
theorem activeFilterIsTheIndexedRow : Obligations.ActiveFilterIsTheIndexedRow := fun s pc =>
  ⟨decodeFilter_index pc s.cfgFilter, filterMode_index_toNat_le s.cfgFilter,
    exec_row_of_index (f := .nop) pc, exec_row_of_index (f := .testSignal) pc,
    exec_row_of_index (f := .legacyDebounce) pc, exec_row_of_index (f := .trainBuffer) pc,
    exec_row_of_index (f := .passthrough) pc⟩

/-! ## The rows that do one thing (43 R243 to R245, R256, R257, R260) -/

theorem testPulse_of_getElem? {p : Params} {i : BitVec 8} {d : Duration} (h : p.testSeq[i.toNat]? = some d) :
    testPulse p i = d := by
  rw [testPulse, List.getD_eq_getElem?_getD, h, Option.getD_some]

/-- Settles O40: both entries are `skip`. -/
theorem nopFilterWritesNothing : Obligations.NopFilterWritesNothing := fun _ _ => rfl

/-- Settles O41: the index is inside `TEST_SEQ`, where `testPulse` is its entry. -/
theorem testSignalEmitsTheNextEntry : Obligations.TestSignalEmitsTheNextEntry := by
  refine fun s => ⟨rfl, fun d hd => ?_⟩
  rw [← testPulse_of_getElem? hd]
  rfl

/-- Settles O47: both entries are the one write of the output. -/
theorem passthroughMirrorsTheReceiver : Obligations.PassthroughMirrorsTheReceiver := fun _ _ => rfl

theorem replayReady_iff (s : State) : replayReady s = true ↔ s.rbRead ≠ s.rbTrainStart := by simp [replayReady]

theorem exec_fTrain_periodic (s : State) : exec (.fTrain false) s = .next (trainTick s) := rfl

/-- Settles O46: the test for released entries decides between the two. -/
theorem trainFilterReplaysOrIdles : Obligations.TrainFilterReplaysOrIdles := by
  intro s
  rw [exec_fTrain_periodic, trainTick]
  constructor
  · intro hready
    rw [if_pos ((replayReady_iff s).mpr hready)]
    rfl
  · intro hnone
    rw [if_neg (mt (replayReady_iff s).mp (not_not.mpr hnone))]
    rfl

/-! ## The Train-Buffer filter's pin-change entry (43 R250 to R255, R258) -/

theorem isFooter_iff (p : Params) (d : Duration) : isFooter p d = true ↔ p.footerThresh.toNat < d.toNat := by
  simp [isFooter, BitVec.lt_def]

theorem trainEdge_of_invalid {d : Duration} (h : ¬ Valid s d) :
    trainEdge d s = raiseOutcome (.pulseOutOfRange d) (trainDropped s) := by
  rw [← validDuration_iff, Bool.not_eq_true] at h
  simp only [trainEdge, h]
  rfl

theorem trainEdge_of_full {d : Duration} (h : Valid s d) (hfull : (s.rbWrite + 1) % s.par.rbCap = s.rbRead) :
    trainEdge d s = raiseOutcome (.ringFull d) (trainDropped s) := by
  rw [← validDuration_iff] at h
  have hfull : ringFull s = true := beq_iff_eq.mpr hfull
  simp only [trainEdge, h, hfull]
  rfl

/-- A valid duration that fits is pushed, and a footer then ends the train. -/
theorem trainEdge_of_fitting {d : Duration} (h : Valid s d) (hfree : (s.rbWrite + 1) % s.par.rbCap ≠ s.rbRead) :
    trainEdge d s = if s.par.footerThresh.toNat < d.toNat then finishTrain (trainPushed d s) else trainPushed d s := by
  rw [← validDuration_iff] at h
  rw [← ringFull_eq_false_iff] at hfree
  simp only [trainEdge, h, hfree, isFooter_iff]
  rfl

theorem finishTrain_of_reached (h : s.par.minTrainLen ≤ s.trainLen) :
    finishTrain s = { s with rbTrainStart := s.rbWrite, trainLen := 0 } := if_pos h

theorem finishTrain_of_short (h : s.trainLen < s.par.minTrainLen) :
    finishTrain s = trainDropped (raiseOutcome (.trainTooShort s.trainLen) s) := if_neg (BitVec.not_le.mpr h)

/-- Settles O44: each case by the equation of `trainEdge` for its guard, and the footer's by those of `finishTrain`. -/
theorem trainFilterBuffersEdges : Obligations.TrainFilterBuffersEdges := by
  intro s d
  rw [exec_fTrain_pinChange]
  refine ⟨?invalid, ?full, ?extend, ?release, ?short⟩
  case invalid => intro h; rw [trainEdge_of_invalid h]; rfl
  case full => intro h hfull; rw [trainEdge_of_full h hfull]; rfl
  case extend => intro h hfree hdata; rw [trainEdge_of_fitting h hfree, if_neg (Nat.not_lt.mpr hdata)]
  case release =>
    intro h hfree hfooter hlen
    rw [trainEdge_of_fitting h hfree, if_pos hfooter, finishTrain_of_reached (s := trainPushed d s) hlen]
    rfl
  case short =>
    intro h hfree hfooter hlen
    rw [trainEdge_of_fitting h hfree, if_pos hfooter, finishTrain_of_short (s := trainPushed d s) hlen]
    rfl

/-! ## The Legacy filter (43 R247, R248) -/

theorem exec_fLegacy_pinChange (s : State) : exec (.fLegacy true) s = .next (legacyEdge s) := rfl

/-- The register after an edge: doubled, with the validity of the ended pulse as its last bit. -/
theorem legacyShift_eq (p : Params) (d : Duration) (sh : Byte) :
    legacyShift p d sh = BitVec.ofNat 8 (2 * sh.toNat + bitNat (validDuration p d)) := by
  have hshift : sh <<< 1 = BitVec.ofNat 8 (2 * sh.toNat) := by
    apply BitVec.eq_of_toNat_eq
    rw [BitVec.toNat_shiftLeft, Nat.shiftLeft_eq, BitVec.toNat_ofNat, Nat.mul_comm, pow_one]
  have hbit (b : Bool) : bitByte b = BitVec.ofNat 8 (bitNat b) ∧ bitNat b < 2 ^ 1 := by cases b <;> decide
  obtain ⟨heq, hlt⟩ := hbit (validDuration p d)
  rw [legacyShift, hshift, heq, ← BitVec.ofNat_or]
  exact congrArg _ (Nat.two_pow_add_eq_or_of_lt hlt sh.toNat).symm

theorem shiftLegacy_of_valid (h : Valid s s.recvingSince) :
    shiftLegacy s = { s with ldShift := BitVec.ofNat 8 (2 * s.ldShift.toNat + 1) } := by
  rw [shiftLegacy, legacyShift_eq, (validDuration_iff s _).mpr h]
  rfl

theorem shiftLegacy_of_invalid (h : ¬ Valid s s.recvingSince) :
    shiftLegacy s = { s with ldShift := BitVec.ofNat 8 (2 * s.ldShift.toNat) } := by
  rw [← validDuration_iff, Bool.not_eq_true] at h
  rw [shiftLegacy, legacyShift_eq, h]
  rfl

theorem ofNat_eq_ones_iff (n : Nat) : BitVec.ofNat 8 n = 0xFF#8 ↔ n % 256 = 255 := by
  simp [← BitVec.toNat_inj]

theorem legacyEdge_of_valid (h : Valid s s.recvingSince) :
    legacyEdge s = if (2 * s.ldShift.toNat + 1) % 256 = 255 then toggleOut (shiftLegacy s) else shiftLegacy s := by
  simp only [legacyEdge, ← ofNat_eq_ones_iff, shiftLegacy_of_valid h]

/-- A register that ends in a 0 bit is not 0xFF, so an invalid edge does not toggle. -/
theorem legacyEdge_of_invalid (h : ¬ Valid s s.recvingSince) :
    legacyEdge s = { s with ldShift := BitVec.ofNat 8 (2 * s.ldShift.toNat) } := by
  have heven : BitVec.ofNat 8 (2 * s.ldShift.toNat) ≠ 0xFF#8 := by
    rw [Ne, ofNat_eq_ones_iff]
    omega
  rw [legacyEdge, shiftLegacy_of_invalid h]
  exact if_neg heven

/-- Settles O42: by the validity of the ended pulse. -/
theorem legacyFilterShiftsValidity : Obligations.LegacyFilterShiftsValidity := by
  intro s
  rw [exec_fLegacy_pinChange]
  refine ⟨rfl, fun h => ?valid, fun h => by rw [legacyEdge_of_invalid h]⟩
  case valid =>
    rw [legacyEdge_of_valid h, shiftLegacy_of_valid h]
    split
    next hones => rw [(ofNat_eq_ones_iff _).mpr hones]; rfl
    · rfl

/-! ### A run of valid edges (43 R247, corner cases) -/

/-- The number `n` valid edges shift a register holding `x` to, before it is cut to 8 bits. -/
def shiftedOnes (x n : Nat) : Nat := x * 2 ^ n + 2 ^ n - 1

theorem shiftedOnes_add_one (x n : Nat) : shiftedOnes x n + 1 = (x + 1) * 2 ^ n := by
  have hpos : 0 < 2 ^ n := Nat.two_pow_pos n
  rw [shiftedOnes, Nat.add_mul, Nat.one_mul]
  omega

theorem shiftedOnes_succ (x n : Nat) : shiftedOnes x (n + 1) = 2 * shiftedOnes x n + 1 := by
  have hn := shiftedOnes_add_one x n
  have hsucc := shiftedOnes_add_one x (n + 1)
  rw [pow_succ, ← Nat.mul_assoc, ← hn] at hsucc
  omega

/-- From an even register it takes 8 valid edges to fill the 8 bits with ones. -/
theorem shiftedOnes_full_iff {x : Nat} (n : Nat) (hx : x % 2 = 0) : shiftedOnes x n % 256 = 255 ↔ 8 ≤ n := by
  have hodd : Nat.Coprime (2 ^ 8) (x + 1) :=
    Nat.Coprime.pow_left 8 ((Nat.coprime_two_left).mpr (Nat.odd_iff.mpr (by omega)))
  calc shiftedOnes x n % 256 = 255
    _ ↔ 2 ^ 8 ∣ shiftedOnes x n + 1 := by omega
    _ ↔ 2 ^ 8 ∣ 2 ^ n := by rw [shiftedOnes_add_one, hodd.dvd_mul_left]
    _ ↔ 8 ≤ n := Nat.pow_dvd_pow_iff_le_right (by decide)

/-- The output level after `n` valid edges, each of which toggles it from the 8th on. -/
def forwardedLevel (level : Bool) (n : Nat) : Bool := level ^^ decide ((n - 7) % 2 = 1)

/-- What valid edges record of the output: one write at each from the 8th on, with its tick. -/
def forwardedWrites (level : Bool) (es : List (Duration × Word32)) : List (Word32 × Bool) :=
  (es.drop 7).mapIdx fun k e => (e.2, level ^^ decide (k % 2 = 0))

theorem forwardedLevel_succ_of_few (level : Bool) {n : Nat} (h : n < 7) :
    forwardedLevel level (n + 1) = forwardedLevel level n := by
  simp only [forwardedLevel, show n + 1 - 7 = n - 7 by omega]

theorem forwardedLevel_succ_of_many (level : Bool) {n : Nat} (h : 7 ≤ n) :
    forwardedLevel level (n + 1) = !forwardedLevel level n := by
  rw [forwardedLevel, forwardedLevel, ← Bool.xor_not, ← decide_not, decide_eq_decide.mpr]
  omega

theorem forwardedWrites_concat_of_few (level : Bool) {es : List (Duration × Word32)} (e : Duration × Word32)
    (h : es.length < 7) : forwardedWrites level (es ++ [e]) = forwardedWrites level es := by
  rw [forwardedWrites, forwardedWrites, List.drop_eq_nil_of_le (by simpa using h), List.drop_eq_nil_of_le (by omega)]

theorem forwardedWrites_concat_of_many (level : Bool) {es : List (Duration × Word32)} (e : Duration × Word32)
    (h : 7 ≤ es.length) :
    forwardedWrites level (es ++ [e]) = forwardedWrites level es ++ [(e.2, forwardedLevel level (es.length + 1))] := by
  have hparity : (es.length - 7) % 2 = 0 ↔ (es.length + 1 - 7) % 2 = 1 := by omega
  simp only [forwardedWrites, forwardedLevel, List.drop_append_of_le_length h, List.mapIdx_concat, List.length_drop,
    hparity]

/-- The state the valid edges `es` leave of `s`, its register even: all of them shift, the first 7 do not toggle. -/
def legacyForwarded (es : List (Duration × Word32)) (s : State) : State :=
  { s with
    recvingSince := (es.getLast?.map Prod.fst).getD s.recvingSince
    tickCount := (es.getLast?.map Prod.snd).getD s.tickCount
    ldShift := BitVec.ofNat 8 (shiftedOnes s.ldShift.toNat es.length)
    outLevel := forwardedLevel s.outLevel es.length
    outTrace := s.outTrace ++ forwardedWrites s.outLevel es }

/-- The register after one more valid edge. -/
theorem legacyForwarded_shift (es : List (Duration × Word32)) (s : State) :
    2 * (legacyForwarded es s).ldShift.toNat + 1 ≡ shiftedOnes s.ldShift.toNat (es.length + 1) [MOD 256] := by
  rw [shiftedOnes_succ]
  change 2 * (BitVec.ofNat 8 _).toNat + 1 ≡ _ [MOD 256]
  rw [BitVec.toNat_ofNat]
  exact ((Nat.mod_modEq _ _).mul_left 2).add_right 1

/-- One valid edge after `es`: it toggles exactly from the 8th edge on. -/
theorem legacyEdge_legacyForwarded (es : List (Duration × Word32)) (e : Duration × Word32) (hvalid : Valid s e.1)
    (heven : s.ldShift.toNat % 2 = 0) :
    legacyEdge { legacyForwarded es s with recvingSince := e.1, tickCount := e.2 } = legacyForwarded (es ++ [e]) s := by
  have hshift := legacyForwarded_shift es s
  have hfull : (2 * (legacyForwarded es s).ldShift.toNat + 1) % 256 = 255 ↔ 7 ≤ es.length := by
    rw [hshift, shiftedOnes_full_iff _ heven]
    omega
  have hregister : BitVec.ofNat 8 (2 * (legacyForwarded es s).ldShift.toNat + 1) =
      BitVec.ofNat 8 (shiftedOnes s.ldShift.toNat (es.length + 1)) := BitVec.eq_of_toNat_eq hshift
  rw [legacyEdge_of_valid hvalid, shiftLegacy_of_valid hvalid]
  simp only [hfull, hregister]
  split
  next hmany =>
    simp [toggleOut, setOut, legacyForwarded, forwardedLevel_succ_of_many _ hmany, forwardedWrites_concat_of_many _ e hmany]
  next hfew =>
    simp [legacyForwarded, forwardedLevel_succ_of_few _ (not_le.mp hfew), forwardedWrites_concat_of_few _ e (not_le.mp hfew)]

theorem legacyEdges_concat (es : List (Duration × Word32)) (e : Duration × Word32) (h : legacyEdges es s = .next t) :
    legacyEdges (es ++ [e]) s = .next (legacyEdge { t with recvingSince := e.1, tickCount := e.2 }) := by
  induction es generalizing s with
  | nil => cases h; rfl
  | cons f rest ih => exact ih h

theorem legacyEdges_of_valid (es : List (Duration × Word32)) (hvalid : ∀ e ∈ es, Valid s e.1)
    (heven : s.ldShift.toNat % 2 = 0) : legacyEdges es s = .next (legacyForwarded es s) := by
  induction es using List.reverseRecOn with
  | nil => simp [legacyEdges, legacyForwarded, shiftedOnes, forwardedLevel, forwardedWrites]
  | append_singleton es e ih =>
    have hes := ih fun f hf => hvalid f (List.mem_append_left _ hf)
    rw [legacyEdges_concat es e hes, legacyEdge_legacyForwarded es e (hvalid e (by simp)) heven]

/-- Settles O43: one invalid edge, and a run of valid ones. -/
theorem legacyForwardsFromTheEighthValidEdge : Obligations.LegacyForwardsFromTheEighthValidEdge := by
  refine ⟨fun s d n h => ?invalid, fun _ es hvalid heven => legacyEdges_of_valid es hvalid heven⟩
  case invalid =>
    refine ⟨_, congrArg Host.Outcome.next (legacyEdge_of_invalid h), ?_, rfl, rfl⟩
    rw [BitVec.toNat_ofNat]
    omega

/-! ## The fields each filter owns (43 R241) -/

theorem legacyEdge_own_fields (s : State) : legacyEdge s = withOwnFields (.fLegacy true) s (legacyEdge s) := by
  unfold legacyEdge
  split <;> rfl

theorem trainEdge_own_fields (d : Duration) (s : State) : trainEdge d s = withOwnFields (.fTrain true) s (trainEdge d s) := by
  unfold trainEdge finishTrain
  split_ifs <;> rfl

theorem trainTick_own_fields (s : State) : trainTick s = withOwnFields (.fTrain false) s (trainTick s) := by
  unfold trainTick
  split <;> rfl

/-- Settles O48: entry by entry, each from the fields it owns. -/
theorem filtersWriteOnlyTheirFields : Obligations.FiltersWriteOnlyTheirFields := by
  intro i pc s hi
  cases i with
  | fNop | fPass => exact ⟨_, rfl, rfl⟩
  | fTestsig pc => cases pc <;> exact ⟨_, rfl, rfl⟩
  | fLegacy pc =>
    cases pc
    · exact ⟨_, rfl, rfl⟩
    · exact ⟨_, rfl, legacyEdge_own_fields s⟩
  | fTrain pc =>
    cases pc
    · exact ⟨_, rfl, trainTick_own_fields s⟩
    · exact ⟨_, rfl, trainEdge_own_fields s.recvingSince s⟩
  | _ => cases hi

/-! ## The entries the ring holds (43 R251, R256, 10 R48) -/

/-- An index and a distance lead to the far end of the arc. -/
theorem add_ringDistance_mod {cap a b : Nat} (ha : a < cap) (hb : b < cap) :
    (a + ringDistance cap a b) % cap = b := by
  rw [ringDistance, Nat.add_mod_mod, show a + (b + cap - a) = b + cap by omega, Nat.add_mod_right, Nat.mod_eq_of_lt hb]

/-- The entries counted from one index are different ones within a lap. -/
theorem ringEntry_ne {cap n m : Nat} (a : Nat) (hn : n < cap) (hm : m < cap) (hne : n ≠ m) :
    (a + n) % cap ≠ (a + m) % cap := fun heq =>
  hne (Nat.ModEq.eq_of_lt_of_lt (Nat.ModEq.add_left_cancel' a heq) hn hm)

/-- The write index is the one after the entries held. -/
theorem heldEnd_eq_rbWrite (h : Inv s) :
    (s.rbRead + (releasedEntries s + trainEntries s)) % s.par.rbCap = s.rbWrite := by
  obtain ⟨hwrite, hread, -⟩ := h.ringRange
  rw [← ringDistance_rbRead_rbWrite h]
  exact add_ringDistance_mod hread hwrite

/-- An update that keeps the entries and the read index, and holds no more of them, keeps them valid. -/
theorem QueuedPulsesValid.of_held_le (hq : QueuedPulsesValid s) (hpar : t.par = s.par) (hrb : t.rb = s.rb)
    (hread : t.rbRead = s.rbRead) (hle : releasedEntries t + trainEntries t ≤ releasedEntries s + trainEntries s) :
    QueuedPulsesValid t := by
  intro n hn
  rw [hpar, hrb, hread]
  exact hq n (Nat.lt_of_lt_of_le hn hle)

/-- An update that keeps the entries and the indices keeps the entries held valid. -/
theorem QueuedPulsesValid.of_ring_kept (hq : QueuedPulsesValid s) (hpar : t.par = s.par) (hrb : t.rb = s.rb)
    (hwrite : t.rbWrite = s.rbWrite) (hread : t.rbRead = s.rbRead) (hstart : t.rbTrainStart = s.rbTrainStart) :
    QueuedPulsesValid t :=
  hq.of_held_le hpar hrb hread (by simp [releasedEntries, trainEntries, hpar, hwrite, hread, hstart])

/-- With every index at 0 the ring holds nothing. -/
theorem queuedPulsesValid_of_indices_zero (hwrite : s.rbWrite = 0) (hread : s.rbRead = 0) (hstart : s.rbTrainStart = 0) :
    QueuedPulsesValid s :=
  queuedPulsesValid_of_empty (by simp [releasedEntries, trainEntries, hwrite, hread, hstart])

/-! ### The Train-Buffer filter -/

theorem queuedPulsesValid_discardTrain (hq : QueuedPulsesValid s) : QueuedPulsesValid (discardTrain s) := by
  refine hq.of_held_le rfl rfl rfl ?_
  rw [trainEntries_discardTrain]
  exact Nat.le_add_right _ _

/-- The entry a push adds is the duration pushed; it overwrites none of those held, since the write index is none of theirs. -/
theorem queuedPulsesValid_extendTrain {d : Duration} (h : Inv s) (hq : QueuedPulsesValid s)
    (hvalid : validDuration s.par d = true) (hfree : ringFull s = false) : QueuedPulsesValid (extendTrain d s) := by
  obtain ⟨-, hrb⟩ := h.memories
  have hroom := room_of_not_ringFull h hfree
  have hend := heldEnd_eq_rbWrite h
  intro n hn
  rw [trainEntries_extendTrain d h hfree, show releasedEntries (extendTrain d s) = releasedEntries s from rfl] at hn
  change validDuration s.par (Memory.read (Memory.write s.rb s.rbWrite d) ((s.rbRead + n) % s.par.rbCap)) = true
  by_cases hnew : n = releasedEntries s + trainEntries s
  · rw [hnew, hend, Memory.read_write_same _ _ _ hrb]
    exact hvalid
  · have hother : (s.rbRead + n) % s.par.rbCap ≠ s.rbWrite := hend ▸ ringEntry_ne s.rbRead (by omega) (by omega) hnew
    rw [Memory.read_write_other _ _ _ _ hrb hother]
    exact hq n (by omega)

/-- A released train stays held: its entries now wait for replay (43 R254). -/
theorem queuedPulsesValid_finishTrain (h : Inv s) (hq : QueuedPulsesValid s) : QueuedPulsesValid (finishTrain s) := by
  unfold finishTrain
  split
  · refine hq.of_held_le rfl rfl rfl (le_of_eq ?_)
    change ringDistance s.par.rbCap s.rbRead s.rbWrite + ringDistance s.par.rbCap s.rbWrite s.rbWrite = _
    rw [ringDistance_self, ringDistance_rbRead_rbWrite h, Nat.add_zero]
  · exact queuedPulsesValid_discardTrain (s := raiseOutcome (.trainTooShort s.trainLen) s) hq

theorem queuedPulsesValid_trainEdge (d : Duration) (h : Inv s) (hq : QueuedPulsesValid s) :
    QueuedPulsesValid (trainEdge d s) := by
  have hdropped := queuedPulsesValid_discardTrain hq
  unfold trainEdge
  split
  · exact hdropped
  next hvalid =>
    split
    · exact hdropped
    next hfull =>
      have hfree : ringFull s = false := by simpa using hfull
      have hext := queuedPulsesValid_extendTrain h hq (by simpa using hvalid) hfree
      split
      · exact queuedPulsesValid_finishTrain (inv_extendTrain d h hfree) hext
      · exact hext

/-- After a replay the `n`-th entry held is the one that was the next after it. -/
theorem queuedPulsesValid_rbPop (h : Inv s) (hq : QueuedPulsesValid s) (hready : replayReady s = true) :
    QueuedPulsesValid (rbPop s) := by
  obtain ⟨-, hread, hstart⟩ := h.ringRange
  have hne : s.rbRead ≠ s.rbTrainStart := by simpa [replayReady] using hready
  have hpop : releasedEntries (rbPop s) + 1 = releasedEntries s := ringDistance_nextIndex_left s.par hread hstart hne
  intro n hn
  rw [show trainEntries (rbPop s) = trainEntries s from rfl] at hn
  have hnext : (nextIndex s.par s.rbRead + n) % s.par.rbCap = (s.rbRead + (n + 1)) % s.par.rbCap := by
    rw [nextIndex, Nat.mod_add_mod, Nat.add_assoc, Nat.add_comm 1 n]
  change validDuration s.par (Memory.read s.rb ((nextIndex s.par s.rbRead + n) % s.par.rbCap)) = true
  rw [hnext]
  exact hq (n + 1) (by omega)

theorem queuedPulsesValid_trainTick (h : Inv s) (hq : QueuedPulsesValid s) : QueuedPulsesValid (trainTick s) := by
  unfold trainTick
  split
  next hready => exact queuedPulsesValid_rbPop h hq hready
  · exact hq

/-- Of the five filters only the Train-Buffer filter has the ring. -/
theorem queuedPulsesValid_applyFilter (pc : Bool) (h : Inv s) (hq : QueuedPulsesValid s) :
    QueuedPulsesValid (applyFilter pc s) := by
  unfold applyFilter
  cases s.cfgFilter with
  | trainBuffer =>
    cases pc
    · exact queuedPulsesValid_trainTick h hq
    · exact queuedPulsesValid_trainEdge s.recvingSince h hq
  | nop | testSignal | legacyDebounce | passthrough =>
    exact hq.of_ring_kept (by simp) (by simp) (by simp) (by simp) (by simp)

/-! ### The delay unit, the commands, the reset -/

theorem queuedPulsesValid_lowpassStep (h : Inv s) (hq : QueuedPulsesValid s) : QueuedPulsesValid (lowpassStep s) := by
  obtain ⟨-, heq⟩ | ⟨-, -, heq⟩ | ⟨-, -, heq⟩ := lowpassStep_cases s
  · rw [heq]; exact hq
  · rw [heq]; exact hq
  · rw [heq]; exact queuedPulsesValid_applyFilter true (inv_deferral_dropped h) hq

theorem queuedPulsesValid_rxEdge (h : Inv s) (hq : QueuedPulsesValid s) : QueuedPulsesValid (rxEdge s) := by
  unfold rxEdge
  split
  · split
    · exact hq
    · exact hq
  · exact queuedPulsesValid_applyFilter true h hq

theorem queuedPulsesValid_dispatchRx (h : Inv s) (hq : QueuedPulsesValid s) : QueuedPulsesValid (dispatchRx s) := by
  unfold dispatchRx
  split
  · exact queuedPulsesValid_rxEdge (inv_takeSnapshot h) hq
  · exact hq

theorem queuedPulsesValid_switchFilter (nf : FilterMode) (hq : QueuedPulsesValid s) :
    QueuedPulsesValid (switchFilter nf s) := by
  unfold switchFilter
  split
  · exact hq
  · exact queuedPulsesValid_of_indices_zero rfl rfl rfl

theorem queuedPulsesValid_command {i : Instr} (hi : i.slot = .command) (hq : QueuedPulsesValid s)
    (hexec : exec i s = .next t) : QueuedPulsesValid t := by
  obtain ⟨o, rfl⟩ | ⟨nf, nl, rfl, -⟩ := command_cases i s t hi hexec
  · exact hq
  · exact queuedPulsesValid_switchFilter nf hq

theorem queuedPulsesValid_controlEdge {level : Bool} (hq : QueuedPulsesValid s)
    (hedge : controlEdge level s = .next t) : QueuedPulsesValid t := by
  obtain rfl | rfl | ⟨d, rfl⟩ | ⟨d, rfl⟩ | hexec := controlEdge_cases level s t hedge
  · exact hq.of_ring_kept (by simp) (by simp) (by simp) (by simp) (by simp)
  · exact hq
  · exact hq.of_ring_kept (by simp) (by simp) (by simp) (by simp) (by simp)
  · exact hq
  · exact queuedPulsesValid_command (s := sessionReset { s with ctlActive := false }) (decodeCommand_slot s.ctlValue) hq hexec

theorem queuedPulsesValid_resetEngine (hreset : resetEngine s = .next t) : QueuedPulsesValid t := by
  rw [resetEngine_eq] at hreset
  split at hreset
  · cases hreset
    exact queuedPulsesValid_of_indices_zero (by simp [resetTo]) (by simp [resetTo]) (by simp [resetTo])
  · cases hreset

/-! ### The events -/

theorem queuedPulsesValid_tickBody (h : Inv s) (hq : QueuedPulsesValid s) : QueuedPulsesValid (tickBody s) := by
  obtain ⟨-, heq⟩ | ⟨-, -, -, heq⟩ | ⟨-, -, -, heq⟩ | ⟨-, -, -, heq⟩ | ⟨-, -, -, heq⟩ := tickBody_cases s
  · rw [heq]; exact queuedPulsesValid_lowpassStep h hq
  · rw [heq]; exact hq
  · rw [heq]; exact hq
  · rw [heq]; exact hq.of_ring_kept (by simp) (by simp) (by simp) (by simp) (by simp)
  · rw [heq]
    exact queuedPulsesValid_lowpassStep (inv_applyFilter false h) (queuedPulsesValid_applyFilter false h hq)

theorem queuedPulsesValid_pcint (h : Inv s) (hq : QueuedPulsesValid s) (hexec : exec .pcint s = .next t) :
    QueuedPulsesValid t := by
  have hrx := queuedPulsesValid_dispatchRx h hq
  obtain ⟨-, rfl⟩ | ⟨-, rfl | hedge⟩ := execPcint_cases s t hexec
  · exact hq
  · exact hrx
  · exact queuedPulsesValid_controlEdge hrx hedge

theorem queuedPulsesValid_miss (hq : QueuedPulsesValid s) (hexec : exec .miss s = .next t) : QueuedPulsesValid t := by
  by_cases hexpired : s.par.wdtTimeout ≤ s.wdtMissed + 1
  · rw [exec_miss_expiring hexpired] at hexec
    exact queuedPulsesValid_resetEngine hexec
  · rw [exec_miss_below (BitVec.not_le.mp hexpired)] at hexec
    cases hexec
    exact hq

theorem queuedPulsesValid_event {i : Instr} (hi : i.slot = .event) (h : Inv s) (hq : QueuedPulsesValid s)
    (hexec : exec i s = .next t) : QueuedPulsesValid t := by
  cases i with
  | tick => cases hexec; exact queuedPulsesValid_tickBody (inv_tickPrologue h) hq
  | pcint => exact queuedPulsesValid_pcint h hq hexec
  | rx b | ctl b =>
    cases hexec
    split <;> exact hq
  | miss => exact queuedPulsesValid_miss hq hexec
  | por => exact queuedPulsesValid_resetEngine hexec
  | _ => cases hi

theorem queuedPulsesValid_fetchWord (hq : QueuedPulsesValid s) : QueuedPulsesValid (fetchWord s).2 := by
  obtain ⟨w, rest, -, heq⟩ | ⟨-, heq⟩ := fetchWord_cases s
  · rw [heq]; exact hq
  · rw [heq]; exact hq

/-- Settles O56: the step fetches a word, which is not in the ring, and then runs an event or marks the word refused. -/
theorem everyStepKeepsQueuedPulsesValid : Obligations.EveryStepKeepsQueuedPulsesValid := by
  intro s t h hq hstep
  have hfetch := queuedPulsesValid_fetchWord hq
  obtain ⟨i, -, hi, heq⟩ | ⟨-, -, heq⟩ := step_cases s
  · exact queuedPulsesValid_event hi (inv_fetchWord h) hfetch (heq ▸ hstep)
  · rw [heq] at hstep
    cases hstep
    exact hfetch

end Sys2Proof.Machine

/-!
PROOFS of the family 44_control.md: the control edges and the commands they finish. A control edge handled alone is a press or a release
of the sampled state (`exec_pcint_of_press`, `exec_pcint_of_timedRelease`); the class of its active time is decided in ticks
(`elapsed_toNat`). A select command leaves the configuration it asks for (`selectConfig_reached`), and an absolute one asks for the same
again.
-/

namespace Sys2Proof.Machine

open Sys2Proof.Claims

variable {s t : State}

/-! ## Active times in ticks (44 R292, R293) -/

theorem elapsed_toNat (s : State) (stamp : Word32) : (elapsed s.tickCount stamp).toNat = ticksSince s stamp := by
  rw [elapsed, BitVec.toNat_sub, ticksSince]
  congr 1
  omega

theorem elapsed_eq_ofNat_ticksSince (s : State) (stamp : Word32) :
    elapsed s.tickCount stamp = BitVec.ofNat 32 (ticksSince s stamp) := by
  rw [← elapsed_toNat, BitVec.ofNat_toNat, BitVec.setWidth_eq]

/-! ## A press (44 R292) -/

theorem exec_pcint_of_press (h : ControlEdge s) (hpress : s.ctlLevel = s.par.ctlActiveLevel) :
    exec .pcint s = .next (ctlPress (sampled s)) := by
  rw [exec_pcint_of_controlEdge h]
  exact if_pos hpress

theorem sessionTimedOut_iff (s : State) :
    sessionTimedOut s = true ↔
      s.ctlState = .receiving ∧ s.par.ctlIdleTimeout.toNat < ticksSince s s.ctlReleaseTick := by
  simp [sessionTimedOut, BitVec.lt_def, elapsed_toNat]

theorem ctlPress_of_timedOut (h : sessionTimedOut s = true) :
    ctlPress s = { s with
      ctlState := .receiving, ctlActive := true, ctlCount := 0, ctlValue := 0, ctlPressTick := s.tickCount
      log := s.log ++ [.cmdIdleTimeout] } := by
  rw [ctlPress, if_pos h]
  rfl

theorem ctlPress_of_current (h : ¬ sessionTimedOut s = true) :
    ctlPress s = { s with ctlState := .receiving, ctlActive := true, ctlPressTick := s.tickCount } := by
  rw [ctlPress, if_neg h]

/-- Settles O25: the press meets a session that has timed out, or one that has not. -/
theorem pcintDispatchesControlPress : Obligations.PcintDispatchesControlPress := by
  intro s hedge hpress
  rw [exec_pcint_of_press hedge hpress]
  refine ⟨fun hreceiving hlate => ?late, fun hcurrent => ?current⟩
  case late =>
    have htimeout : sessionTimedOut (sampled s) = true := (sessionTimedOut_iff (sampled s)).mpr ⟨hreceiving, hlate⟩
    rw [ctlPress_of_timedOut htimeout]
    rfl
  case current =>
    have hkept : ¬ sessionTimedOut (sampled s) = true := by
      intro htimeout
      obtain ⟨hreceiving, hlate⟩ := (sessionTimedOut_iff (sampled s)).mp htimeout
      obtain hidle | hintime := hcurrent
      · exact absurd (hidle.symm.trans hreceiving) (by decide)
      · exact absurd hlate (Nat.not_lt.mpr hintime)
    rw [ctlPress_of_current hkept]
    rfl

/-! ## A release (44 R293, R297) -/

theorem exec_pcint_of_release (h : ControlEdge s) (hrelease : s.ctlLevel ≠ s.par.ctlActiveLevel) :
    exec .pcint s = ctlRelease (sampled s) := by
  rw [exec_pcint_of_controlEdge h]
  exact if_neg hrelease

/-- Settles O29: the release of the sampled state finds no active period. -/
theorem untimedReleaseIsIgnored : Obligations.UntimedReleaseIsIgnored := by
  intro s hedge hrelease huntimed
  rw [exec_pcint_of_release hedge hrelease]
  exact if_neg (Bool.eq_false_iff.mp huntimed)

/-- The state in which a timed release classifies its active time. -/
def periodEnded (s : State) : State := { sampled s with ctlActive := false }

theorem exec_pcint_of_timedRelease (h : TimedRelease s) :
    exec .pcint s = classifyPulse (elapsed s.tickCount s.ctlPressTick) (periodEnded s) := by
  obtain ⟨hedge, hrelease, htimed⟩ := h
  rw [exec_pcint_of_release hedge hrelease]
  exact if_pos htimed

/-! ## The class of an active time (44 R293, R294, R296, R298) -/

theorem classifyPulse_of_bit {d : Word32} (h : d.toNat < s.par.ctlBitMax.toNat) :
    classifyPulse d s = .next (bitPulse d s) :=
  if_pos h

theorem classifyPulse_of_finish {d : Word32} (hbit : s.par.ctlBitMax.toNat ≤ d.toNat)
    (hmin : s.par.ctlFinishMin.toNat ≤ d.toNat) (hmax : d.toNat ≤ s.par.ctlFinishMax.toNat) :
    classifyPulse d s = exec (decodeCommand s.ctlValue) (sessionReset s) := by
  have hlong : ¬ d < s.par.ctlBitMax := Nat.not_lt.mpr hbit
  have hwindow : s.par.ctlFinishMin ≤ d ∧ d ≤ s.par.ctlFinishMax := ⟨hmin, hmax⟩
  rw [classifyPulse, if_neg hlong, if_pos hwindow]
  exact applyCommand_eq s.ctlValue (sessionReset s)

theorem classifyPulse_of_bad {d : Word32} (hbit : s.par.ctlBitMax.toNat ≤ d.toNat)
    (hbad : d.toNat < s.par.ctlFinishMin.toNat ∨ s.par.ctlFinishMax.toNat < d.toNat) :
    classifyPulse d s = .next (raiseOutcome (.cmdBadDuration d) (sessionReset s)) := by
  have hlong : ¬ d < s.par.ctlBitMax := Nat.not_lt.mpr hbit
  have houtside : ¬ (s.par.ctlFinishMin ≤ d ∧ d ≤ s.par.ctlFinishMax) := by
    simpa only [BitVec.le_def, not_and_or, Nat.not_le] using hbad
  rw [classifyPulse, if_neg hlong, if_neg houtside]

/-- The shift by one place loses the word's top bit. -/
theorem shiftBit_eq_shiftBit_low (v : BitVec 16) (b : Bool) :
    shiftBit v b = shiftBit (BitVec.ofNat 16 (v.toNat % 2 ^ 15)) b := by
  have hshift : v <<< 1 = BitVec.ofNat 16 (v.toNat % 2 ^ 15) <<< 1 := by
    apply BitVec.eq_of_toNat_eq
    simp only [BitVec.toNat_shiftLeft, BitVec.toNat_ofNat, Nat.shiftLeft_eq]
    omega
  rw [shiftBit, hshift]
  rfl

/-- One more bit doubles the accumulator and adds the bit, modulo 2^16. -/
theorem shiftBit_eq_ofNat (v : BitVec 16) (b : Bool) : shiftBit v b = BitVec.ofNat 16 (2 * v.toNat + bitNat b) := by
  have hlow : (BitVec.ofNat 16 (v.toNat % 2 ^ 15)).toNat = v.toNat % 2 ^ 15 := by
    rw [BitVec.toNat_ofNat]
    omega
  have hbit := bitNat_le_one b
  apply BitVec.eq_of_toNat_eq
  rw [shiftBit_eq_shiftBit_low, shiftBit_toNat _ b (by omega), hlow, BitVec.toNat_ofNat]
  omega

theorem bitNat_pulseBit (s : State) (stamp : Word32) :
    bitNat (pulseBit s.par (elapsed s.tickCount stamp)) =
      if s.par.ctlBitBoundary.toNat ≤ ticksSince s stamp then 1 else 0 := by
  simp [bitNat, pulseBit_iff, elapsed_toNat]

/-- Settles O26: the release is a bit pulse, in a session with room for the bit or in a full one. -/
theorem shortReleaseShiftsOneBit : Obligations.ShortReleaseShiftsOneBit := by
  intro s hrelease hshort
  rw [← elapsed_toNat] at hshort
  rw [exec_pcint_of_timedRelease hrelease, classifyPulse_of_bit (s := periodEnded s) hshort]
  refine ⟨fun hroom => ?room, fun hfull => ?full⟩
  case room =>
    rw [← bitNat_pulseBit, ← shiftBit_eq_ofNat]
    exact congrArg Host.Outcome.next (if_neg hroom)
  case full => exact congrArg Host.Outcome.next (if_pos hfull)

/-- Settles O27: the finish resets the session, active period included, and then applies the command. -/
theorem finishReleaseRunsTheCommand : Obligations.FinishReleaseRunsTheCommand := by
  intro s hrelease hbit hmin hmax
  rw [← elapsed_toNat] at hbit hmin hmax
  rw [exec_pcint_of_timedRelease hrelease]
  exact classifyPulse_of_finish (s := periodEnded s) hbit hmin hmax

/-- Settles O28: the duration is in no class, and its outcome records it. -/
theorem badDurationCancelsTheSession : Obligations.BadDurationCancelsTheSession := by
  intro s hrelease hbit hbad
  rw [← elapsed_eq_ofNat_ticksSince]
  rw [← elapsed_toNat] at hbit hbad
  rw [exec_pcint_of_timedRelease hrelease]
  exact classifyPulse_of_bad (s := periodEnded s) hbit hbad

/-! ## Commands (44 R299 to R305) -/

/-- Settles O33: a command that asks for a configuration selects it, which writes it or finds it set. -/
theorem selectCommandsApply : Obligations.SelectCommandsApply := by
  intro i s nf nl hasks hsize
  rw [exec_of_commandAsks hasks]
  exact selectConfig_eq_written (encode i) nf nl hsize

/-- Whether it writes or not, a selection that completes leaves the configuration selected. -/
theorem selectConfig_reached {v : BitVec 16} {nf : FilterMode} {nl : Bool} (h : selectConfig v nf nl s = .next t) :
    t.cfgFilter = nf ∧ t.cfgLowpass = nl := by
  unfold selectConfig at h
  rw [writeConfig_eq] at h
  split_ifs at h with hsame
  · obtain ⟨hfilter, hlowpass⟩ := hsame
    cases h
    exact ⟨hfilter.symm, hlowpass.symm⟩
  · cases h
    exact ⟨rfl, rfl⟩

theorem selectConfig_of_same (v : BitVec 16) (s : State) :
    selectConfig v s.cfgFilter s.cfgLowpass s = .next { s with log := s.log ++ [.cmdNoChange v] } :=
  if_pos ⟨rfl, rfl⟩

/-- A word with a valid target selects what its fields ask for, whatever the size of the store. -/
theorem exec_decodeCommand_of_target {v : BitVec 16} (h : v.toNat % 16 ≤ 4) (s : State) :
    exec (decodeCommand v) s = selectConfig v (askedFilter v s) (askedLowpass v s) s := by
  obtain ⟨hw, hslot, henc⟩ := decodeCommand_spec v
  have hfields := command_by_fields (decodeCommand v) hslot hw s
  rw [henc] at hfields
  obtain ⟨hbad, -⟩ | ⟨-, hasks⟩ := hfields
  · omega
  · rw [exec_of_commandAsks hasks, henc]

theorem askedFilter_of_absolute {v : BitVec 16} (h : 1 ≤ v.toNat % 16) (s : State) :
    askedFilter v s = modeOf (v.toNat % 16) := by
  rw [askedFilter, if_neg (Nat.one_le_iff_ne_zero.mp h)]

theorem askedLowpass_eq (v : BitVec 16) (s : State) :
    askedLowpass v s = if v.getLsbD 5 then v.getLsbD 4 else s.cfgLowpass := by
  have hbit (i : Nat) : v.getLsbD i = decide (v.toNat / 2 ^ i % 2 = 1) := Nat.testBit_eq_decide_div_mod_eq
  simp only [askedLowpass, hbit, decide_eq_true_eq, Nat.reducePow]

/-- A state whose low-pass flag is what the word asked for once is asked for that flag again. -/
theorem askedLowpass_again {v : BitVec 16} (h : t.cfgLowpass = askedLowpass v s) : askedLowpass v t = t.cfgLowpass := by
  rw [askedLowpass_eq] at h ⊢
  split_ifs at h ⊢ with hlpp
  · exact h.symm
  · rfl

/-- Settles O37: the first application reaches the configuration asked for, and an absolute word asks for the same again. -/
theorem absoluteCommandsAreIdempotent : Obligations.AbsoluteCommandsAreIdempotent := by
  intro v s t hlow hhigh hexec
  rw [exec_decodeCommand_of_target hhigh, askedFilter_of_absolute hlow] at hexec
  obtain ⟨hfilter, hlowpass⟩ := selectConfig_reached hexec
  refine ⟨hfilter, hlowpass.trans (askedLowpass_eq v s), ?_⟩
  rw [exec_decodeCommand_of_target hhigh, askedFilter_of_absolute hlow, ← hfilter, askedLowpass_again hlowpass]
  exact selectConfig_of_same v t

end Sys2Proof.Machine

/-!
PROOFS of the family 60_exceptions.md: completion, launches, and the records. The records are write-only: every operation commutes with
placing earlier records before those of its state (`prependRecords`), so a step appends to them and reads none of them. Both statements
about the records follow from the one equation for the step, `step_prependRecords`.
-/

namespace Sys2Proof.Machine

open Sys2Proof.Claims

variable {s t : State}

/-! ## Completion (60 R350, 40 R149) -/

/-- A command that asks for no configuration has an invalid target (30 R108). -/
theorem exec_of_commandAsks_none {i : Instr} (hi : i.slot = .command) (h : commandAsks i s = none) :
    exec i s = badTarget (encode i) s := by
  cases i with
  | cBad5 v | cBad6 v | cBad7 v | cBad8To15 v => rfl
  | cAdv v | cAdvLp v | cSelTestsig v | cSelTestsigLp v | cSelLegacy v | cSelLegacyLp v | cSelTrain v | cSelTrainLp v
  | cSelPass v | cSelPassLp v => cases h
  | _ => cases hi

/-- `i` completes from `s`, under the parameters it started with. -/
def Completes (i : Instr) (s : State) : Prop := ∃ t, exec i s = .next t ∧ t.par = s.par

theorem completes_command {i : Instr} (hi : i.slot = .command) (h : 4 ≤ s.par.nvSize) : Completes i s := by
  obtain ⟨t, hexec⟩ : ∃ t, exec i s = .next t := by
    cases hasks : commandAsks i s with
    | none => exact ⟨_, exec_of_commandAsks_none hi hasks⟩
    | some config => exact ⟨_, (exec_of_commandAsks hasks).trans (selectConfig_eq _ _ _ _ h)⟩
  obtain ⟨hpar, -⟩ := watchdogKept_command hi hexec
  exact ⟨t, hexec, hpar⟩

theorem resetTo_par (s : State) : (resetTo s).par = s.par := by simp [resetTo]

theorem completes_miss (h : 4 ≤ s.par.nvSize) : Completes .miss s := by
  by_cases hexpired : s.par.wdtTimeout ≤ s.wdtMissed + 1
  · have hreset := exec_por (s := markWatchdog (raiseOutcome .watchdogReset (countMiss s))) h
    exact ⟨_, (exec_miss_expiring hexpired).trans hreset, resetTo_par _⟩
  · exact ⟨_, exec_miss_below (BitVec.not_le.mp hexpired), rfl⟩

theorem completes (i : Instr) (h : 4 ≤ s.par.nvSize) : Completes i s := by
  cases i with
  | tick => exact ⟨_, rfl, tickBody_par _⟩
  | pcint =>
    obtain ⟨t, hexec, hpar, -⟩ := exec_pcint_watchdogKept h
    exact ⟨t, hexec, hpar⟩
  | rx b =>
    obtain ⟨t, hexec, hpar, -⟩ := exec_rx_watchdogKept b s
    exact ⟨t, hexec, hpar⟩
  | ctl b =>
    obtain ⟨t, hexec, hpar, -⟩ := exec_ctl_watchdogKept b s
    exact ⟨t, hexec, hpar⟩
  | miss => exact completes_miss h
  | por => exact ⟨_, exec_por h, resetTo_par s⟩
  | fNop pc => exact ⟨_, rfl, rfl⟩
  | fTestsig pc => exact ⟨_, rfl, testsigApply_par pc s⟩
  | fLegacy pc => exact ⟨_, rfl, legacyApply_par pc s⟩
  | fTrain pc => exact ⟨_, rfl, trainApply_par pc s⟩
  | fPass pc => exact ⟨_, rfl, passApply_par pc s⟩
  | sym1 k => exact ⟨_, rfl, symbolPulse_par true k s⟩
  | sym0 k => exact ⟨_, rfl, symbolPulse_par false k s⟩
  | _ => exact completes_command rfl h

theorem fetchWord_par (s : State) : (fetchWord s).2.par = s.par := by
  obtain ⟨w, rest, -, heq⟩ | ⟨-, heq⟩ := fetchWord_cases s
  · rw [heq]
  · rw [heq]

/-- Settles O9: a step runs an instruction, which completes, or marks its word refused. -/
theorem everyInstructionCompletes : Obligations.EveryInstructionCompletes := by
  intro s h
  refine ⟨fun i => completes i h, ?_⟩
  have hpar := fetchWord_par s
  obtain ⟨i, -, -, hstep⟩ | ⟨-, -, hstep⟩ := step_cases s
  · obtain ⟨t, hexec, hkept⟩ := completes i (hpar ▸ h)
    exact ⟨t, hstep.trans hexec, hkept.trans hpar⟩
  · exact ⟨_, hstep, hpar⟩

/-! ## Launches (60 R350) -/

theorem legal_nvSize {p : Params} (h : p.Legal) : 4 ≤ p.nvSize := by
  obtain ⟨_, _, _, _, _, _, _, _, _, _, _, _, _, _, _, _, _, _, ⟨hlow, _⟩, _⟩ := h
  exact hlow

theorem resetTo_nv (s : State) : (resetTo s).nv = s.nv := by simp [resetTo]

theorem exists_launch {p : Params} (hp : p.Legal) (nv : List Host.Cell) (rx ctl : Bool) :
    ∃ s : State, launch p nv rx ctl = .next (resetTo s) ∧ s.nv = nv :=
  ⟨_, exec_por (legal_nvSize hp), rfl⟩

/-- Settles O54: a launch is a reset, which needs the four bytes of the store's layout and writes none of them. -/
theorem launchSatisfiesTheInvariants : Obligations.LaunchSatisfiesTheInvariants := by
  intro p nv rx ctl hp hnv
  obtain ⟨s, hlaunch, rfl⟩ := exists_launch hp nv rx ctl
  exact ⟨_, hlaunch, inv_launch hp hnv hlaunch, queuedPulsesValid_resetEngine hlaunch, resetTo_nv s⟩

/-! ## The records come after those of an earlier state (60 R330 to R332) -/

/-- `s` with the records of `r` before its own. -/
def prependRecords (r s : State) : State :=
  { s with
    log := r.log ++ s.log
    faultWdt := r.faultWdt || s.faultWdt
    refused := r.refused || s.refused
    outTrace := r.outTrace ++ s.outTrace }

/-- Every state is its unrecorded self after its own records. -/
theorem prependRecords_eraseRecords (s : State) : prependRecords s (eraseRecords s) = s := by
  simp [prependRecords, eraseRecords]

/-- An outcome with the records of `r` before those of its next state. -/
def prependToNext (r : State) (o : Host.Outcome State Fault Refusal) : Host.Outcome State Fault Refusal :=
  andThen o fun t => .next (prependRecords r t)

@[simp] theorem prependToNext_next (r t : State) : prependToNext r (.next t) = .next (prependRecords r t) := rfl

@[simp] theorem prependToNext_fault (r : State) (f : Fault) : prependToNext r (.fault f) = .fault f := rfl

/-! ### The four operations that write a record -/

theorem raiseOutcome_prependRecords (o : EngineOutcome) (r s : State) :
    raiseOutcome o (prependRecords r s) = prependRecords r (raiseOutcome o s) := by
  simp [raiseOutcome, prependRecords]

theorem setOut_prependRecords (level : Bool) (r s : State) :
    setOut level (prependRecords r s) = prependRecords r (setOut level s) := by
  simp [setOut, prependRecords]

theorem markRefused_prependRecords (r s : State) : markRefused (prependRecords r s) = prependRecords r (markRefused s) := by
  simp [markRefused, prependRecords]

theorem markWatchdog_prependRecords (r s : State) :
    markWatchdog (prependRecords r s) = prependRecords r (markWatchdog s) := by
  simp [markWatchdog, prependRecords]

theorem toggleOut_prependRecords (r s : State) : toggleOut (prependRecords r s) = prependRecords r (toggleOut s) :=
  setOut_prependRecords (!s.outLevel) r s

theorem startPulse_prependRecords (d : Duration) (r s : State) :
    startPulse d (prependRecords r s) = prependRecords r (startPulse d s) := rfl

/-! ### The filters (43) -/

theorem testsigApply_prependRecords (pc : Bool) (r s : State) :
    testsigApply pc (prependRecords r s) = prependRecords r (testsigApply pc s) := by
  cases pc with
  | true => rfl
  | false =>
    unfold testsigApply
    rw [toggleOut_prependRecords]
    rfl

theorem legacyEdge_prependRecords (r s : State) : legacyEdge (prependRecords r s) = prependRecords r (legacyEdge s) := by
  unfold legacyEdge
  rw [apply_ite (prependRecords r), ← toggleOut_prependRecords]
  rfl

theorem finishTrain_prependRecords (r s : State) : finishTrain (prependRecords r s) = prependRecords r (finishTrain s) := by
  unfold finishTrain
  simp only [apply_ite (prependRecords r), raiseOutcome_prependRecords]
  rfl

theorem trainEdge_prependRecords (d : Duration) (r s : State) :
    trainEdge d (prependRecords r s) = prependRecords r (trainEdge d s) := by
  unfold trainEdge
  simp only [apply_ite (prependRecords r), ← raiseOutcome_prependRecords, ← finishTrain_prependRecords]
  rfl

theorem trainTick_prependRecords (r s : State) : trainTick (prependRecords r s) = prependRecords r (trainTick s) := by
  unfold trainTick
  simp only [apply_ite (prependRecords r), ← startPulse_prependRecords, ← toggleOut_prependRecords, ← setOut_prependRecords]
  rfl

theorem applyFilter_prependRecords (pc : Bool) (r s : State) :
    applyFilter pc (prependRecords r s) = prependRecords r (applyFilter pc s) := by
  have hfilter : (prependRecords r s).cfgFilter = s.cfgFilter := rfl
  unfold applyFilter
  rw [hfilter]
  cases s.cfgFilter with
  | nop => rfl
  | testSignal => exact testsigApply_prependRecords pc r s
  | legacyDebounce =>
    cases pc with
    | true => exact legacyEdge_prependRecords r s
    | false => rfl
  | trainBuffer =>
    cases pc with
    | true => exact trainEdge_prependRecords s.recvingSince r s
    | false => exact trainTick_prependRecords r s
  | passthrough => exact setOut_prependRecords s.rxLevel r s

/-! ### The receiver edge and the delay unit (41) -/

theorem deliverEdge_prependRecords (r s : State) : deliverEdge (prependRecords r s) = prependRecords r (deliverEdge s) := by
  unfold deliverEdge
  rw [applyFilter_prependRecords]
  rfl

theorem lowpassCancel_prependRecords (r s : State) :
    lowpassCancel (prependRecords r s) = prependRecords r (lowpassCancel s) :=
  raiseOutcome_prependRecords (.spikeCancelled s.tickCount) r { s with lpPending := false, lpCount := 0 }

theorem lowpassStep_prependRecords (r s : State) : lowpassStep (prependRecords r s) = prependRecords r (lowpassStep s) := by
  unfold lowpassStep
  simp only [apply_ite (prependRecords r), ← deliverEdge_prependRecords]
  rfl

theorem rxEdge_prependRecords (r s : State) : rxEdge (prependRecords r s) = prependRecords r (rxEdge s) := by
  unfold rxEdge
  simp only [apply_ite (prependRecords r), ← deliverEdge_prependRecords, ← lowpassCancel_prependRecords]
  rfl

theorem dispatchRx_prependRecords (r s : State) : dispatchRx (prependRecords r s) = prependRecords r (dispatchRx s) := by
  unfold dispatchRx
  rw [apply_ite (prependRecords r), ← rxEdge_prependRecords]
  rfl

/-! ### Commands (44 R299 to R304) -/

theorem configured_prependRecords (nf : FilterMode) (nl : Bool) (r s : State) :
    configured nf nl (prependRecords r s) = prependRecords r (configured nf nl s) := by
  have hswitch : switchFilter nf (prependRecords r s) = prependRecords r (switchFilter nf s) := by
    unfold switchFilter
    rw [apply_ite (prependRecords r)]
    rfl
  unfold configured
  rw [hswitch, ← raiseOutcome_prependRecords]
  rfl

theorem selectConfig_prependRecords (v : BitVec 16) (nf : FilterMode) (nl : Bool) (r s : State) :
    selectConfig v nf nl (prependRecords r s) = prependToNext r (selectConfig v nf nl s) := by
  unfold selectConfig
  simp only [writeConfig_eq, apply_ite (prependToNext r), prependToNext_next, prependToNext_fault,
    ← raiseOutcome_prependRecords, ← configured_prependRecords]
  rfl

theorem commandAsks_prependRecords (i : Instr) (r s : State) : commandAsks i (prependRecords r s) = commandAsks i s := by
  cases i <;> rfl

theorem exec_command_prependRecords {i : Instr} (hi : i.slot = .command) (r s : State) :
    exec i (prependRecords r s) = prependToNext r (exec i s) := by
  have hsame := commandAsks_prependRecords i r s
  cases hasks : commandAsks i s with
  | none =>
    rw [exec_of_commandAsks_none hi hasks, exec_of_commandAsks_none hi (hsame.trans hasks)]
    exact congrArg _ (raiseOutcome_prependRecords _ r s)
  | some config =>
    rw [exec_of_commandAsks hasks, exec_of_commandAsks (hsame.trans hasks)]
    exact selectConfig_prependRecords _ _ _ r s

/-! ### The control decoder (44 R290 to R298) -/

theorem ctlPress_prependRecords (r s : State) : ctlPress (prependRecords r s) = prependRecords r (ctlPress s) := by
  by_cases h : sessionTimedOut s = true
  · rw [ctlPress_of_timedOut h, ctlPress_of_timedOut (s := prependRecords r s) h]
    simp [prependRecords]
  · rw [ctlPress_of_current h, ctlPress_of_current (s := prependRecords r s) h]
    rfl

theorem bitPulse_prependRecords (d : Word32) (r s : State) :
    bitPulse d (prependRecords r s) = prependRecords r (bitPulse d s) := by
  unfold bitPulse
  simp only [apply_ite (prependRecords r), ← raiseOutcome_prependRecords]
  rfl

theorem classifyPulse_prependRecords (d : Word32) (r s : State) :
    classifyPulse d (prependRecords r s) = prependToNext r (classifyPulse d s) := by
  unfold classifyPulse finishPulse
  simp only [applyCommand_eq, apply_ite (prependToNext r), prependToNext_next, ← bitPulse_prependRecords,
    ← raiseOutcome_prependRecords, ← exec_command_prependRecords (decodeCommand_slot _)]
  rfl

theorem controlEdge_prependRecords (level : Bool) (r s : State) :
    controlEdge level (prependRecords r s) = prependToNext r (controlEdge level s) := by
  unfold controlEdge ctlRelease
  simp only [apply_ite (prependToNext r), prependToNext_next, ← ctlPress_prependRecords, ← classifyPulse_prependRecords]
  rfl

/-! ### The tick and the reset (40, 42, 70) -/

theorem emitPulse_prependRecords (d : Duration) (r s : State) :
    emitPulse d (prependRecords r s) = prependRecords r (emitPulse d s) := by
  simp [emitPulse_eq, prependRecords]

theorem signatureStep_prependRecords (r s : State) :
    signatureStep (prependRecords r s) = prependRecords r (signatureStep s) := by
  unfold signatureStep
  simp only [framePulse_eq, apply_ite (prependRecords r), ← emitPulse_prependRecords]
  rfl

theorem tickBody_prependRecords (r s : State) : tickBody (prependRecords r s) = prependRecords r (tickBody s) := by
  unfold tickBody
  simp only [apply_ite (prependRecords r), ← lowpassStep_prependRecords, ← signatureStep_prependRecords,
    ← applyFilter_prependRecords]
  rfl

theorem loadConfig_prependRecords (c f l : Byte) (r s : State) :
    loadConfig c f l (prependRecords r s) = prependRecords r (loadConfig c f l s) := by
  unfold loadConfig
  cases filterOfIndex f with
  | none => exact raiseOutcome_prependRecords _ r (setConfig .nop false s)
  | some m =>
    simp only [apply_ite (prependRecords r), ← raiseOutcome_prependRecords]
    rfl

theorem clearEngine_prependRecords (r s : State) : clearEngine (prependRecords r s) = prependRecords r (clearEngine s) := by
  unfold clearEngine
  rw [setOut_prependRecords]
  rfl

theorem resetEngine_prependRecords (r s : State) :
    resetEngine (prependRecords r s) = prependToNext r (resetEngine s) := by
  simp only [resetEngine_eq, resetTo, clearEngine_prependRecords, loadConfig_prependRecords, apply_ite (prependToNext r),
    prependToNext_next, prependToNext_fault]
  rfl

/-! ### The events and the step -/

theorem exec_pcint_prependRecords (r s : State) :
    exec .pcint (prependRecords r s) = prependToNext r (exec .pcint s) := by
  simp only [exec_pcint, dispatchEdges, dispatchRx_prependRecords, controlEdge_prependRecords, apply_ite (prependToNext r),
    prependToNext_next]
  rfl

theorem exec_miss_prependRecords (r s : State) : exec .miss (prependRecords r s) = prependToNext r (exec .miss s) := by
  change execMiss (prependRecords r s) = prependToNext r (execMiss s)
  unfold execMiss watchdogExpire
  simp only [apply_ite (prependToNext r), prependToNext_next, ← resetEngine_prependRecords, ← markWatchdog_prependRecords,
    ← raiseOutcome_prependRecords]
  rfl

theorem exec_event_prependRecords {i : Instr} (hi : i.slot = .event) (r s : State) :
    exec i (prependRecords r s) = prependToNext r (exec i s) := by
  cases i with
  | tick => exact congrArg _ (tickBody_prependRecords r (tickPrologue s))
  | pcint => exact exec_pcint_prependRecords r s
  | rx b =>
    exact congrArg Host.Outcome.next
      (apply_ite (prependRecords r) (b = s.rxLevel) s { s with rxLevel := b, pcPending := true }).symm
  | ctl b =>
    exact congrArg Host.Outcome.next
      (apply_ite (prependRecords r) (b = s.ctlLevel) s { s with ctlLevel := b, pcPending := true }).symm
  | miss => exact exec_miss_prependRecords r s
  | por => exact resetEngine_prependRecords r s
  | _ => cases hi

theorem fetchWord_prependRecords (r s : State) :
    fetchWord (prependRecords r s) = ((fetchWord s).1, prependRecords r (fetchWord s).2) := by
  have htrace : (prependRecords r s).trace = s.trace := rfl
  unfold fetchWord
  rw [htrace]
  cases s.trace <;> rfl

/-- A step appends to the records and reads none: with earlier records before its own, a state takes the same step. -/
theorem step_prependRecords (r s : State) : step (prependRecords r s) = prependToNext r (step s) := by
  have hfetch := fetchWord_prependRecords r s
  obtain ⟨i, hword, hi, hstep⟩ | ⟨e, hword, hstep⟩ := step_cases s
  · rw [hstep, ← exec_event_prependRecords hi, step_of_decoded (by rw [hfetch]; exact hword), hfetch]
  · rw [hstep]
    simp [step, hfetch, hword, markRefused_prependRecords]

/-- A step is that of the unrecorded state, its records after those of the state. -/
theorem step_eq_prependToNext (s : State) : step s = prependToNext s (step (eraseRecords s)) := by
  rw [← step_prependRecords, prependRecords_eraseRecords]

/-- Earlier records make no difference but in the records. -/
theorem sameButRecords_prependToNext (r u : State) (o : Host.Outcome State Fault Refusal) :
    SameButRecords (prependToNext r o) (prependToNext u o) := by
  cases o <;> rfl

/-- Settles O59: both steps are that of the common unrecorded state, records aside. -/
theorem noStepReadsTheRecords : Obligations.NoStepReadsTheRecords := by
  intro s u h
  rw [step_eq_prependToNext s, step_eq_prependToNext u, h]
  exact sameButRecords_prependToNext s u _

theorem prependToNext_eq_next {r : State} {o : Host.Outcome State Fault Refusal} (h : prependToNext r o = .next t) :
    ∃ u, t = prependRecords r u := by
  cases o with
  | next u => cases h; exact ⟨u, rfl⟩
  | fault f => cases h
  | refused f => cases h

/-- Settles O60: the next state has the records of the state before those the step adds. -/
theorem marksAreSticky : Obligations.MarksAreSticky := by
  intro s t hstep
  rw [step_eq_prependToNext] at hstep
  obtain ⟨u, rfl⟩ := prependToNext_eq_next hstep
  exact ⟨fun h => by simp [prependRecords, h], fun h => by simp [prependRecords, h], ⟨u.log, rfl⟩, ⟨u.outTrace, rfl⟩⟩

end Sys2Proof.Machine

/-!
PROOFS of the family 70_reset_and_hazards.md: the power-on reset. A reset is `clearEngine` and then `loadConfig` of NV bytes 1, 2 and 3
(`exec_por`); the two are the claims' `cleared` and `booted`, which write the reset's values (70 R370) and the boot load's check
(70 R372) out in the spec's own numbers.
-/

namespace Sys2Proof.Machine

open Sys2Proof.Claims

variable {s : State}

/-! ## The boot load (70 R372) -/

theorem modeOf_index_toNat (m : FilterMode) : modeOf m.index.toNat = m := by cases m <;> rfl

/-- A byte that selects a mode is at most 4 and numbers that mode (30 R110). -/
theorem modeOf_of_filterOfIndex {f : Byte} {m : FilterMode} (h : filterOfIndex f = some m) :
    f.toNat ≤ 4 ∧ modeOf f.toNat = m := by
  obtain ⟨rfl, hle⟩ := filterOfIndex_some f m h
  have hindex : (m.index.setWidth 8).toNat = m.index.toNat := BitVec.toNat_setWidth_of_le (by decide)
  exact ⟨hle, by rw [hindex, modeOf_index_toNat]⟩

theorem bootable_iff (s : State) :
    bootable s = true ↔ (Memory.read s.nv 2).toNat ≤ 4 ∧ Memory.read s.nv 1 = nvsum s.par (Memory.read s.nv 2) := by
  simp [bootable, nvsum]

theorem booted_of_bootable (h : bootable s = true) :
    booted s = withConfig (modeOf (Memory.read s.nv 2).toNat) (Memory.read s.nv 3 != 0) s := if_pos h

theorem booted_of_not_bootable (h : ¬ bootable s = true) :
    booted s = raiseOutcome (.configCorrupt (Memory.read s.nv 1) (Memory.read s.nv 2) (Memory.read s.nv 3))
      (withConfig .nop false s) := if_neg h

/-- What a boot load takes from NV is the configuration of a bootable store, and the default elsewhere. -/
theorem loadConfig_eq_booted (s : State) :
    loadConfig (Memory.read s.nv 1) (Memory.read s.nv 2) (Memory.read s.nv 3) s = booted s := by
  obtain ⟨m, hmode, hsum, hload⟩ | ⟨hcorrupt, hload⟩ :=
    loadConfig_cases (Memory.read s.nv 1) (Memory.read s.nv 2) (Memory.read s.nv 3) s
  · obtain ⟨hle, hm⟩ := modeOf_of_filterOfIndex hmode
    rw [hload, booted_of_bootable ((bootable_iff s).mpr ⟨hle, hsum⟩), hm, setConfig_eq_withConfig]
  · have hnot : ¬ bootable s = true := by
      intro hboot
      obtain ⟨hle, hsum⟩ := (bootable_iff s).mp hboot
      obtain hnone | hne := hcorrupt
      · have hlt : 4 < (Memory.read s.nv 2).toNat := (filterOfIndex_none _).mp hnone
        omega
      · exact hne hsum
    rw [hload, booted_of_not_bootable hnot, setConfig_eq_withConfig]

/-! ## The reset (70 R370) -/

theorem clearEngine_eq_cleared (s : State) : clearEngine s = cleared s := rfl

/-- The boot load reads NV after the reset's other writes, none of which is to NV. -/
theorem resetTo_eq_booted_cleared (s : State) : resetTo s = booted (cleared s) :=
  (loadConfig_eq_booted (clearEngine s)).trans (congrArg booted (clearEngine_eq_cleared s))

/-- Settles O20: the reset's writes are those of `cleared`, and the boot load that follows is `booted`. -/
theorem powerOnResets : Obligations.PowerOnResets := by
  intro s h
  rw [exec_por h, resetTo_eq_booted_cleared]

end Sys2Proof.Machine

/-!
PROOFS of the remaining family: the sample words. A legal sample is the word the encoder writes for its instruction, so each is one
instance of "decoding inverts encoding"; an illegal one has no instruction to start from, and is rejected by its format's decoder.
-/

namespace Sys2Proof

/-- A filter index above 4 selects no filter (30 R111). -/
theorem decodeFilter_of_four_lt (pc : Bool) {f : Byte} (h : 4#8 < f) : decodeFilter pc f = .error .unknownFilterIndex := by
  rw [decodeFilter, (filterOfIndex_none f).mpr h]

/-- A long-mask that is neither symbol's is no symbol (30 R115). -/
theorem decodeSymbol_of_ne (k : BitVec 2) {m : BitVec 4} (h1 : m ≠ 0b0010#4) (h0 : m ≠ 0b1000#4) :
    decodeSymbol k m = .error .unknownSymbol := by
  rw [decodeSymbol, if_neg h1, if_neg h0]

/-- Settles O6, format by format. A command satisfies its own row, which is all that its well-formedness asks; the illegal event words
are one for each reason of 30 R102. -/
theorem sampleWordsDecode : Obligations.SampleWordsDecode := by
  have htick : decodeEvent 0x10 = .ok .tick := decodingInvertsEncoding .tick rfl
  have hrx : decodeEvent 0x31 = .ok (.rx true) := decodingInvertsEncoding (.rx true) rfl
  have hctl : decodeEvent 0x40 = .ok (.ctl false) := decodingInvertsEncoding (.ctl false) rfl
  have hpor : decodeEvent 0x60 = .ok .por := decodingInvertsEncoding .por rfl
  have hdataBit : decodeEvent 0x11 = .error .dataBitOnDataless := by decide
  have hreserved : decodeEvent 0x32 = .error .reservedBits := by decide
  have hopcode : decodeEvent 0x70 = .error .unknownOpcode := by decide
  have htrainLp := decodeCommand_encode (.cSelTrainLp 0x33) rfl rfl
  have hpass := decodeCommand_encode (.cSelPass 0x104) rfl rfl
  have hbad5 := decodeCommand_encode (.cBad5 5) rfl rfl
  have hbad8To15 := decodeCommand_encode (.cBad8To15 0xFFFF) rfl rfl
  have htrain : decodeFilter true 3 = .ok (.fTrain true) := decodingInvertsEncoding (.fTrain true) rfl
  have hindex : decodeFilter false 5 = .error .unknownFilterIndex := decodeFilter_of_four_lt false (by decide)
  have hsym1 : decodeSymbol 1 0b0010 = .ok (.sym1 1) := decodingInvertsEncoding (.sym1 1) rfl
  have hsym0 : decodeSymbol 3 0b1000 = .ok (.sym0 3) := decodingInvertsEncoding (.sym0 3) rfl
  have hmask : decodeSymbol 0 0b0100 = .error .unknownSymbol := decodeSymbol_of_ne 0 (by decide) (by decide)
  exact ⟨htick, hrx, hctl, hpor, hdataBit, hreserved, hopcode, htrainLp, hpass, hbad5, hbad8To15, htrain, hindex, hsym1, hsym0,
    hmask⟩

end Sys2Proof
